-- ==== Sys2Proof/Word.lean ====
section
/-! DEFINITION. The word types of the block: every datum is a byte (R56, R58), a command word has 24 bits (R70, R71). -/

namespace Sys2Proof

/-- One byte: a buffer element, a status, a length or a cursor (R9). -/
abbrev Byte := BitVec 8

/-- A command word `W` (R71). -/
abbrev CmdWord := BitVec 24

/-- The `INST` field of a command word (R71). -/
abbrev InstField := BitVec 3

end Sys2Proof
end

