-- ==== Sys2Proof/Syntax.lean ====
section
/-! DEFINITION. The operations of the block: one constructor per row of spec/opcode_table.json, and the messages that arrive
at its ports (R2, R70). -/

namespace Sys2Proof

/-- The status classes of R78, and UNHANDLED for any other masked status (R14, R79). -/
inductive StatusClass where
  | illegalStartStop
  | startSent
  | repStartSent
  | mtSlawAck
  | mtSlawNack
  | mtDataAck
  | mtDataNack
  | arbLost
  | mrSlarAck
  | mrSlarNack
  | mrDataAck
  | mrDataNack
  | noInfoClass
  | unhandled
  deriving DecidableEq, Repr

/-- The six foreground commands, by name: what NOT_INITIALISED records (R72, R194). -/
inductive CmdName where
  | init
  | isReady
  | transmit
  | read
  | getStatus
  | getRxByte
  deriving DecidableEq, Repr

/-- The operations of the block (R2). `k` is the bus instance: the 3-bit INST field in a command (R71), the instance whose
port the operation passes in an event or a hardware operation. `raw` is the unmasked status byte of an event, `d` its data
byte (R70, R181). -/
inductive Instr where
  -- foreground commands (40_api.md)
  | init (k : InstField)
  | isReady (k : InstField)
  | transmit (k : InstField) (rs : Bool) (len : Byte) (data : List Byte)
  | read (k : InstField) (rs : Bool) (addr count : Byte)
  | getStatus (k : InstField)
  | getRxByte (k : InstField) (index : Byte)
  | reservedOp6 (rest : BitVec 21)
  | reservedOp7 (rest : BitVec 21)
  -- bus-status events (41_dispatcher.md)
  | evtIllegalStartStop (k : Nat) (raw : Byte)
  | evtStartSent (k : Nat) (raw : Byte)
  | evtRepStartSent (k : Nat) (raw : Byte)
  | evtMtSlawAck (k : Nat) (raw : Byte)
  | evtMtSlawNack (k : Nat) (raw : Byte)
  | evtMtDataAck (k : Nat) (raw : Byte)
  | evtMtDataNack (k : Nat) (raw : Byte)
  | evtArbLost (k : Nat) (raw : Byte)
  | evtMrSlarAck (k : Nat) (raw : Byte)
  | evtMrSlarNack (k : Nat) (raw : Byte)
  | evtMrDataAck (k : Nat) (raw d : Byte)
  | evtMrDataNack (k : Nat) (raw d : Byte)
  | evtNoInfoClass (k : Nat) (raw : Byte)
  | evtUnhandled (k : Nat) (raw : Byte)
  -- hardware-interface operations (42_hw_interface.md)
  | issueStart (k : Nat)
  | issueStop (k : Nat)
  | continueTx (k : Nat)
  | ackNext (k : Nat)
  | nackNext (k : Nat)
  | writeData (k : Nat) (v : Byte)
  | readData (k : Nat)
  | readStatus (k : Nat)
  | setDivisor (k : Nat) (x : Byte)
  | enable (k : Nat)
  deriving DecidableEq, Repr

/-- What may happen next (R63, R70): a command word with its payload at the command port; a status byte and a data byte, the
Peripheral's two draws (R181), at instance `k`'s event port; a redispatch of instance `k`'s held event (R182); a turn of the
Foreground, in which a command under way takes its next step (R101, R112, R198). -/
inductive Msg where
  | cmd (w : CmdWord) (payload : List Byte)
  | evt (k : Nat) (raw d : Byte)
  | redispatch (k : Nat)
  | turn
  deriving DecidableEq, Repr

/-- Is the message for the command port? -/
def Msg.isCmd : Msg → Bool
  | .cmd _ _ => true
  | .evt _ _ _ => false
  | .redispatch _ => false
  | .turn => false

/-- Why a port rejects what arrived. The first eight are the cases of R74, in its order; the rest are the event port's
(R181, R182, 93 row 7). -/
inductive RefuseReason where
  /-- `OP` is 110 or 111 (R74.1). -/
  | reservedSelector
  /-- `W[7] = 1` (R74.2). -/
  | reservedBit
  /-- `RS = 1` on a command other than TRANSMIT or READ (R74.3). -/
  | rsNotAllowed
  /-- `A != 0` on INIT, IS_READY or GET_STATUS (R74.4). -/
  | aNotZero
  /-- `B != 0` on a command other than READ (R74.5). -/
  | bNotZero
  /-- `INST >= N_INST` (R74.6), or an event port of an instance that does not exist. -/
  | noSuchInstance
  /-- The payload count is not `A` (R74.7), or a payload follows a command that has none (R70). -/
  | payloadCount
  /-- GET_RX_BYTE with `index >= RX_CAP` (R74.8). -/
  | indexPastRxCap
  /-- The event or the redispatch is not enabled (R181, R182, R183). -/
  | notEnabled
  /-- The masked status is NO_INFO, which the Peripheral cannot deliver (R181). -/
  | noInfoStatus
  deriving DecidableEq, Repr

end Sys2Proof
end

