-- ==== Sys2Proof/Config.lean ====
section
/-! DEFINITION. The parameters of R7 and R8, their defaults, and the free values: opaque constants without a body. -/

namespace Sys2Proof

/-- The two sentinels of `LAST_STATUS`; INIT_LAST_STATUS is one of them (R8, D7). -/
inductive Sentinel where
  | success
  | noInfo
  deriving DecidableEq, Repr, Inhabited

/-- `CODE(c)` for the thirteen classes of R78. -/
structure Codes where
  illegalStartStop : Byte
  startSent : Byte
  repStartSent : Byte
  mtSlawAck : Byte
  mtSlawNack : Byte
  mtDataAck : Byte
  mtDataNack : Byte
  arbLost : Byte
  mrSlarAck : Byte
  mrSlarNack : Byte
  mrDataAck : Byte
  mrDataNack : Byte
  noInfoClass : Byte
  deriving DecidableEq, Repr

/-- RESULT_CODE (R77): the numbers of OK and OVERFLOW, for TRANSMIT and READ each its own. -/
structure ResultCodes where
  transmitOk : Nat
  transmitOverflow : Nat
  readOk : Nat
  readOverflow : Nat
  deriving DecidableEq, Repr, Inhabited

/-- The parameters of R7 and R8. CLOCK_DIVISOR is `Params.clockDivisor`. -/
structure Params where
  txCap : Nat
  rxCap : Nat
  busFreq : Nat
  nInst : Nat
  statusMask : Byte
  codes : Codes
  success : Byte
  noInfo : Byte
  initLastStatus : Sentinel
  redispatch : Bool
  resultCodes : ResultCodes
  deriving DecidableEq, Repr

/-- BUS_FREQ: "build-time configuration; value not given" (R7). A free value. -/
opaque Config.busFreq : Nat

/-- CLOCK_DIVISOR, "opaque function of `BUS_FREQ`" (R8, D36). A free value for each frequency, of 8 bits
as a HWOP's value is (R70). -/
opaque Config.clockDivisor : Nat → Byte

/-- INIT_LAST_STATUS, OPEN without a default (R8, D7). A free value. -/
opaque Config.initLastStatus : Sentinel

/-- RESULT_CODE, OPEN (R8, D21). A free value. -/
opaque Config.resultCodes : ResultCodes

/-- The environment: what happens next at draw `n`, if anything does. The Foreground's commands are its caller's, the
Peripheral's choices are free draws, which may also never come (R181, R185), and which agent moves is free (R63). A free value
for each draw. -/
opaque Config.environment : Nat → Option Msg

/-- The default column of R78: the AVR TWI master codes. -/
def Codes.default : Codes where
  illegalStartStop := 0x00
  startSent := 0x08
  repStartSent := 0x10
  mtSlawAck := 0x18
  mtSlawNack := 0x20
  mtDataAck := 0x28
  mtDataNack := 0x30
  arbLost := 0x38
  mrSlarAck := 0x40
  mrSlarNack := 0x48
  mrDataAck := 0x50
  mrDataNack := 0x58
  noInfoClass := 0xF8

/-- R7's reference values and R8's defaults. N_INST has none: 8 is all that the INST field can name
(DESIGN CHOICE, log 3, unsafe). -/
def Params.default : Params where
  txCap := 16
  rxCap := 16
  busFreq := Config.busFreq
  nInst := 8
  statusMask := 0xF8
  codes := Codes.default
  success := 0xFF
  noInfo := 0xF8
  initLastStatus := Config.initLastStatus
  redispatch := false
  resultCodes := Config.resultCodes

/-- CLOCK_DIVISOR: what INIT writes to the clock divisor (R8, R100, R179). -/
def Params.clockDivisor (p : Params) : Byte := Config.clockDivisor p.busFreq

/-- INIT_LAST_STATUS as the byte INIT writes (R8, R100). -/
def Params.initStatus (p : Params) : Byte :=
  match p.initLastStatus with
  | .success => p.success
  | .noInfo => p.noInfo

/-- The values `LAST_STATUS` may hold (R83). -/
def Params.statusValue (p : Params) (v : Byte) : Bool :=
  [p.success, p.noInfo, p.codes.mtSlawNack, p.codes.mrSlarNack, p.codes.mtDataNack, p.codes.arbLost,
   p.codes.illegalStartStop].contains v

end Sys2Proof
end

