-- ==== Sys2Proof/WellFormed.lean ====
section
/-! DEFINITION. The constraints a model must check: of the parameters (R7, R8) and of an instruction (R74, R78). -/

namespace Sys2Proof

/-- The thirteen classes of R78 with their codes. -/
def Codes.table (c : Codes) : List (StatusClass × Byte) :=
  [(.illegalStartStop, c.illegalStartStop), (.startSent, c.startSent), (.repStartSent, c.repStartSent),
   (.mtSlawAck, c.mtSlawAck), (.mtSlawNack, c.mtSlawNack), (.mtDataAck, c.mtDataAck), (.mtDataNack, c.mtDataNack),
   (.arbLost, c.arbLost), (.mrSlarAck, c.mrSlarAck), (.mrSlarNack, c.mrSlarNack), (.mrDataAck, c.mrDataAck),
   (.mrDataNack, c.mrDataNack), (.noInfoClass, c.noInfoClass)]

/-- The constraints of R7 and R8 on the parameters. -/
def Params.wf (p : Params) : Bool :=
  decide (1 ≤ p.txCap) && decide (1 ≤ p.rxCap) && decide (1 ≤ p.nInst) &&
  decide (p.codes.table.map (·.2)).Nodup &&
  (p.codes.table.map (·.2)).all (fun c => c &&& ~~~p.statusMask == 0#8) &&
  decide (p.success ≠ p.noInfo) &&
  decide (p.success &&& ~~~p.statusMask ≠ 0#8) &&
  decide (p.noInfo = p.codes.noInfoClass)

/-- The raw status of an event spells the class with this code (R79). -/
def Params.spells (p : Params) (raw code : Byte) : Bool := decide (raw &&& p.statusMask = code)

/-- An instruction that some port message spells: R74's cases 6 to 8 for a command, R78 and R79 for an event; a hardware
operation has no encoding (R85) and asks only for its instance. -/
def Instr.wf (p : Params) : Instr → Bool
  | .init k => decide (k.toNat < p.nInst)
  | .isReady k => decide (k.toNat < p.nInst)
  | .transmit k _ len data => decide (k.toNat < p.nInst) && decide (data.length = len.toNat)
  | .read k _ _ _ => decide (k.toNat < p.nInst)
  | .getStatus k => decide (k.toNat < p.nInst)
  | .getRxByte k index => decide (k.toNat < p.nInst) && decide (index.toNat < p.rxCap)
  | .reservedOp6 _ => true
  | .reservedOp7 _ => true
  | .evtIllegalStartStop k raw => decide (k < p.nInst) && p.spells raw p.codes.illegalStartStop
  | .evtStartSent k raw => decide (k < p.nInst) && p.spells raw p.codes.startSent
  | .evtRepStartSent k raw => decide (k < p.nInst) && p.spells raw p.codes.repStartSent
  | .evtMtSlawAck k raw => decide (k < p.nInst) && p.spells raw p.codes.mtSlawAck
  | .evtMtSlawNack k raw => decide (k < p.nInst) && p.spells raw p.codes.mtSlawNack
  | .evtMtDataAck k raw => decide (k < p.nInst) && p.spells raw p.codes.mtDataAck
  | .evtMtDataNack k raw => decide (k < p.nInst) && p.spells raw p.codes.mtDataNack
  | .evtArbLost k raw => decide (k < p.nInst) && p.spells raw p.codes.arbLost
  | .evtMrSlarAck k raw => decide (k < p.nInst) && p.spells raw p.codes.mrSlarAck
  | .evtMrSlarNack k raw => decide (k < p.nInst) && p.spells raw p.codes.mrSlarNack
  | .evtMrDataAck k raw _ => decide (k < p.nInst) && p.spells raw p.codes.mrDataAck
  | .evtMrDataNack k raw _ => decide (k < p.nInst) && p.spells raw p.codes.mrDataNack
  | .evtNoInfoClass k raw => decide (k < p.nInst) && p.spells raw p.codes.noInfoClass
  | .evtUnhandled k raw => decide (k < p.nInst) && (p.codes.table.map (·.2)).all (fun c => !p.spells raw c)
  | .issueStart k => decide (k < p.nInst)
  | .issueStop k => decide (k < p.nInst)
  | .continueTx k => decide (k < p.nInst)
  | .ackNext k => decide (k < p.nInst)
  | .nackNext k => decide (k < p.nInst)
  | .writeData k _ => decide (k < p.nInst)
  | .readData k => decide (k < p.nInst)
  | .readStatus k => decide (k < p.nInst)
  | .setDivisor k _ => decide (k < p.nInst)
  | .enable k => decide (k < p.nInst)

end Sys2Proof
end

