-- ==== Sys2Proof/Decode.lean ====
section
/-! DEFINITION. From port messages to instructions, total, rejecting by name (R70-R74, R78-R80); the encoder; the
pseudo-commands (R76). -/

namespace Sys2Proof

/-! ## The fields of the command word (R71) -/

def CmdWord.op (w : CmdWord) : BitVec 3 := w.extractLsb' 0 3
def CmdWord.rs (w : CmdWord) : Bool := w.getLsbD 3
def CmdWord.instField (w : CmdWord) : InstField := w.extractLsb' 4 3
def CmdWord.reserved (w : CmdWord) : Bool := w.getLsbD 7
def CmdWord.a (w : CmdWord) : Byte := w.extractLsb' 8 8
def CmdWord.b (w : CmdWord) : Byte := w.extractLsb' 16 8
/-- The 21 bits beside `OP`, which a word of a reserved selector may hold at will (R74.1). -/
def CmdWord.rest (w : CmdWord) : BitVec 21 := w.extractLsb' 3 21

/-- A command word with `W[7] = 0` from its fields, each at its place (R71). -/
def cmdWord (b a : Byte) (k : InstField) (rs : Bool) (op : BitVec 3) : CmdWord :=
  (b.setWidth 24 <<< 16) ||| (a.setWidth 24 <<< 8) ||| (k.setWidth 24 <<< 4) |||
  ((BitVec.ofBool rs).setWidth 24 <<< 3) ||| op.setWidth 24

/-- A word of a reserved selector (R72, R74.1). -/
def reservedWord (rest : BitVec 21) (op : BitVec 3) : CmdWord := (rest.setWidth 24 <<< 3) ||| op.setWidth 24

/-! ## Decoding -/

/-- The first refusal of a list of checks, each a condition and its name, or the instruction. -/
def firstRefusal (i : Instr) : List (Bool × RefuseReason) → Except RefuseReason Instr
  | [] => .ok i
  | (bad, why) :: rest => if bad then .error why else firstRefusal i rest

/-- The command that a word with a selector of R72 names, before the checks of R74. -/
def CmdWord.command (w : CmdWord) (payload : List Byte) : Instr :=
  if w.op = 0#3 then .init w.instField
  else if w.op = 1#3 then .isReady w.instField
  else if w.op = 2#3 then .transmit w.instField w.rs w.a payload
  else if w.op = 3#3 then .read w.instField w.rs w.a w.b
  else if w.op = 4#3 then .getStatus w.instField
  else if w.op = 5#3 then .getRxByte w.instField w.a
  else if w.op = 6#3 then .reservedOp6 w.rest
  else .reservedOp7 w.rest

/-- The checks of R74 in its order; the reserved selectors (R74.1) are instructions of their own, which `exec` refuses. A
payload after a command that has none is a wrong payload count too (R70; DEDUCED, log 29). -/
def CmdWord.checks (p : Params) (w : CmdWord) (payload : List Byte) : List (Bool × RefuseReason) :=
  [(w.reserved, .reservedBit),
   (w.rs && decide (w.op ≠ 2#3) && decide (w.op ≠ 3#3), .rsNotAllowed),
   (decide (w.a ≠ 0#8) && (decide (w.op = 0#3) || decide (w.op = 1#3) || decide (w.op = 4#3)), .aNotZero),
   (decide (w.b ≠ 0#8) && decide (w.op ≠ 3#3), .bNotZero),
   (decide (p.nInst ≤ w.instField.toNat), .noSuchInstance),
   (decide (payload.length ≠ if w.op = 2#3 then w.a.toNat else 0), .payloadCount),
   (decide (w.op = 5#3) && decide (p.rxCap ≤ w.a.toNat), .indexPastRxCap)]

/-- A command word with its payload (R71-R74). -/
def decodeCmd (p : Params) (w : CmdWord) (payload : List Byte) : Except RefuseReason Instr :=
  if w.op = 6#3 ∨ w.op = 7#3 then .ok (w.command payload)
  else firstRefusal (w.command payload) (w.checks p payload)

/-- `class(s)` of R79: the class whose code is exactly the masked status, UNHANDLED if there is none. -/
def classify (c : Codes) (s : Byte) : StatusClass :=
  match c.table.find? (fun e => e.2 == s) with
  | some e => e.1
  | none => .unhandled

/-- The event of a class at instance `k` (R70, R78): the data byte goes with the two receive classes only (R184). -/
def StatusClass.event (c : StatusClass) (k : Nat) (raw d : Byte) : Instr :=
  match c with
  | .illegalStartStop => .evtIllegalStartStop k raw
  | .startSent => .evtStartSent k raw
  | .repStartSent => .evtRepStartSent k raw
  | .mtSlawAck => .evtMtSlawAck k raw
  | .mtSlawNack => .evtMtSlawNack k raw
  | .mtDataAck => .evtMtDataAck k raw
  | .mtDataNack => .evtMtDataNack k raw
  | .arbLost => .evtArbLost k raw
  | .mrSlarAck => .evtMrSlarAck k raw
  | .mrSlarNack => .evtMrSlarNack k raw
  | .mrDataAck => .evtMrDataAck k raw d
  | .mrDataNack => .evtMrDataNack k raw d
  | .noInfoClass => .evtNoInfoClass k raw
  | .unhandled => .evtUnhandled k raw

/-- An event at instance `k`'s port (R79): the status is masked and classified. -/
def decodeEvt (p : Params) (k : Nat) (raw d : Byte) : Except RefuseReason Instr :=
  if k < p.nInst then .ok ((classify p.codes (raw &&& p.statusMask)).event k raw d) else .error .noSuchInstance

/-- A message. A redispatch and a turn spell no instruction: the step runs them itself (R182, R112). -/
def decode (p : Params) : Msg → Except RefuseReason Instr
  | .cmd w payload => decodeCmd p w payload
  | .evt k raw d => decodeEvt p k raw d
  | .redispatch _ => .error .notEnabled
  | .turn => .error .notEnabled

/-! ## Encoding -/

/-- The message that spells an instruction (R71-R73, R78); a hardware operation has none (R85). A class without a data byte
is sent with the byte 0, which nothing reads (R184). -/
def encode : Instr → Option Msg
  | .init k => some (.cmd (cmdWord 0 0 k false 0#3) [])
  | .isReady k => some (.cmd (cmdWord 0 0 k false 1#3) [])
  | .transmit k rs len data => some (.cmd (cmdWord 0 len k rs 2#3) data)
  | .read k rs addr count => some (.cmd (cmdWord count addr k rs 3#3) [])
  | .getStatus k => some (.cmd (cmdWord 0 0 k false 4#3) [])
  | .getRxByte k index => some (.cmd (cmdWord 0 index k false 5#3) [])
  | .reservedOp6 rest => some (.cmd (reservedWord rest 6#3) [])
  | .reservedOp7 rest => some (.cmd (reservedWord rest 7#3) [])
  | .evtIllegalStartStop k raw => some (.evt k raw 0)
  | .evtStartSent k raw => some (.evt k raw 0)
  | .evtRepStartSent k raw => some (.evt k raw 0)
  | .evtMtSlawAck k raw => some (.evt k raw 0)
  | .evtMtSlawNack k raw => some (.evt k raw 0)
  | .evtMtDataAck k raw => some (.evt k raw 0)
  | .evtMtDataNack k raw => some (.evt k raw 0)
  | .evtArbLost k raw => some (.evt k raw 0)
  | .evtMrSlarAck k raw => some (.evt k raw 0)
  | .evtMrSlarNack k raw => some (.evt k raw 0)
  | .evtMrDataAck k raw d => some (.evt k raw d)
  | .evtMrDataNack k raw d => some (.evt k raw d)
  | .evtNoInfoClass k raw => some (.evt k raw 0)
  | .evtUnhandled k raw => some (.evt k raw 0)
  | .issueStart _ => none
  | .issueStop _ => none
  | .continueTx _ => none
  | .ackNext _ => none
  | .nackNext _ => none
  | .writeData _ _ => none
  | .readData _ => none
  | .readStatus _ => none
  | .setDivisor _ _ => none
  | .enable _ => none

/-! ## The opcode table's words -/

/-- The message of an opcode-table word: a 24-bit row is a command word, with the payload of zeros that its `A` asks for if
it is a TRANSMIT; an 8-bit row is a status byte at instance 0's event port, with the data byte 0. -/
def tableMsg (nbits w : Nat) : Option Msg :=
  if nbits = 24 then
    let word : CmdWord := BitVec.ofNat 24 w
    some (.cmd word (if word.op = 2#3 then List.replicate word.a.toNat 0#8 else []))
  else if nbits = 8 then some (.evt 0 (BitVec.ofNat 8 w) 0)
  else none

/-- The instruction the decoder reads from an opcode-table word, under the default parameters. -/
def decodeTableWord (nbits w : Nat) : Option Instr :=
  match tableMsg nbits w with
  | none => none
  | some m => (decode Params.default m).toOption

/-! ## Pseudo-commands (R76) -/

/-- The assembler shorthands of R76. WAIT_READY and RESULT repeat their first command as long as `Pseudo.repeats` says. -/
inductive Pseudo where
  | waitReady (k : InstField)
  | result (k : InstField)
  | write (k : InstField) (addr : Byte) (bytes : List Byte) (rs : Bool)
  | regRead (k : InstField) (addr reg count : Byte)
  deriving DecidableEq, Repr

/-- The SLA+W frame that WRITE builds: `((address << 1) | 0) mod 256` (R76). -/
def writeFrame (addr : Byte) : Byte := (addr <<< 1) ||| 0#8

/-- The TRANSMIT that WRITE expands to (R76). -/
def pseudoWrite (k : InstField) (addr : Byte) (bytes : List Byte) (rs : Bool) : Instr :=
  .transmit k rs (BitVec.ofNat 8 (bytes.length + 1)) (writeFrame addr :: bytes)

/-- The commands a shorthand expands to, in order (R76). -/
def Pseudo.expand : Pseudo → List Instr
  | .waitReady k => [.isReady k]
  | .result k => [.isReady k, .getStatus k]
  | .write k addr bytes rs => [pseudoWrite k addr bytes rs]
  | .regRead k addr reg count => [pseudoWrite k addr [reg] true, .read k false addr count]

/-- "if result = false, repeat L" (R76): the caller's poll loop issues IS_READY again. -/
def Pseudo.repeats : Pseudo → Bool → Bool
  | .waitReady _, isReady => !isReady
  | .result _, isReady => !isReady
  | .write _ _ _ _, _ => false
  | .regRead _ _ _ _, _ => false

end Sys2Proof
end

