-- ==== Sys2Proof/Machine/State.lean ====
section
/-! DEFINITION. The state of the block as plain data (10_state.md), and the state at power-on (R46, R220). -/

namespace Sys2Proof.Machine

/-- A register with its written mark (R42): it holds a value at all times, and a rule may read it only when it is marked. -/
structure Reg (α : Type) where
  val : α
  written : Bool
  deriving DecidableEq, Repr

/-- A buffer (R27, R30): the written elements as cells (index, byte), strictly rising; an index that is not listed is an
unwritten element (R42) and has no value (log 6, safe). -/
abbrev Memory := List Host.Cell

/-- `MODE` (R22), with the reserved value 7 that no rule writes. -/
inductive Mode where
  | ready
  | initializing
  | repeatedStartSent
  | masterTransmitter
  | masterReceiver
  | slaveTransmitter
  | slaveReceiver
  | reserved7
  deriving DecidableEq, Repr

/-- The numeric encoding of `MODE` (R22). -/
def Mode.toBits : Mode → BitVec 3
  | .ready => 0#3
  | .initializing => 1#3
  | .repeatedStartSent => 2#3
  | .masterTransmitter => 3#3
  | .masterReceiver => 4#3
  | .slaveTransmitter => 5#3
  | .slaveReceiver => 6#3
  | .reserved7 => 7#3

/-- An entry of `HW.trace` (R41). -/
inductive TraceOp where
  | start
  | stop
  | cont (v : Byte)
  | ackNext
  | nackNext
  | setDivisor (x : Byte)
  | enable
  deriving DecidableEq, Repr

/-- What an UNWRITTEN_READ names: a register or a buffer element (R42). -/
inductive RegName where
  | mode
  | lastStatus
  | repStart
  | txBuf (i : Nat)
  | txLen
  | txCur
  | rxBuf (i : Nat)
  | rxLen
  | rxCur
  | hwStatus
  | hwData
  deriving DecidableEq, Repr

/-- The model faults of R194, with what each records. -/
inductive FaultCode where
  | notInitialised (c : CmdName)
  | initWhileBusy (m : Mode)
  | txEmptyAfterRs
  | rxOverrun (cur len status : Byte)
  | unhandledStatus (s : Byte)
  | unwrittenRead (x : RegName)
  | dataWriteCollision (v : Byte)
  | indexRange (i : Nat)
  deriving DecidableEq, Repr

/-- The numeric codes of R194. -/
def FaultCode.number : FaultCode → Nat
  | .notInitialised _ => 1
  | .initWhileBusy _ => 2
  | .txEmptyAfterRs => 3
  | .rxOverrun _ _ _ => 4
  | .unhandledStatus _ => 5
  | .unwrittenRead _ => 6
  | .dataWriteCollision _ => 7
  | .indexRange _ => 8

/-- The peripheral-facing state `HW` (R34-R41); `trace` is oldest first. -/
structure Hw where
  en : Bool
  ie : Bool
  div : Reg Byte
  pend : Bool
  busy : Bool
  status : Reg Byte
  data : Reg Byte
  trace : List TraceOp
  deriving DecidableEq, Repr

/-- The state of one bus instance (R20): TransactionInfo, the buffers, `HW`, and the model-only `INITD` and `FAULT`. -/
structure Inst where
  mode : Reg Mode
  lastStatus : Reg Byte
  repStart : Reg Bool
  txBuf : Memory
  txLen : Reg Byte
  txCur : Reg Byte
  rxBuf : Memory
  rxLen : Reg Byte
  rxCur : Reg Byte
  hw : Hw
  initd : Bool
  fault : Option FaultCode
  deriving DecidableEq, Repr

/-- A step of an acceptance (R103 steps T3 to T6, R106 steps Q3 to Q5). T3, T5 and Q3 are one step each, so that a cursor and
its length change together (R33, R112); a byte copied is one (R60.4), and so is each write, test and operation of T6. -/
inductive AcceptStep where
  /-- Q3: `RX_CUR <- 0` and `RX_LEN <- byteCount`. -/
  | rxStart (count : Byte)
  /-- Q5: the wait T2 of the TRANSMIT inside READ. -/
  | wait
  /-- T3. -/
  | repStart (rs : Bool)
  /-- T4 for one `i`. -/
  | copy (i : Nat) (v : Byte)
  /-- T5: `TX_CUR <- 0` and `TX_LEN <- length`. -/
  | txStart (len : Byte)
  /-- T6: the test of `MODE`. -/
  | path (len : Byte)
  /-- T6: `if length = 0: raise Fault(TX_EMPTY_AFTER_RS)`. -/
  | notEmpty (len : Byte)
  /-- T6: `MODE <- Initializing`. -/
  | modeInitializing
  /-- T6: `issue WRITE_DATA(MemRead(TX_BUF, 0, 1))`. -/
  | loadFirst
  /-- T6: `TX_CUR <- 1`. -/
  | firstSent
  /-- T6: `issue CONTINUE`. -/
  | continueTx
  /-- T6: `issue ISSUE_START`. -/
  | issueStart
  deriving DecidableEq, Repr

/-- Where the Foreground is: free to issue its next command (R115); held in one, at its wait (R101) or at a faulted instance
(R195); or inside an acceptance whose steps are taken one at a time (R112), with the steps that remain before it returns. -/
inductive Foreground where
  | idle
  | held (i : Instr)
  | accepting (i : Instr) (todo : List AcceptStep)
  deriving DecidableEq, Repr

/-- Whose result it is: RESULT_CODE numbers the two commands apart (R77). -/
inductive ApiFn where
  | transmit
  | read
  deriving DecidableEq, Repr

/-- The abstract result of TRANSMIT and READ (R77). -/
inductive ApiResult where
  | ok
  | overflow
  deriving DecidableEq, Repr

/-- The command port's answer to the last command (R77), or its refusal (R74). `noReply`: none yet, or the command is
under way or has faulted. `done`: INIT has returned, which has no result. -/
inductive Reply where
  | noReply
  | done
  | api (f : ApiFn) (r : ApiResult)
  | ready (b : Bool)
  | byte (v : Byte)
  | refused (why : RefuseReason)
  deriving DecidableEq, Repr

/-- The event port's answer to the last event or redispatch (R181, R182; 93 row 7). -/
inductive EvtReply where
  | noReply
  | delivered
  | refused (why : RefuseReason)
  deriving DecidableEq, Repr

/-- What the last READ_DATA or READ_STATUS returned when it ran as an instruction of its own (R177, R178). -/
inductive HwReply where
  | noReply
  | byte (v : Byte)
  deriving DecidableEq, Repr

/-- The whole system: the parameters (R7, R8), which no step writes; the instances (R20); the Foreground; the ports' answers;
the messages waiting at the ports, first arrived first; and the counter of free draws. -/
structure State where
  params : Params
  insts : List Inst
  fg : Foreground
  reply : Reply
  evtReply : EvtReply
  hwReply : HwReply
  inbox : List Msg
  draws : Nat
  deriving DecidableEq, Repr

/-- Why a step stops with the host's fault: the operation asked for has no step, and no port to refuse it. The spec's own
faults (R194) are no stop: they are recorded in `Inst.fault`. -/
inductive Fault where
  /-- Raised by an event or a hardware operation of an instance that does not exist (R20). Safe. Never by `step`: the
  decoder refuses such an event. -/
  | noSuchInstance (k : Nat)
  /-- Raised by a hardware operation run as an instruction of its own at a faulted instance, which has no further step
  (R195). Safe. Never by `step`. -/
  | instanceFaulted (k : Nat)
  /-- Raised by a command executed while the Foreground is in another, which blocks it (R115). Safe. Never by `step`:
  the command stays at the port. -/
  | foregroundHeld
  deriving DecidableEq, Repr

/-- Why a step gives no meaning. -/
inductive Refusal where
  /-- Raised by `exec` for an instruction that has no meaning yet. Safe. No arm raises it now. -/
  | notModelled (mnemonic : String)
  deriving DecidableEq, Repr

/-- `HW` at power-on (R46, D38). The values behind the marks are a DESIGN CHOICE (log 5). -/
def Hw.powerOn : Hw where
  en := false
  ie := false
  div := ⟨0, false⟩
  pend := false
  busy := false
  status := ⟨0, false⟩
  data := ⟨0, false⟩
  trace := []

/-- An instance at power-on (R46, R220). The values behind the marks are a DESIGN CHOICE (log 5). -/
def Inst.powerOn : Inst where
  mode := ⟨.ready, false⟩
  lastStatus := ⟨0, false⟩
  repStart := ⟨false, false⟩
  txBuf := []
  txLen := ⟨0, false⟩
  txCur := ⟨0, false⟩
  rxBuf := []
  rxLen := ⟨0, false⟩
  rxCur := ⟨0, false⟩
  hw := Hw.powerOn
  initd := false
  fault := none

/-- The system at power-on with these parameters (R220): every instance as in R46's power-on column, the Foreground idle,
nothing at the ports. -/
def State.powerOn (p : Params) : State where
  params := p
  insts := List.replicate p.nInst Inst.powerOn
  fg := .idle
  reply := .noReply
  evtReply := .noReply
  hwReply := .noReply
  inbox := []
  draws := 0

/-- Power-on with the default parameters. The block has no reset but INIT (R221): this is the state before it. -/
def State.reset : State := State.powerOn Params.default

end Sys2Proof.Machine
end

