-- ==== Sys2Proof/Machine/Flags.lean ====
section
/-! DEFINITION. The conditions the rules compute from the state and nothing stores: READY (R43), and what enables a delivery
(R181), a redispatch (R182) and a step of the Foreground inside a command (R101, R112). -/

namespace Sys2Proof.Machine

/-- "`mode ∈ {Ready, RepeatedStartSent}`" (R43). -/
def Mode.gated : Mode → Bool
  | .ready => true
  | .repeatedStartSent => true
  | .initializing => false
  | .masterTransmitter => false
  | .masterReceiver => false
  | .slaveTransmitter => false
  | .slaveReceiver => false
  | .reserved7 => false

/-- `READY` (R43), of a written `MODE`. -/
def Inst.ready (x : Inst) : Bool := x.mode.written && x.mode.val.gated

/-- Event delivery is enabled (R181). -/
def Inst.deliveryEnabled (x : Inst) : Bool := x.fault.isNone && x.hw.en && x.hw.ie && x.hw.busy

/-- The redispatch step is enabled, where it exists (R182). -/
def Inst.redispatchEnabled (p : Params) (x : Inst) : Bool :=
  p.redispatch && x.fault.isNone && x.hw.en && x.hw.ie && x.hw.pend && !x.hw.busy

def Foreground.isIdle : Foreground → Bool
  | .idle => true
  | .held _ => false
  | .accepting _ _ => false

/-- The command that the Foreground is in. -/
def Foreground.command : Foreground → Option Instr
  | .idle => none
  | .held i => some i
  | .accepting i _ => some i

/-- The instance of a command that has further steps of its own, and whose result it is: only TRANSMIT and READ wait and accept
(R101, R112); another command is held only because its instance is faulted, which nothing lifts (R195). -/
def callOf : Instr → Option (Nat × ApiFn)
  | .transmit k _ _ _ => some (k.toNat, .transmit)
  | .read k _ _ _ => some (k.toNat, .read)
  | _ => none

/-- Does the Foreground's next step ask that READY hold? At the wait of a command, and at the wait inside READ (R101). -/
def Foreground.atWait : Foreground → Bool
  | .idle => false
  | .held _ => true
  | .accepting _ (.wait :: _) => true
  | .accepting _ _ => false

/-- The Foreground has a step inside its command: the instance is not faulted (R195), and READY holds if it is at a wait, which
reads `MODE` afresh (R63, R101). -/
def State.foregroundEnabled (s : State) : Bool :=
  match s.fg.command.bind callOf with
  | none => false
  | some (k, _) =>
    match s.insts[k]? with
    | none => false
    | some x => x.fault.isNone && (x.ready || !s.fg.atWait)

end Sys2Proof.Machine
end

