-- ==== Sys2Proof/Machine/Operands.lean ====
section
/-! DEFINITION. The operands an instruction assembles or reads (R57, R73), and the numbers of its results (R77). -/

namespace Sys2Proof.Machine

/-- The address frame READ builds: `((address << 1) | 1) mod 256` (R57, R106 step Q4). -/
def readFrame (addr : Byte) : Byte := (addr <<< 1) ||| 1#8

/-- The bytes that remain to receive, `RX_LEN - RX_CUR` on unbounded integers (R133). -/
def remaining (len cur : Byte) : Int := (len.toNat : Int) - (cur.toNat : Int)

/-- The number of a TRANSMIT or READ result under RESULT_CODE (R77). -/
def apiNumber (p : Params) : ApiFn → ApiResult → Nat
  | .transmit, .ok => p.resultCodes.transmitOk
  | .transmit, .overflow => p.resultCodes.transmitOverflow
  | .read, .ok => p.resultCodes.readOk
  | .read, .overflow => p.resultCodes.readOverflow

end Sys2Proof.Machine
end

