-- ==== Sys2Proof/Machine/Ops.lean ====
section
/-! DEFINITION. The named operations over registers, buffers and `HW`; raising a fault and entering and leaving the handler as
shared operations; the frames of a command, an event and a hardware operation. -/

namespace Sys2Proof.Machine

/-! ## Registers -/

/-- The register after a write of `v`: the value, marked written (R42). -/
def Reg.of {α : Type} (v : α) : Reg α := ⟨v, true⟩

def Inst.setMode (x : Inst) (v : Mode) : Inst := { x with mode := Reg.of v }
def Inst.setLastStatus (x : Inst) (v : Byte) : Inst := { x with lastStatus := Reg.of v }
def Inst.setRepStart (x : Inst) (v : Bool) : Inst := { x with repStart := Reg.of v }
def Inst.setTxBuf (x : Inst) (m : Memory) : Inst := { x with txBuf := m }
def Inst.setTxLen (x : Inst) (v : Byte) : Inst := { x with txLen := Reg.of v }
def Inst.setTxCur (x : Inst) (v : Byte) : Inst := { x with txCur := Reg.of v }
def Inst.setRxBuf (x : Inst) (m : Memory) : Inst := { x with rxBuf := m }
def Inst.setRxLen (x : Inst) (v : Byte) : Inst := { x with rxLen := Reg.of v }
def Inst.setRxCur (x : Inst) (v : Byte) : Inst := { x with rxCur := Reg.of v }
def Inst.setHw (x : Inst) (h : Hw) : Inst := { x with hw := h }
def Inst.setInitd (x : Inst) : Inst := { x with initd := true }

/-! ## Faults (R195): taking an exception -/

/-- `raise Fault(f)`: FAULT is set, and what was written before stays (R195). -/
def Inst.raise (f : FaultCode) (x : Inst) : Inst := { x with fault := some f }

/-- Go on with the step unless it has raised a fault: "the step's remaining writes and HWOPs are not performed" (R195). -/
def Inst.andThen (x : Inst) (f : Inst → Inst) : Inst :=
  match x.fault with
  | none => f x
  | some _ => x

/-- Read a register: an unwritten one raises UNWRITTEN_READ instead of producing a value (R42). -/
def Reg.read {α : Type} (r : Reg α) (name : RegName) (x : Inst) (f : α → Inst) : Inst :=
  if r.written then f r.val else x.raise (.unwrittenRead name)

/-! ## Buffers (R52-R55) -/

/-- The byte at an index; none where nothing was written. -/
def Memory.read : Memory → Nat → Option Byte
  | [], _ => none
  | (a, v) :: m, i => if a = i then some v else Memory.read m i

/-- Write one byte, keeping the cells strictly rising. -/
def Memory.write : Memory → Nat → Byte → Memory
  | [], i, v => [(i, v)]
  | (a, b) :: m, i, v =>
    if i < a then (i, v) :: (a, b) :: m
    else if i = a then (i, v) :: m
    else (a, b) :: Memory.write m i v

/-- Write bytes at rising indices from `i` on (R53, R56). -/
def Memory.writeFrom : Memory → Nat → List Byte → Memory
  | m, _, [] => m
  | m, i, v :: vs => Memory.writeFrom (Memory.write m i v) (i + 1) vs

/-- The canonical form: indices strictly rising. No cell can equal an unlisted one, which has no value. -/
def Memory.wf : Memory → Bool
  | [] => true
  | (a, _) :: m => m.all (fun c => decide (a < c.1)) && Memory.wf m

/-- Every written element lies below the capacity (R51). -/
def Memory.below (cap : Nat) (m : Memory) : Bool := m.all (fun c => decide (c.1 < cap))

/-- `MemRead(buffer, i, 1)` (R52, R55): INDEX_RANGE at or past the capacity, UNWRITTEN_READ of an unwritten element. -/
def Memory.load (m : Memory) (cap i : Nat) (name : RegName) (x : Inst) (f : Byte → Inst) : Inst :=
  if i < cap then
    match Memory.read m i with
    | some v => f v
    | none => x.raise (.unwrittenRead name)
  else x.raise (.indexRange i)

/-- `MemWrite(TX_BUF, i, 1, v)` (R53). -/
def Inst.storeTx (cap i : Nat) (v : Byte) (x : Inst) : Inst :=
  if i < cap then x.setTxBuf (Memory.write x.txBuf i v) else x.raise (.indexRange i)

/-- `MemWrite(RX_BUF, i, 1, v)` (R54). -/
def Inst.storeRx (cap i : Nat) (v : Byte) (x : Inst) : Inst :=
  if i < cap then x.setRxBuf (Memory.write x.rxBuf i v) else x.raise (.indexRange i)

/-! ## Hardware-interface operations (R170-R180) on `HW` -/

/-- What the four control operations with a completion do (R171, R173-R175): `pend` off, `busy` on, the operation traced. -/
def Hw.launch (h : Hw) (op : TraceOp) : Hw := { h with pend := false, busy := true, trace := h.trace ++ [op] }

/-- ISSUE_STOP (R172): no completion event follows. -/
def Hw.halt (h : Hw) : Hw := { h with pend := false, busy := false, trace := h.trace ++ [.stop] }

/-- SET_DIVISOR (R179). -/
def Hw.putDivisor (h : Hw) (x : Byte) : Hw := { h with div := Reg.of x, trace := h.trace ++ [.setDivisor x] }

/-- ENABLE (R180). -/
def Hw.turnOn (h : Hw) : Hw := { h with en := true, ie := true, trace := h.trace ++ [.enable] }

/-- The data register after a write (R176, R184). -/
def Hw.putData (h : Hw) (v : Byte) : Hw := { h with data := Reg.of v }

/-- What CONTINUE has written before it reads `HW.data` (R173). -/
def Hw.release (h : Hw) : Hw := { h with pend := false, busy := true }

/-- What a delivery writes (R181): the status, the data byte where the class carries one (R184), `busy` off, `pend` on. -/
def Hw.arrive (h : Hw) (raw : Byte) (d : Option Byte) : Hw :=
  { h with
    status := Reg.of raw
    data := match d with
      | some v => Reg.of v
      | none => h.data
    busy := false
    pend := true }

def Inst.issueStart (x : Inst) : Inst := x.setHw (x.hw.launch .start)
def Inst.issueStop (x : Inst) : Inst := x.setHw x.hw.halt
def Inst.ackNext (x : Inst) : Inst := x.setHw (x.hw.launch .ackNext)
def Inst.nackNext (x : Inst) : Inst := x.setHw (x.hw.launch .nackNext)
def Inst.setDivisor (v : Byte) (x : Inst) : Inst := x.setHw (x.hw.putDivisor v)
def Inst.enable (x : Inst) : Inst := x.setHw x.hw.turnOn

/-- CONTINUE (R173): the byte in `HW.data` is sent and traced. The writes of `pend` and `busy` come before the read, so they
stay when the read faults (DEDUCED, log 14). -/
def Inst.continueTx (x : Inst) : Inst :=
  x.hw.data.read .hwData (x.setHw x.hw.release) (fun v => x.setHw (x.hw.launch (.cont v)))

/-- WRITE_DATA (R176). -/
def Inst.writeData (v : Byte) (x : Inst) : Inst :=
  if x.hw.pend then x.setHw (x.hw.putData v) else x.raise (.dataWriteCollision v)

/-- READ_DATA (R177). -/
def Inst.readData (x : Inst) (f : Byte → Inst) : Inst := x.hw.data.read .hwData x f

/-- READ_STATUS (R178): masked. `HW.status` is unwritten only before the first delivery (DEDUCED, log 22). -/
def Inst.readStatus (p : Params) (x : Inst) (f : Byte → Inst) : Inst :=
  x.hw.status.read .hwStatus x (fun v => f (v &&& p.statusMask))

/-! ## Entering and leaving the handler (R181, R200, R201) -/

/-- A delivery up to the Dispatcher's first step: nothing is saved, and nothing changes besides the delivery's own writes
(R181, R200). -/
def Inst.enterHandler (raw : Byte) (d : Option Byte) (x : Inst) : Inst := x.setHw (x.hw.arrive raw d)

/-- The return: nothing is restored, because nothing was saved (R201). -/
def Inst.leaveHandler (x : Inst) : Inst := x

/-! ## The frames of the three kinds of operation -/

/-- The instance `k` after an operation of its own; no other instance changes (R47). -/
def State.setInst (s : State) (k : Nat) (x : Inst) : State := { s with insts := s.insts.set k x }

/-- A refusal at the command port: the answer, and nothing else (R74, R196). -/
def State.refuse (s : State) (why : RefuseReason) : State := { s with reply := .refused why }

/-- The Foreground stays in a command: waiting (R101), or stuck at a faulted instance (R195). -/
def State.hold (s : State) (i : Instr) : State := { s with fg := .held i, reply := .noReply }

/-- The end of a command that has run: its answer, and the Foreground free; or, where it raised a fault, no answer, and the
Foreground still in it, since the instance has no further step (R195; DEDUCED, log 9). -/
def State.complete (s : State) (i : Instr) (k : Nat) (x : Inst) (r : Reply) : State :=
  { s with
    insts := s.insts.set k x
    fg := match x.fault with
      | none => .idle
      | some _ => .held i
    reply := match x.fault with
      | none => r
      | some _ => .noReply }

/-- A command in the order of R113: refusal at the port, a faulted instance, then the command's own checks. -/
def command (i : Instr) (k : Nat) (refusal : Inst → Option RefuseReason) (body : Inst → State) (s : State) :
    Host.Outcome State Fault Refusal :=
  match s.fg with
  | .held _ => .fault .foregroundHeld
  | .accepting _ _ => .fault .foregroundHeld
  | .idle =>
    match s.insts[k]? with
    | none => .next (s.refuse .noSuchInstance)
    | some x =>
      match refusal x with
      | some why => .next (s.refuse why)
      | none =>
        match x.fault with
        | some _ => .next (s.hold i)
        | none => .next (body x)

/-- The event port's answer. -/
def State.answerEvt (s : State) (r : EvtReply) : State := { s with evtReply := r }

/-- An event at instance `k` (R181): where delivery is enabled, the delivery's writes and the Dispatcher's row on the masked
status, as one atomic step; else the port refuses it and nothing changes (R183; DEDUCED, log 11). -/
def event (p : Params) (k : Nat) (raw : Byte) (d : Option Byte) (row : Params → Byte → Inst → Inst) (s : State) :
    Host.Outcome State Fault Refusal :=
  match s.insts[k]? with
  | none => .fault (.noSuchInstance k)
  | some x =>
    if x.deliveryEnabled then
      .next ((s.setInst k ((x.enterHandler raw d).readStatus p (fun v => row p v (x.enterHandler raw d))).leaveHandler).answerEvt
        .delivered)
    else .next (s.answerEvt (.refused .notEnabled))

/-- What a hardware operation returns, where it returns a byte and did not fault. -/
def HwReply.of (x : Inst) (v : Byte) : HwReply :=
  match x.fault with
  | none => .byte v
  | some _ => .noReply

/-- A hardware operation run as an instruction of its own at instance `k` (R170): it acts on the instance, and answers a byte
or nothing. A faulted instance has no step (R195). -/
def hwop (k : Nat) (f : Inst → Inst) (answer : Inst → HwReply) (s : State) : Host.Outcome State Fault Refusal :=
  match s.insts[k]? with
  | none => .fault (.noSuchInstance k)
  | some x =>
    match x.fault with
    | some _ => .fault (.instanceFaulted k)
    | none => .next { s.setInst k (f x) with hwReply := answer (f x) }

/-! ## The ports -/

/-- The first message that can be taken now: a command only while the Foreground is free (R115), an event, a redispatch or a
turn at any time (R198). The order among the rest is kept. -/
def takeMsg (fgIdle : Bool) : List Msg → Option (Msg × List Msg)
  | [] => none
  | m :: ms =>
    if fgIdle || !m.isCmd then some (m, ms)
    else
      match takeMsg fgIdle ms with
      | none => none
      | some (m', rest) => some (m', m :: rest)

/-- With nothing to take, the environment may let a message arrive: a free draw (R63, R181, R185; log 7). -/
def State.arrive (s : State) : State :=
  { s with inbox := s.inbox ++ (Config.environment s.draws).toList, draws := s.draws + 1 }

/-- A message put first at the ports, the Foreground free to take it. -/
def State.post (s : State) (m : Msg) : State := { s with fg := .idle, inbox := m :: s.inbox }

/-- An instance whose peripheral may deliver (R181). -/
def Inst.openPort (x : Inst) : Inst :=
  { x with fault := none, hw := { x.hw with en := true, ie := true, busy := true } }

/-- Instance 0's peripheral may deliver. -/
def State.openPort0 (s : State) : State :=
  match s.insts with
  | [] => s
  | x :: xs => { s with insts := x.openPort :: xs }

end Sys2Proof.Machine
end

