-- ==== Sys2Proof/Machine/Dispatcher.lean ====
section
/-! DEFINITION. The Dispatcher's shared actions (R131-R135), its rows (R136-R149), the dispatch by class (R130), and the
redispatch step (R182). Registers are read in the order the pseudocode names them, left to right (DEDUCED, log 14). -/

namespace Sys2Proof.Machine

/-! ## Shared actions -/

/-- `finish()` (R132). -/
def finish (p : Params) (x : Inst) : Inst :=
  x.repStart.read .repStart x (fun rs =>
    if rs then (x.setLastStatus p.success).issueStart
    else ((x.setMode .ready).setLastStatus p.success).issueStop)

/-- The first branch of `load_or_finish()` once the byte is read (R131). -/
def loadByte (p : Params) (cur v : Byte) (x : Inst) : Inst :=
  (x.writeData v).andThen (fun y => ((y.setTxCur (cur + 1)).setLastStatus p.noInfo).continueTx)

/-- `load_or_finish()` (R131). -/
def loadOrFinish (p : Params) (x : Inst) : Inst :=
  x.txCur.read .txCur x (fun cur =>
    x.txLen.read .txLen x (fun len =>
      if cur.toNat < len.toNat then
        Memory.load x.txBuf p.txCap cur.toNat (.txBuf cur.toNat) x (fun v => loadByte p cur v x)
      else finish p x))

/-- `ack_decision()` (R133): the status is written first, and then the lengths are read. -/
def ackDecision (p : Params) (x : Inst) : Inst :=
  x.rxLen.read .rxLen (x.setLastStatus p.noInfo) (fun len =>
    x.rxCur.read .rxCur (x.setLastStatus p.noInfo) (fun cur =>
      if 1 < remaining len cur then (x.setLastStatus p.noInfo).ackNext
      else (x.setLastStatus p.noInfo).nackNext))

/-- `store()` (R134); RX_OVERRUN records the cursor, the length and the masked status (R194). -/
def store (p : Params) (st : Byte) (x : Inst) : Inst :=
  x.rxCur.read .rxCur x (fun cur =>
    x.rxLen.read .rxLen x (fun len =>
      if len.toNat ≤ cur.toNat then x.raise (.rxOverrun cur len st)
      else x.readData (fun v =>
        (x.storeRx p.rxCap cur.toNat v).andThen (fun y => y.setRxCur (cur + 1)))))

/-- `error_chain(s)` (R135). -/
def errorChain (st : Byte) (x : Inst) : Inst :=
  x.repStart.read .repStart (x.setLastStatus st) (fun rs =>
    if rs then (x.setLastStatus st).issueStart
    else ((x.setLastStatus st).setMode .ready).issueStop)

/-! ## The rows: `st` is the masked status -/

/-- START_SENT (R136). -/
def rowStartSent (p : Params) (_st : Byte) (x : Inst) : Inst := loadOrFinish p x

/-- REP_START_SENT (R137): `pend` stays set, nothing is issued. -/
def rowRepStartSent (_p : Params) (_st : Byte) (x : Inst) : Inst := x.setMode .repeatedStartSent

/-- MT_SLAW_ACK (R138). -/
def rowMtSlawAck (p : Params) (_st : Byte) (x : Inst) : Inst := loadOrFinish p (x.setMode .masterTransmitter)

/-- MT_SLAW_NACK (R139). -/
def rowMtSlawNack (_p : Params) (st : Byte) (x : Inst) : Inst := errorChain st x

/-- MT_DATA_ACK (R140). -/
def rowMtDataAck (p : Params) (_st : Byte) (x : Inst) : Inst := loadOrFinish p x

/-- MT_DATA_NACK (R141). -/
def rowMtDataNack (_p : Params) (st : Byte) (x : Inst) : Inst := errorChain st x

/-- ARB_LOST (R142). -/
def rowArbLost (_p : Params) (st : Byte) (x : Inst) : Inst := errorChain st x

/-- MR_SLAR_ACK (R143). -/
def rowMrSlarAck (p : Params) (_st : Byte) (x : Inst) : Inst := ackDecision p (x.setMode .masterReceiver)

/-- MR_SLAR_NACK (R144). -/
def rowMrSlarNack (_p : Params) (st : Byte) (x : Inst) : Inst := errorChain st x

/-- MR_DATA_ACK (R145): when the store faults, no ACK decision is made. -/
def rowMrDataAck (p : Params) (st : Byte) (x : Inst) : Inst := (store p st x).andThen (ackDecision p)

/-- MR_DATA_NACK (R146). -/
def rowMrDataNack (p : Params) (st : Byte) (x : Inst) : Inst := (store p st x).andThen (finish p)

/-- ILLEGAL_START_STOP (R147): REP_START is not consulted. -/
def rowIllegalStartStop (_p : Params) (st : Byte) (x : Inst) : Inst :=
  ((x.setLastStatus st).setMode .ready).issueStop

/-- NO_INFO_CLASS (R148): nothing. -/
def rowNoInfo (_p : Params) (_st : Byte) (x : Inst) : Inst := x

/-- UNHANDLED (R149). -/
def rowUnhandled (_p : Params) (st : Byte) (x : Inst) : Inst := x.raise (.unhandledStatus st)

/-! ## Dispatch -/

/-- The row a class selects (R130): exhaustive, no fallthrough. -/
def rowOf : StatusClass → Params → Byte → Inst → Inst
  | .startSent => rowStartSent
  | .repStartSent => rowRepStartSent
  | .mtSlawAck => rowMtSlawAck
  | .mtSlawNack => rowMtSlawNack
  | .mtDataAck => rowMtDataAck
  | .mtDataNack => rowMtDataNack
  | .arbLost => rowArbLost
  | .mrSlarAck => rowMrSlarAck
  | .mrSlarNack => rowMrSlarNack
  | .mrDataAck => rowMrDataAck
  | .mrDataNack => rowMrDataNack
  | .illegalStartStop => rowIllegalStartStop
  | .noInfoClass => rowNoInfo
  | .unhandled => rowUnhandled

/-- The Dispatcher on the status that stands in `HW.status` (R130). -/
def dispatch (p : Params) (x : Inst) : Inst :=
  (x.readStatus p (fun st => rowOf (classify p.codes st) p st x)).leaveHandler

/-- The redispatch step of instance `k` (R182): the Dispatcher again, on the unchanged status, where the step exists and is
enabled; else the port refuses it. -/
def State.redispatch (s : State) (k : Nat) : State :=
  match s.insts[k]? with
  | none => s.answerEvt (.refused .noSuchInstance)
  | some x =>
    if x.redispatchEnabled s.params then (s.setInst k (dispatch s.params x)).answerEvt .delivered
    else s.answerEvt (.refused .notEnabled)

end Sys2Proof.Machine
end

