-- ==== Sys2Proof/Machine/Commands.lean ====
section
/-! DEFINITION. The foreground commands (40_api.md): the checks of R113, the wait (R101), the acceptance (R103, R106, R112) as
one step or step by step, and the Foreground's turns. -/

namespace Sys2Proof.Machine

/-! ## The steps of an acceptance -/

/-- What a step does to the instance. The wait and the test of `MODE` write nothing. -/
def AcceptStep.apply (p : Params) : AcceptStep → Inst → Inst
  | .rxStart count, x => (x.setRxCur 0).setRxLen count
  | .wait, x => x
  | .repStart rs, x => x.setRepStart rs
  | .copy i v, x => x.storeTx p.txCap i v
  | .txStart len, x => (x.setTxCur 0).setTxLen len
  | .path _, x => x
  | .notEmpty len, x => if len = 0#8 then x.raise .txEmptyAfterRs else x
  | .modeInitializing, x => x.setMode .initializing
  | .loadFirst, x => Memory.load x.txBuf p.txCap 0 (.txBuf 0) x (fun v => x.writeData v)
  | .firstSent, x => x.setTxCur 1
  | .continueTx, x => x.continueTx
  | .issueStart, x => x.issueStart

/-- T4: `MemWrite(TX_BUF, i, 1, data[i])` in increasing order (R53, R103). -/
def copySteps : Nat → List Byte → List AcceptStep
  | _, [] => []
  | i, v :: vs => .copy i v :: copySteps (i + 1) vs

/-- T3 to T5 (R103). -/
def acceptSteps (rs : Bool) (len : Byte) (data : List Byte) : List AcceptStep :=
  .repStart rs :: (copySteps 0 data ++ [.txStart len])

/-- T6 after its test of `MODE` (R103): the repeated-start path or the Ready path. -/
def launchSteps (len : Byte) (x : Inst) : List AcceptStep :=
  if x.mode.val = .repeatedStartSent then [.notEmpty len, .modeInitializing, .loadFirst, .firstSent, .continueTx]
  else [.modeInitializing, .issueStart]

/-- T3 to T6, the path still to be chosen (R103). -/
def transmitSteps (rs : Bool) (len : Byte) (data : List Byte) : List AcceptStep := acceptSteps rs len data ++ [.path len]

/-- Q3 to Q5 (R106). The inner TRANSMIT's T0 and T1 find what they ask ("returns OK since 1 <= TX_CAP"; DEDUCED, log 16); its
wait is a step. -/
def readSteps (rs : Bool) (addr count : Byte) : List AcceptStep :=
  .rxStart count :: .wait :: transmitSteps rs 1 [readFrame addr]

/-- The steps that remain after a step: the test of `MODE` chooses the path of T6. -/
def AcceptStep.after (x : Inst) : AcceptStep → List AcceptStep → List AcceptStep
  | .path len, todo => launchSteps len x ++ todo
  | _, todo => todo

/-! ## The acceptance as one step, which R112 allows with `REDISPATCH = false` -/

/-- Steps in their written order; a fault ends them (R195). -/
def runSteps (p : Params) : List AcceptStep → Inst → Inst
  | [], x => x
  | a :: as, x => (a.apply p x).andThen (runSteps p as)

/-- T3 to T6, from a state in which READY holds (R103, R112). -/
def acceptTransmit (p : Params) (rs : Bool) (len : Byte) (data : List Byte) (x : Inst) : Inst :=
  (runSteps p (acceptSteps rs len data) x).andThen (fun y => runSteps p (launchSteps len y) y)

/-- Q3 to Q5, from a state in which READY holds: "the wait inside TRANSMIT is already satisfied" (R106, R112). -/
def acceptRead (p : Params) (rs : Bool) (addr count : Byte) (x : Inst) : Inst :=
  (runSteps p [.rxStart count] x).andThen (acceptTransmit p rs 1 [readFrame addr])

/-! ## Entering the acceptance, past the wait (R112) -/

/-- With `REDISPATCH = false` the whole acceptance and the return; with `REDISPATCH = true` its steps are left to the
Foreground's turns, so that any step of another agent may come between (R112, R198). -/
def State.accept (s : State) (i : Instr) (k : Nat) (f : ApiFn) (todo : List AcceptStep) (whole : Inst) : State :=
  if s.params.redispatch then { s with fg := .accepting i todo, reply := .noReply }
  else s.complete i k whole (.api f .ok)

def State.acceptTransmit (s : State) (k : InstField) (rs : Bool) (len : Byte) (data : List Byte) (x : Inst) : State :=
  s.accept (.transmit k rs len data) k.toNat .transmit (transmitSteps rs len data)
    (Sys2Proof.Machine.acceptTransmit s.params rs len data x)

def State.acceptRead (s : State) (k : InstField) (rs : Bool) (addr count : Byte) (x : Inst) : State :=
  s.accept (.read k rs addr count) k.toNat .read (readSteps rs addr count)
    (Sys2Proof.Machine.acceptRead s.params rs addr count x)

/-! ## The commands -/

/-- R100's body. -/
def initialise (p : Params) (x : Inst) : Inst :=
  ((((x.setMode .ready).setLastStatus p.initStatus).setRepStart false).setDivisor p.clockDivisor).enable.setInitd

/-- "`INITD and (MODE != Ready or HW.busy or HW.pend)`" faults; else R100's body. INITD is tested first, so MODE is read only
after an earlier INIT. -/
def initInst (p : Params) (x : Inst) : Inst :=
  if x.initd then
    x.mode.read .mode x (fun m =>
      if m ≠ .ready ∨ x.hw.busy ∨ x.hw.pend then x.raise (.initWhileBusy m) else initialise p x)
  else initialise p x

/-- INIT (R100). -/
def execInit (k : InstField) (s : State) : Host.Outcome State Fault Refusal :=
  command (.init k) k.toNat (fun _ => none) (fun x => s.complete (.init k) k.toNat (initInst s.params x) .done) s

/-- IS_READY (R102). The tests, the one read of `MODE` and the return are one step: DESIGN CHOICE, log 33 (R112 speaks of
TRANSMIT and READ only). -/
def execIsReady (k : InstField) (s : State) : Host.Outcome State Fault Refusal :=
  command (.isReady k) k.toNat (fun _ => none)
    (fun x =>
      s.complete (.isReady k) k.toNat
        (if x.initd then x.mode.read .mode x (fun _ => x) else x.raise (.notInitialised .isReady)) (.ready x.ready)) s

/-- TRANSMIT (R103): T0, T1, the wait at T2, and the acceptance. -/
def execTransmit (k : InstField) (rs : Bool) (len : Byte) (data : List Byte) (s : State) :
    Host.Outcome State Fault Refusal :=
  command (.transmit k rs len data) k.toNat (fun _ => if data.length = len.toNat then none else some .payloadCount)
    (fun x =>
      if x.initd then
        if s.params.txCap < len.toNat then
          s.complete (.transmit k rs len data) k.toNat x (.api .transmit .overflow)
        else if x.mode.written then
          if x.ready then s.acceptTransmit k rs len data x
          else s.hold (.transmit k rs len data)
        else s.complete (.transmit k rs len data) k.toNat (x.raise (.unwrittenRead .mode)) .noReply
      else s.complete (.transmit k rs len data) k.toNat (x.raise (.notInitialised .transmit)) .noReply) s

/-- READ (R106): Q0, Q1, the wait at Q2, and the acceptance. -/
def execRead (k : InstField) (rs : Bool) (addr count : Byte) (s : State) : Host.Outcome State Fault Refusal :=
  command (.read k rs addr count) k.toNat (fun _ => none)
    (fun x =>
      if x.initd then
        if s.params.rxCap ≤ count.toNat then
          s.complete (.read k rs addr count) k.toNat x (.api .read .overflow)
        else if x.mode.written then
          if x.ready then s.acceptRead k rs addr count x
          else s.hold (.read k rs addr count)
        else s.complete (.read k rs addr count) k.toNat (x.raise (.unwrittenRead .mode)) .noReply
      else s.complete (.read k rs addr count) k.toNat (x.raise (.notInitialised .read)) .noReply) s

/-- GET_STATUS (R109). The test of INITD, the read of `LAST_STATUS` and the return are one step: DESIGN CHOICE, log 33. -/
def execGetStatus (k : InstField) (s : State) : Host.Outcome State Fault Refusal :=
  command (.getStatus k) k.toNat (fun _ => none)
    (fun x =>
      s.complete (.getStatus k) k.toNat
        (if x.initd then x.lastStatus.read .lastStatus x (fun _ => x) else x.raise (.notInitialised .getStatus))
        (.byte x.lastStatus.val)) s

/-- The byte GET_RX_BYTE answers where the element is written (R55). -/
def rxByte (x : Inst) (index : Byte) : Byte :=
  match Memory.read x.rxBuf index.toNat with
  | some v => v
  | none => 0#8

/-- GET_RX_BYTE (R110): an index at or past RX_CAP is refused (R74.8); an unwritten element faults. `rxByte` answers only
where the element is written, since a fault answers nothing. The tests, the read of the element and the return are one step:
DESIGN CHOICE, log 33. -/
def execGetRxByte (k : InstField) (index : Byte) (s : State) : Host.Outcome State Fault Refusal :=
  command (.getRxByte k index) k.toNat
    (fun _ => if index.toNat < s.params.rxCap then none else some .indexPastRxCap)
    (fun x =>
      s.complete (.getRxByte k index) k.toNat
        (if x.initd then Memory.load x.rxBuf s.params.rxCap index.toNat (.rxBuf index.toNat) x (fun _ => x)
         else x.raise (.notInitialised .getRxByte))
        (.byte (rxByte x index))) s

/-- A word of the reserved selector 110: refused, no state change, no result (R74.1). -/
def execReservedOp6 (_rest : BitVec 21) (s : State) : Host.Outcome State Fault Refusal :=
  match s.fg with
  | .held _ => .fault .foregroundHeld
  | .accepting _ _ => .fault .foregroundHeld
  | .idle => .next (s.refuse .reservedSelector)

/-- A word of the reserved selector 111: refused, no state change, no result (R74.1). -/
def execReservedOp7 (_rest : BitVec 21) (s : State) : Host.Outcome State Fault Refusal :=
  match s.fg with
  | .held _ => .fault .foregroundHeld
  | .accepting _ _ => .fault .foregroundHeld
  | .idle => .next (s.refuse .reservedSelector)

/-! ## The Foreground's steps inside a command -/

/-- A held command goes on at its acceptance (R101, R103 step T3, R106 step Q3). Only asked when READY holds. -/
def State.resume (s : State) (i : Instr) (x : Inst) : State :=
  match i with
  | .transmit k rs len data => s.acceptTransmit k rs len data x
  | .read k rs addr count => s.acceptRead k rs addr count x
  | _ => s

/-- One step of an acceptance (R112). A fault leaves the Foreground in its command (R195; DEDUCED, log 9). -/
def State.acceptStep (s : State) (i : Instr) (k : Nat) (a : AcceptStep) (todo : List AcceptStep) (x : Inst) : State :=
  { s.setInst k (a.apply s.params x) with
    fg := match (a.apply s.params x).fault with
      | none => .accepting i (a.after x todo)
      | some _ => .held i }

/-- T7 and Q6: the command returns OK (R103, R106). -/
def State.returnOk (s : State) (f : ApiFn) : State := { s with fg := .idle, reply := .api f .ok }

/-- The Foreground's next step in the command it is in, where it is enabled. -/
def State.advance (s : State) (i : Instr) (k : Nat) (f : ApiFn) (x : Inst) : State :=
  match s.fg with
  | .idle => s
  | .held _ => s.resume i x
  | .accepting _ [] => s.returnOk f
  | .accepting _ (a :: todo) => s.acceptStep i k a todo x

/-- A turn of the Foreground: its next step inside a command if it has one (R101, R112, R195), else nothing. -/
def State.turn (s : State) : State :=
  if s.foregroundEnabled then
    match s.fg.command with
    | none => s
    | some i =>
      match callOf i with
      | none => s
      | some (k, f) =>
        match s.insts[k]? with
        | none => s
        | some x => s.advance i k f x
  else s

/-- Turns of the Foreground, no other agent between them. -/
def State.turns : Nat → State → State
  | 0, s => s
  | n + 1, s => State.turns n s.turn

end Sys2Proof.Machine
end

