-- ==== Sys2Proof/Machine/Events.lean ====
section
/-! DEFINITION. The bus-status events: each is the delivery and the Dispatcher's row as one atomic step (R181, R130). -/

namespace Sys2Proof.Machine

/-- EVT ILLEGAL_START_STOP (R147). -/
def execEvtIllegalStartStop (k : Nat) (raw : Byte) (s : State) : Host.Outcome State Fault Refusal :=
  event s.params k raw none rowIllegalStartStop s

/-- EVT START_SENT (R136). -/
def execEvtStartSent (k : Nat) (raw : Byte) (s : State) : Host.Outcome State Fault Refusal :=
  event s.params k raw none rowStartSent s

/-- EVT REP_START_SENT (R137). -/
def execEvtRepStartSent (k : Nat) (raw : Byte) (s : State) : Host.Outcome State Fault Refusal :=
  event s.params k raw none rowRepStartSent s

/-- EVT MT_SLAW_ACK (R138). -/
def execEvtMtSlawAck (k : Nat) (raw : Byte) (s : State) : Host.Outcome State Fault Refusal :=
  event s.params k raw none rowMtSlawAck s

/-- EVT MT_SLAW_NACK (R139). -/
def execEvtMtSlawNack (k : Nat) (raw : Byte) (s : State) : Host.Outcome State Fault Refusal :=
  event s.params k raw none rowMtSlawNack s

/-- EVT MT_DATA_ACK (R140). -/
def execEvtMtDataAck (k : Nat) (raw : Byte) (s : State) : Host.Outcome State Fault Refusal :=
  event s.params k raw none rowMtDataAck s

/-- EVT MT_DATA_NACK (R141). -/
def execEvtMtDataNack (k : Nat) (raw : Byte) (s : State) : Host.Outcome State Fault Refusal :=
  event s.params k raw none rowMtDataNack s

/-- EVT ARB_LOST (R142). -/
def execEvtArbLost (k : Nat) (raw : Byte) (s : State) : Host.Outcome State Fault Refusal :=
  event s.params k raw none rowArbLost s

/-- EVT MR_SLAR_ACK (R143). -/
def execEvtMrSlarAck (k : Nat) (raw : Byte) (s : State) : Host.Outcome State Fault Refusal :=
  event s.params k raw none rowMrSlarAck s

/-- EVT MR_SLAR_NACK (R144). -/
def execEvtMrSlarNack (k : Nat) (raw : Byte) (s : State) : Host.Outcome State Fault Refusal :=
  event s.params k raw none rowMrSlarNack s

/-- EVT MR_DATA_ACK (R145), with the received byte (R184). -/
def execEvtMrDataAck (k : Nat) (raw d : Byte) (s : State) : Host.Outcome State Fault Refusal :=
  event s.params k raw (some d) rowMrDataAck s

/-- EVT MR_DATA_NACK (R146), with the received byte (R184). -/
def execEvtMrDataNack (k : Nat) (raw d : Byte) (s : State) : Host.Outcome State Fault Refusal :=
  event s.params k raw (some d) rowMrDataNack s

/-- EVT NO_INFO_CLASS (R148): the Peripheral cannot deliver it, so the event port refuses it (R181, 93 row 7), and the row
does nothing: no instance changes. -/
def execEvtNoInfoClass (k : Nat) (_raw : Byte) (s : State) : Host.Outcome State Fault Refusal :=
  match s.insts[k]? with
  | none => .fault (.noSuchInstance k)
  | some _ => .next (s.answerEvt (.refused .noInfoStatus))

/-- EVT UNHANDLED (R149). -/
def execEvtUnhandled (k : Nat) (raw : Byte) (s : State) : Host.Outcome State Fault Refusal :=
  event s.params k raw none rowUnhandled s

end Sys2Proof.Machine
end

