-- ==== Sys2Proof/Machine/HwOps.lean ====
section
/-! DEFINITION. The hardware-interface operations as instructions of their own at instance `k` (R170-R180). The commands and
the Dispatcher's rows issue the same operations on the instance inside their own steps. -/

namespace Sys2Proof.Machine

def noAnswer (_x : Inst) : HwReply := .noReply

/-- ISSUE_START (R171). -/
def execIssueStart (k : Nat) (s : State) : Host.Outcome State Fault Refusal := hwop k Inst.issueStart noAnswer s

/-- ISSUE_STOP (R172). -/
def execIssueStop (k : Nat) (s : State) : Host.Outcome State Fault Refusal := hwop k Inst.issueStop noAnswer s

/-- CONTINUE (R173). -/
def execContinueTx (k : Nat) (s : State) : Host.Outcome State Fault Refusal := hwop k Inst.continueTx noAnswer s

/-- ACK_NEXT (R174). -/
def execAckNext (k : Nat) (s : State) : Host.Outcome State Fault Refusal := hwop k Inst.ackNext noAnswer s

/-- NACK_NEXT (R175). -/
def execNackNext (k : Nat) (s : State) : Host.Outcome State Fault Refusal := hwop k Inst.nackNext noAnswer s

/-- WRITE_DATA v (R176). -/
def execWriteData (k : Nat) (v : Byte) (s : State) : Host.Outcome State Fault Refusal :=
  hwop k (Inst.writeData v) noAnswer s

/-- READ_DATA (R177): it writes nothing and returns `HW.data`. -/
def execReadData (k : Nat) (s : State) : Host.Outcome State Fault Refusal :=
  hwop k (fun x => x.readData (fun _ => x)) (fun x => HwReply.of x x.hw.data.val) s

/-- READ_STATUS (R178): it writes nothing and returns the masked status. -/
def execReadStatus (k : Nat) (s : State) : Host.Outcome State Fault Refusal :=
  hwop k (fun x => x.readStatus s.params (fun _ => x)) (fun x => HwReply.of x (x.hw.status.val &&& s.params.statusMask)) s

/-- SET_DIVISOR x (R179). -/
def execSetDivisor (k : Nat) (v : Byte) (s : State) : Host.Outcome State Fault Refusal :=
  hwop k (Inst.setDivisor v) noAnswer s

/-- ENABLE (R180). -/
def execEnable (k : Nat) (s : State) : Host.Outcome State Fault Refusal := hwop k Inst.enable noAnswer s

end Sys2Proof.Machine
end

