-- ==== Sys2Proof/Machine/Dispatch.lean ====
section
/-! DEFINITION. One arm per instruction. -/

namespace Sys2Proof.Machine

def exec (i : Instr) (s : State) : Host.Outcome State Fault Refusal :=
  match i with
  | .init k => Sys2Proof.Machine.execInit k s
  | .isReady k => Sys2Proof.Machine.execIsReady k s
  | .transmit k rs len data => Sys2Proof.Machine.execTransmit k rs len data s
  | .read k rs addr count => Sys2Proof.Machine.execRead k rs addr count s
  | .getStatus k => Sys2Proof.Machine.execGetStatus k s
  | .getRxByte k index => Sys2Proof.Machine.execGetRxByte k index s
  | .reservedOp6 rest => Sys2Proof.Machine.execReservedOp6 rest s
  | .reservedOp7 rest => Sys2Proof.Machine.execReservedOp7 rest s
  | .evtIllegalStartStop k raw => Sys2Proof.Machine.execEvtIllegalStartStop k raw s
  | .evtStartSent k raw => Sys2Proof.Machine.execEvtStartSent k raw s
  | .evtRepStartSent k raw => Sys2Proof.Machine.execEvtRepStartSent k raw s
  | .evtMtSlawAck k raw => Sys2Proof.Machine.execEvtMtSlawAck k raw s
  | .evtMtSlawNack k raw => Sys2Proof.Machine.execEvtMtSlawNack k raw s
  | .evtMtDataAck k raw => Sys2Proof.Machine.execEvtMtDataAck k raw s
  | .evtMtDataNack k raw => Sys2Proof.Machine.execEvtMtDataNack k raw s
  | .evtArbLost k raw => Sys2Proof.Machine.execEvtArbLost k raw s
  | .evtMrSlarAck k raw => Sys2Proof.Machine.execEvtMrSlarAck k raw s
  | .evtMrSlarNack k raw => Sys2Proof.Machine.execEvtMrSlarNack k raw s
  | .evtMrDataAck k raw d => Sys2Proof.Machine.execEvtMrDataAck k raw d s
  | .evtMrDataNack k raw d => Sys2Proof.Machine.execEvtMrDataNack k raw d s
  | .evtNoInfoClass k raw => Sys2Proof.Machine.execEvtNoInfoClass k raw s
  | .evtUnhandled k raw => Sys2Proof.Machine.execEvtUnhandled k raw s
  | .issueStart k => Sys2Proof.Machine.execIssueStart k s
  | .issueStop k => Sys2Proof.Machine.execIssueStop k s
  | .continueTx k => Sys2Proof.Machine.execContinueTx k s
  | .ackNext k => Sys2Proof.Machine.execAckNext k s
  | .nackNext k => Sys2Proof.Machine.execNackNext k s
  | .writeData k v => Sys2Proof.Machine.execWriteData k v s
  | .readData k => Sys2Proof.Machine.execReadData k s
  | .readStatus k => Sys2Proof.Machine.execReadStatus k s
  | .setDivisor k x => Sys2Proof.Machine.execSetDivisor k x s
  | .enable k => Sys2Proof.Machine.execEnable k s

end Sys2Proof.Machine
end

