-- ==== Sys2Proof/Machine/Step.lean ====
section
/-! DEFINITION. One step of the system: the first message that can be taken runs, be it a command, an event, a redispatch or a
turn of the Foreground, or the environment lets one arrive (R63, R101, R112, R115, R198). -/

namespace Sys2Proof.Machine

/-- Run a message: what it spells is executed; what spells nothing is refused by its port (R74). -/
def runMsg (m : Msg) (s : State) : Host.Outcome State Fault Refusal :=
  match m with
  | .cmd w payload =>
    match decodeCmd s.params w payload with
    | .error why => .next (s.refuse why)
    | .ok i => exec i s
  | .evt k raw d =>
    match decodeEvt s.params k raw d with
    | .error why => .next (s.answerEvt (.refused why))
    | .ok i => exec i s
  | .redispatch k => .next (s.redispatch k)
  | .turn => .next s.turn

/-- One step: the first message that can be taken, or the environment's next draw (log 7). -/
def step (s : State) : Host.Outcome State Fault Refusal :=
  match takeMsg s.fg.isIdle s.inbox with
  | some (m, rest) => runMsg m { s with inbox := rest }
  | none => .next s.arrive

/-- Steps, stopping at the first fault or refusal. -/
def steps : Nat → State → Host.Outcome State Fault Refusal
  | 0, s => .next s
  | n + 1, s =>
    match step s with
    | .next t => steps n t
    | .fault r => .fault r
    | .refused r => .refused r

/-- `s` with an opcode-table word first at its port, so that the next step runs it: the Foreground free for a command, instance
0's peripheral able to deliver for an event (log 8). -/
def State.withFetchWord (s : State) (nbits w : Nat) : State :=
  match tableMsg nbits w with
  | none => s
  | some m => if nbits = 8 then (s.post m).openPort0 else s.post m

end Sys2Proof.Machine
end

