-- ==== Sys2Proof/Safety.lean ====
section
/-! DEFINITION. What a safe state is: the reachable-state invariants of R45 with the buffer invariant of R33, in the terms the
statements use; and the informative legality of a bus (R185). -/

namespace Sys2Proof.Machine

/-! ## The invariants of one instance -/

/-- A register that must lie under a bound once written; buffers' elements below the cursor or length are written (R33). -/
abbrev Inst.TxOk (p : Params) (x : Inst) : Prop :=
  x.txLen.written = x.txCur.written ∧
  (x.txLen.written = true →
    x.txCur.val.toNat ≤ x.txLen.val.toNat ∧ x.txLen.val.toNat ≤ p.txCap ∧
    ∀ i < x.txLen.val.toNat, (Memory.read x.txBuf i).isSome = true)

/-- The receive side of R33, with R31's bound `RX_LEN <= RX_CAP - 1`; every byte below the cursor has been stored (R134). -/
abbrev Inst.RxOk (p : Params) (x : Inst) : Prop :=
  x.rxLen.written = x.rxCur.written ∧
  (x.rxLen.written = true →
    x.rxCur.val.toNat ≤ x.rxLen.val.toNat ∧ x.rxLen.val.toNat < p.rxCap ∧
    ∀ i < x.rxCur.val.toNat, (Memory.read x.rxBuf i).isSome = true)

/-- Invariants 1, 2, 3 and 5 of R45: what `HW.busy` and `HW.pend` are in each mode, and no other mode is reached. -/
abbrev Inst.ModeOk (x : Inst) : Prop :=
  (x.mode.val = .ready ∧ x.hw.busy = false ∧ x.hw.pend = false) ∨
  (x.mode.val = .repeatedStartSent ∧ x.hw.busy = false ∧ x.hw.pend = true ∧ x.txLen.written = true) ∨
  ((x.mode.val = .initializing ∨ x.mode.val = .masterTransmitter ∨ x.mode.val = .masterReceiver) ∧
    x.hw.busy = true ∧ x.hw.pend = false ∧ x.txLen.written = true)

/-- What holds of an instance that INIT has set up and that has not faulted (R45, R46). -/
abbrev Inst.Live (p : Params) (x : Inst) : Prop :=
  x.mode.written = true ∧ x.lastStatus.written = true ∧ x.repStart.written = true ∧
  x.hw.en = true ∧ x.hw.ie = true ∧ x.ModeOk ∧ x.TxOk p ∧ x.RxOk p

/-- What holds of an instance before its first INIT that has not faulted (R46, R220). -/
abbrev Inst.Asleep (x : Inst) : Prop :=
  x.hw.en = false ∧ x.hw.ie = false ∧ x.hw.busy = false ∧ x.hw.pend = false ∧
  x.txLen.written = false ∧ x.txCur.written = false ∧ x.rxLen.written = false ∧ x.rxCur.written = false

/-- The buffers are in canonical form and inside their capacities (R51). -/
abbrev Inst.BuffersOk (p : Params) (x : Inst) : Prop :=
  Memory.wf x.txBuf = true ∧ Memory.wf x.rxBuf = true ∧
  Memory.below p.txCap x.txBuf = true ∧ Memory.below p.rxCap x.rxBuf = true

/-- The invariant of an instance: of a faulted one only its buffers are claimed (R33, R45: "every non-faulted state"). -/
abbrev Inst.Inv (p : Params) (x : Inst) : Prop :=
  x.BuffersOk p ∧
  (x.fault.isSome = true ∨ (x.initd = true ∧ x.Live p) ∨ (x.initd = false ∧ x.Asleep))

/-- R33, "`0 ≤ cursor ≤ length ≤ capacity`", of the lengths that are written, with R31's bound on RX_LEN. It holds of a faulted
instance too. -/
abbrev Inst.CursorsOk (p : Params) (x : Inst) : Prop :=
  (x.txLen.written = true →
    x.txCur.written = true ∧ x.txCur.val.toNat ≤ x.txLen.val.toNat ∧ x.txLen.val.toNat ≤ p.txCap) ∧
  (x.rxLen.written = true →
    x.rxCur.written = true ∧ x.rxCur.val.toNat ≤ x.rxLen.val.toNat ∧ x.rxLen.val.toNat < p.rxCap)

/-! ## The invariant of the system -/

/-- The steps that remain of an acceptance keep R33 where TX_LEN is `n`: a length they write is within its capacity, and
`TX_CUR <- 1` comes where TX_LEN is not 0. -/
def acceptSafe (p : Params) : Byte → List AcceptStep → Bool
  | _, [] => true
  | n, .rxStart count :: todo => decide (count.toNat < p.rxCap) && acceptSafe p n todo
  | n, .wait :: todo => acceptSafe p n todo
  | n, .repStart _ :: todo => acceptSafe p n todo
  | n, .copy _ _ :: todo => acceptSafe p n todo
  | _, .txStart len :: todo => decide (len.toNat ≤ p.txCap) && acceptSafe p len todo
  | n, .path len :: todo => decide (n = len) && acceptSafe p n todo
  | n, .notEmpty len :: todo => decide (n = len) && (decide (len = 0#8) || acceptSafe p n todo)
  | n, .modeInitializing :: todo => acceptSafe p n todo
  | n, .loadFirst :: todo => acceptSafe p n todo
  | n, .firstSent :: todo => decide (1 ≤ n.toNat) && acceptSafe p n todo
  | n, .continueTx :: todo => acceptSafe p n todo
  | n, .issueStart :: todo => acceptSafe p n todo

/-- A command held at its wait has passed the checks before it (R103 steps T0 and T1, R106 steps Q0 and Q1); an acceptance is
under way with `REDISPATCH = true` only, since with false it is one step (R112), and what remains of it keeps R33. -/
def State.heldOk (s : State) : Bool :=
  match s.fg with
  | .held (.transmit k _ len data) =>
    match s.insts[k.toNat]? with
    | none => true
    | some x =>
      x.fault.isSome || (x.initd && decide (data.length = len.toNat) && decide (len.toNat ≤ s.params.txCap))
  | .held (.read k _ _ count) =>
    match s.insts[k.toNat]? with
    | none => true
    | some x => x.fault.isSome || (x.initd && decide (count.toNat < s.params.rxCap))
  | .held _ => true
  | .accepting i todo =>
    s.params.redispatch &&
      match callOf i with
      | none => true
      | some (k, _) =>
        match s.insts[k]? with
        | none => true
        | some x => x.fault.isSome || acceptSafe s.params x.txLen.val todo
  | .idle => true

/-- The invariant of R33 with either value of `REDISPATCH` ("in every state that has not faulted"): the cursors and lengths of
every instance, and what the Foreground's command may still write. -/
abbrev State.CursorInv (s : State) : Prop :=
  s.params.wf = true ∧ (∀ x ∈ s.insts, x.CursorsOk s.params) ∧ s.heldOk = true

/-- The invariant with `REDISPATCH = false` (R45): the parameters meet R7's and R8's constraints, there are N_INST instances,
each meets its invariant, and a held command has passed its checks. -/
abbrev State.Inv (s : State) : Prop :=
  s.params.wf = true ∧ s.params.redispatch = false ∧ s.insts.length = s.params.nInst ∧
  (∀ x ∈ s.insts, x.Inv s.params) ∧ s.heldOk = true

/-- Every buffer of every instance is in canonical form. -/
def State.memoriesWf (s : State) : Bool := s.insts.all (fun x => Memory.wf x.txBuf && Memory.wf x.rxBuf)

/-! ## Observations -/

/-- The bus-control operations that R151 counts. -/
def TraceOp.isControl : TraceOp → Bool
  | .start => true
  | .stop => true
  | .cont _ => true
  | .ackNext => true
  | .nackNext => true
  | .setDivisor _ => false
  | .enable => false

/-- The instance an instruction addresses; a word of a reserved selector addresses none. -/
def target : Instr → Option Nat
  | .init k => some k.toNat
  | .isReady k => some k.toNat
  | .transmit k _ _ _ => some k.toNat
  | .read k _ _ _ => some k.toNat
  | .getStatus k => some k.toNat
  | .getRxByte k _ => some k.toNat
  | .reservedOp6 _ => none
  | .reservedOp7 _ => none
  | .evtIllegalStartStop k _ => some k
  | .evtStartSent k _ => some k
  | .evtRepStartSent k _ => some k
  | .evtMtSlawAck k _ => some k
  | .evtMtSlawNack k _ => some k
  | .evtMtDataAck k _ => some k
  | .evtMtDataNack k _ => some k
  | .evtArbLost k _ => some k
  | .evtMrSlarAck k _ => some k
  | .evtMrSlarNack k _ => some k
  | .evtMrDataAck k _ _ => some k
  | .evtMrDataNack k _ _ => some k
  | .evtNoInfoClass k _ => some k
  | .evtUnhandled k _ => some k
  | .issueStart k => some k
  | .issueStop k => some k
  | .continueTx k => some k
  | .ackNext k => some k
  | .nackNext k => some k
  | .writeData k _ => some k
  | .readData k => some k
  | .readStatus k => some k
  | .setDivisor k _ => some k
  | .enable k => some k

/-! ## A consistent peripheral (R185, informative; PRESUMED by the spec from general knowledge, log 32) -/

/-- What the bus is doing after the last operation, as R185's table tells the cases apart. -/
inductive BusPhase where
  | idle
  | freeStart
  | heldStart
  | slaW
  | slaR
  | dataByte
  | acked
  | nacked
  deriving DecidableEq, Repr

/-- The phase after one more operation: a START while the bus is held is a repeated one; the byte after a START is the address
frame, whose bit 0 is the direction (R57). -/
def BusPhase.after (ph : BusPhase) : TraceOp → BusPhase
  | .start => if ph = .idle then .freeStart else .heldStart
  | .stop => .idle
  | .cont v =>
    if ph = .freeStart ∨ ph = .heldStart then (if v.getLsbD 0 then .slaR else .slaW) else .dataByte
  | .ackNext => .acked
  | .nackNext => .nacked
  | .setDivisor _ => ph
  | .enable => ph

/-- The phase a trace leaves. -/
def busPhase (t : List TraceOp) : BusPhase := t.foldl BusPhase.after .idle

/-- R185's legality table. -/
def BusPhase.legal : BusPhase → List StatusClass
  | .idle => []
  | .freeStart => [.startSent, .arbLost, .illegalStartStop]
  | .heldStart => [.repStartSent, .arbLost, .illegalStartStop]
  | .slaW => [.mtSlawAck, .mtSlawNack, .arbLost, .illegalStartStop]
  | .slaR => [.mrSlarAck, .mrSlarNack, .arbLost, .illegalStartStop]
  | .dataByte => [.mtDataAck, .mtDataNack, .arbLost, .illegalStartStop]
  | .acked => [.mrDataAck, .arbLost, .illegalStartStop]
  | .nacked => [.mrDataNack, .arbLost, .illegalStartStop]

/-- What the bus is doing for an instance. A START chained after a lost arbitration does not hold the bus: "a START is issued
after a lost arbitration with the bus free" (R230, 95_test_vectors.md P7 step 6). -/
def Inst.busPhase (p : Params) (x : Inst) : BusPhase :=
  if Sys2Proof.Machine.busPhase x.hw.trace = .heldStart ∧ classify p.codes (x.hw.status.val &&& p.statusMask) = .arbLost
  then .freeStart
  else Sys2Proof.Machine.busPhase x.hw.trace

/-- A consistent peripheral may report this class next to this instance; none while nothing is outstanding (R183). -/
def Inst.busLegal (p : Params) (x : Inst) (c : StatusClass) : Bool := x.hw.busy && (x.busPhase p).legal.contains c

end Sys2Proof.Machine
end

