-- ==== Sys2Proof/Certificates/Slice0/Obligations.lean ====
section
/-! DEFINITION. The statements for the provers. Each docstring names the rule of spec/ it formalises, or what of the model it
rests on. `x` is the addressed bus instance before, `y` after. -/

open Sys2Proof Sys2Proof.Machine

/-! ## Encoding -/

/-- O1. Command words and status bytes written out in 95_test_vectors.md (V-EN, V-ST) decode to what they stand for. -/
def Obligations.TableWordsDecode : Prop :=
  decodeTableWord 24 0x000000 = some (.init 0) ∧
  decodeTableWord 24 0x000001 = some (.isReady 0) ∧
  decodeCmd Params.default 0x000202 [0xA0, 0x10] = .ok (.transmit 0 false 2 [0xA0, 0x10]) ∧
  decodeCmd Params.default 0x00020A [0xA0, 0x05] = .ok (.transmit 0 true 2 [0xA0, 0x05]) ∧
  decodeTableWord 24 0x02500B = some (.read 0 true 0x50 2) ∧
  decodeTableWord 24 0x000004 = some (.getStatus 0) ∧
  decodeTableWord 24 0x000F05 = some (.getRxByte 0 15) ∧
  decodeTableWord 8 0x0B = some (.evtStartSent 0 0x0B) ∧
  decodeTableWord 8 0x5F = some (.evtMrDataNack 0 0x5F 0) ∧
  decodeTableWord 8 0x60 = some (.evtUnhandled 0 0x60)

/-- O2. Decoding what the encoder writes gives the instruction back, for every well-formed instruction that has an encoding,
every operand value and every admissible choice of the parameters (R70-R73, R78, R79). -/
def Obligations.DecodeInvertsEncode : Prop :=
  ∀ (p : Params) (i : Instr) (m : Msg), p.wf = true → i.wf p = true → encode i = some m → decode p m = .ok i

/-- O3. R74: each of its eight cases is refused, with nothing changed but the port's answer; and a word with none of them (and
no payload after a command that has none, R70) is the command its selector names. -/
def Obligations.RefusedWordsChangeNothing : Prop :=
  ∀ (s : State) (w : CmdWord) (payload : List Byte), s.fg = .idle →
    ((w.op = 6#3 ∨ w.op = 7#3 ∨ w.reserved = true ∨ (w.rs = true ∧ w.op ≠ 2#3 ∧ w.op ≠ 3#3) ∨
        (w.a ≠ 0#8 ∧ (w.op = 0#3 ∨ w.op = 1#3 ∨ w.op = 4#3)) ∨ (w.b ≠ 0#8 ∧ w.op ≠ 3#3) ∨
        s.params.nInst ≤ w.instField.toNat ∨ (w.op = 2#3 ∧ payload.length ≠ w.a.toNat) ∨
        (w.op = 5#3 ∧ s.params.rxCap ≤ w.a.toNat)) →
      ∃ why, runMsg (.cmd w payload) s = .next { s with reply := .refused why }) ∧
    (¬ (w.op = 6#3 ∨ w.op = 7#3 ∨ w.reserved = true ∨ (w.rs = true ∧ w.op ≠ 2#3 ∧ w.op ≠ 3#3) ∨
        (w.a ≠ 0#8 ∧ (w.op = 0#3 ∨ w.op = 1#3 ∨ w.op = 4#3)) ∨ (w.b ≠ 0#8 ∧ w.op ≠ 3#3) ∨
        s.params.nInst ≤ w.instField.toNat ∨ (w.op = 2#3 ∧ payload.length ≠ w.a.toNat) ∨
        (w.op = 5#3 ∧ s.params.rxCap ≤ w.a.toNat)) →
      (w.op ≠ 2#3 → payload = []) → runMsg (.cmd w payload) s = exec (w.command payload) s)

/-- O4. R79: an event is classified by its masked status alone, exactly; a status that is no code is UNHANDLED. -/
def Obligations.ClassificationIsExact : Prop :=
  ∀ (p : Params), p.wf = true →
    (∀ (c : StatusClass) (code : Byte), (c, code) ∈ p.codes.table → ∀ s : Byte, classify p.codes s = c ↔ s = code) ∧
    (∀ s : Byte, classify p.codes s = .unhandled ↔ ∀ e ∈ p.codes.table, e.2 ≠ s) ∧
    (∀ (k : Nat) (raw d : Byte), k < p.nInst →
      decodeEvt p k raw d = .ok ((classify p.codes (raw &&& p.statusMask)).event k raw d))

/-! ## Power-on -/

/-- O5. R220 and the power-on column of R46: every register and buffer element of every instance is unwritten, the four flags
are off, the trace is empty, INITD is off and FAULT is none. -/
def Obligations.PowerOnState : Prop :=
  ∀ (p : Params) (k : Nat), k < p.nInst →
    ∃ x, (State.powerOn p).insts[k]? = some x ∧
      x.mode.written = false ∧ x.lastStatus.written = false ∧ x.repStart.written = false ∧
      x.txLen.written = false ∧ x.txCur.written = false ∧ x.rxLen.written = false ∧ x.rxCur.written = false ∧
      (∀ j, Memory.read x.txBuf j = none ∧ Memory.read x.rxBuf j = none) ∧
      x.hw.div.written = false ∧ x.hw.status.written = false ∧ x.hw.data.written = false ∧
      x.hw.en = false ∧ x.hw.ie = false ∧ x.hw.pend = false ∧ x.hw.busy = false ∧
      x.hw.trace = [] ∧ x.initd = false ∧ x.fault = none

/-! ## Foreground commands -/

/-- O6. R100. An INIT at power-on, or after an earlier one in `Ready` with nothing outstanding, resets TransactionInfo and
enables the peripheral; it writes no buffer, length or cursor. After an earlier INIT in any other mode, or with `busy` or
`pend`, it faults INIT_WHILE_BUSY and writes nothing else. That the Foreground then stays in the command is the model's
reading (log 9). -/
def Obligations.InitResetsOrFaults : Prop :=
  ∀ (s : State) (k : InstField) (x : Inst), s.fg = .idle → s.insts[k.toNat]? = some x → x.fault = none →
    (x.initd = false ∨ (x.mode = Reg.of .ready ∧ x.hw.busy = false ∧ x.hw.pend = false) →
      exec (.init k) s = .next
        { s with
          insts := s.insts.set k.toNat
            { x with
              mode := Reg.of .ready
              lastStatus := Reg.of s.params.initStatus
              repStart := Reg.of false
              hw :=
                { x.hw with
                  div := Reg.of s.params.clockDivisor
                  en := true
                  ie := true
                  trace := x.hw.trace ++ [.setDivisor s.params.clockDivisor, .enable] }
              initd := true }
          reply := .done }) ∧
    (x.initd = true → x.mode.written = true → (x.mode.val ≠ .ready ∨ x.hw.busy = true ∨ x.hw.pend = true) →
      exec (.init k) s = .next
        { s with
          insts := s.insts.set k.toNat { x with fault := some (.initWhileBusy x.mode.val) }
          fg := .held (.init k)
          reply := .noReply })

/-- O7. R222: two INITs in succession leave the block as one does; only the trace holds a second pair. -/
def Obligations.InitTwiceIsInitOnce : Prop :=
  ∀ (s : State) (k : InstField) (x : Inst), s.fg = .idle → s.insts[k.toNat]? = some x → x.fault = none →
    (x.initd = false ∨ x.mode = Reg.of .ready) → x.hw.busy = false → x.hw.pend = false →
    ∃ t u y, exec (.init k) s = .next t ∧ exec (.init k) t = .next u ∧ t.insts[k.toNat]? = some y ∧
      y.hw.trace = x.hw.trace ++ [.setDivisor s.params.clockDivisor, .enable] ∧
      u.insts[k.toNat]? = some
        { y with
          hw := { y.hw with trace := y.hw.trace ++ [.setDivisor s.params.clockDivisor, .enable] } }

/-- O8. R102 and R43: IS_READY answers whether `MODE` is `Ready` or `RepeatedStartSent` and writes nothing. That it
does so in one step, with one read of `MODE`, is the model's choice (log 33). -/
def Obligations.IsReadyAnswers : Prop :=
  ∀ (s : State) (k : InstField) (x : Inst), s.fg = .idle → s.insts[k.toNat]? = some x → x.fault = none →
    x.initd = true → x.mode.written = true →
    exec (.isReady k) s = .next
      { s with reply := .ready (decide (x.mode.val = .ready ∨ x.mode.val = .repeatedStartSent)) }

/-- O9. R194 code 1 and R113: each command but INIT, before the first INIT, faults NOT_INITIALISED ahead of its other checks,
and writes nothing else. That the Foreground then stays in the command is the model's reading (log 9). -/
def Obligations.NotInitialisedFaults : Prop :=
  ∀ (s : State) (k : InstField) (x : Inst), s.fg = .idle → s.insts[k.toNat]? = some x → x.fault = none → x.initd = false →
    (∀ (i : Instr) (c : CmdName),
      ((i = .isReady k ∧ c = .isReady) ∨
        (∃ rs len data, i = .transmit k rs len data ∧ data.length = len.toNat ∧ c = .transmit) ∨
        (∃ rs addr count, i = .read k rs addr count ∧ c = .read) ∨
        (i = .getStatus k ∧ c = .getStatus) ∨
        (∃ index, i = .getRxByte k index ∧ index.toNat < s.params.rxCap ∧ c = .getRxByte)) →
      exec i s = .next
        { s with
          insts := s.insts.set k.toNat { x with fault := some (.notInitialised c) }
          fg := .held i
          reply := .noReply })

/-- O10. R103 on the Ready path: TRANSMIT accepts, copies its payload, issues START and returns OK. With `REDISPATCH = false`
that is one step; with `REDISPATCH = true` the command enters its acceptance, and turns of the Foreground, no other agent
between them, take its steps and its return (R112; the model's steps: logs 15, 16). -/
def Obligations.TransmitOnReadyPath : Prop :=
  ∀ (s : State) (k : InstField) (rs : Bool) (len : Byte) (data : List Byte) (x : Inst),
    s.fg = .idle → s.insts[k.toNat]? = some x → x.fault = none → x.initd = true → x.mode = Reg.of .ready →
    data.length = len.toNat → len.toNat ≤ s.params.txCap →
    let i : Instr := .transmit k rs len data
    let t : State :=
      { s with
        insts := s.insts.set k.toNat
          { x with
            mode := Reg.of .initializing
            repStart := Reg.of rs
            txBuf := Memory.writeFrom x.txBuf 0 data
            txCur := Reg.of 0
            txLen := Reg.of len
            hw := { x.hw with pend := false, busy := true, trace := x.hw.trace ++ [.start] } }
        reply := .api .transmit .ok }
    (s.params.redispatch = false → exec i s = .next t) ∧
    (s.params.redispatch = true →
      ∃ (todo : List AcceptStep) (n : Nat), exec i s = .next { s with fg := .accepting i todo, reply := .noReply } ∧
        State.turns n { s with fg := .accepting i todo, reply := .noReply } = t)

/-- O11. R103 on the repeated-start path: TRANSMIT sends its first byte itself, with CONTINUE, and counts it as sent. In one
step with `REDISPATCH = false`; with `REDISPATCH = true` in turns of the Foreground, no other agent between them (R112; the
model's steps: logs 15, 16). -/
def Obligations.TransmitOnRepeatedStartPath : Prop :=
  ∀ (s : State) (k : InstField) (rs : Bool) (len v : Byte) (vs : List Byte) (x : Inst),
    s.fg = .idle → s.insts[k.toNat]? = some x → x.fault = none → x.initd = true → x.mode = Reg.of .repeatedStartSent →
    x.hw.pend = true → (v :: vs).length = len.toNat → len.toNat ≤ s.params.txCap →
    let i : Instr := .transmit k rs len (v :: vs)
    let t : State :=
      { s with
        insts := s.insts.set k.toNat
          { x with
            mode := Reg.of .initializing
            repStart := Reg.of rs
            txBuf := Memory.writeFrom x.txBuf 0 (v :: vs)
            txCur := Reg.of 1
            txLen := Reg.of len
            hw :=
              { x.hw with
                data := Reg.of v
                pend := false
                busy := true
                trace := x.hw.trace ++ [.cont v] } }
        reply := .api .transmit .ok }
    (s.params.redispatch = false → exec i s = .next t) ∧
    (s.params.redispatch = true →
      ∃ (todo : List AcceptStep) (n : Nat), exec i s = .next { s with fg := .accepting i todo, reply := .noReply } ∧
        State.turns n { s with fg := .accepting i todo, reply := .noReply } = t)

/-- O12. R112, R182 and R233, with `REDISPATCH = true`: a TRANSMIT and then a READ on the repeated-start path, word and payload
at the port, with a redispatch of the held REP_START_SENT after `j` of the Foreground's turns, at any `j` before the CONTINUE.
The redispatch runs, and all it changes is `MODE`: after `MODE <- Initializing` it leaves `RepeatedStartSent`, so that READY
holds while the CONTINUE is outstanding; before, nothing. The command returns OK all the same. How many
steps an acceptance has is the model's reading of R112 (log 15), and the inbox its order of what happens (log 7). -/
def Obligations.RedispatchRaceIsAdmitted : Prop :=
  ∀ (s : State) (k : InstField) (rs : Bool) (x : Inst),
    s.params.wf = true → s.params.redispatch = true →
    s.fg = .idle → s.insts[k.toNat]? = some x → x.fault = none → x.initd = true → x.mode = Reg.of .repeatedStartSent →
    x.hw.en = true → x.hw.ie = true → x.hw.busy = false → x.hw.pend = true →
    x.hw.status.written = true → x.hw.status.val &&& s.params.statusMask = s.params.codes.repStartSent →
    (∀ (w : CmdWord) (len v : Byte) (vs : List Byte) (j : Nat),
      decode s.params (.cmd w (v :: vs)) = .ok (.transmit k rs len (v :: vs)) → (v :: vs).length = len.toNat →
      len.toNat ≤ s.params.txCap → j < len.toNat + 8 →
      steps (len.toNat + 11)
          { s with
            inbox := .cmd w (v :: vs) ::
              (List.replicate j .turn ++ .redispatch k.toNat :: List.replicate (len.toNat + 9 - j) .turn) } =
        .next
          { s with
            insts := s.insts.set k.toNat
              { x with
                mode := Reg.of (if j < len.toNat + 5 then .initializing else .repeatedStartSent)
                repStart := Reg.of rs
                txBuf := Memory.writeFrom x.txBuf 0 (v :: vs)
                txCur := Reg.of 1
                txLen := Reg.of len
                hw :=
                  { x.hw with
                    data := Reg.of v
                    pend := false
                    busy := true
                    trace := x.hw.trace ++ [.cont v] } }
            reply := .api .transmit .ok
            evtReply := .delivered
            inbox := [] }) ∧
    (∀ (w : CmdWord) (addr count : Byte) (j : Nat),
      decode s.params (.cmd w []) = .ok (.read k rs addr count) → count.toNat < s.params.rxCap → j < 11 →
      steps 14
          { s with
            inbox := .cmd w [] :: (List.replicate j .turn ++ .redispatch k.toNat :: List.replicate (12 - j) .turn) } =
        .next
          { s with
            insts := s.insts.set k.toNat
              { x with
                mode := Reg.of (if j < 8 then .initializing else .repeatedStartSent)
                repStart := Reg.of rs
                txBuf := Memory.write x.txBuf 0 (readFrame addr)
                txCur := Reg.of 1
                txLen := Reg.of 1
                rxLen := Reg.of count
                rxCur := Reg.of 0
                hw :=
                  { x.hw with
                    data := Reg.of (readFrame addr)
                    pend := false
                    busy := true
                    trace := x.hw.trace ++ [.cont (readFrame addr)] } }
            reply := .api .read .ok
            evtReply := .delivered
            inbox := [] })

/-- O13. R103's fault: a zero-length TRANSMIT on the repeated-start path faults TX_EMPTY_AFTER_RS, and what its steps T3 to
T5 wrote stays (R195). In one step with `REDISPATCH = false`; with `REDISPATCH = true` in turns of the Foreground, no other
agent between them (R112; the model's steps: logs 15, 16). That the Foreground then stays in the command is the model's
reading (log 9). -/
def Obligations.EmptyTransmitAfterRepeatedStartFaults : Prop :=
  ∀ (s : State) (k : InstField) (rs : Bool) (x : Inst),
    s.fg = .idle → s.insts[k.toNat]? = some x → x.fault = none → x.initd = true → x.mode = Reg.of .repeatedStartSent →
    let i : Instr := .transmit k rs 0 []
    let t : State :=
      { s with
        insts := s.insts.set k.toNat
          { x with
            repStart := Reg.of rs
            txCur := Reg.of 0
            txLen := Reg.of 0
            fault := some .txEmptyAfterRs }
        fg := .held i
        reply := .noReply }
    (s.params.redispatch = false → exec i s = .next t) ∧
    (s.params.redispatch = true →
      ∃ (todo : List AcceptStep) (n : Nat), exec i s = .next { s with fg := .accepting i todo, reply := .noReply } ∧
        State.turns n { s with fg := .accepting i todo, reply := .noReply } = t)

/-- O14. R114: an OVERFLOW leaves every register of every instance as it was, in whatever mode, and issues nothing. -/
def Obligations.OverflowLeavesEverything : Prop :=
  ∀ (s : State) (k : InstField) (rs : Bool) (x : Inst), s.fg = .idle → s.insts[k.toNat]? = some x → x.fault = none →
    x.initd = true →
    (∀ (len : Byte) (data : List Byte), data.length = len.toNat → s.params.txCap < len.toNat →
      exec (.transmit k rs len data) s = .next { s with reply := .api .transmit .overflow }) ∧
    (∀ (addr count : Byte), s.params.rxCap ≤ count.toNat →
      exec (.read k rs addr count) s = .next { s with reply := .api .read .overflow })

/-- O15. R101 and R103 step T2, R106 step Q2: while the instance is not READY, an accepted length or count holds the
Foreground in the command, and nothing is written. -/
def Obligations.NotReadyHoldsForeground : Prop :=
  ∀ (s : State) (k : InstField) (rs : Bool) (x : Inst), s.fg = .idle → s.insts[k.toNat]? = some x → x.fault = none →
    x.initd = true → x.mode.written = true → x.mode.val ≠ .ready → x.mode.val ≠ .repeatedStartSent →
    (∀ (len : Byte) (data : List Byte), data.length = len.toNat → len.toNat ≤ s.params.txCap →
      exec (.transmit k rs len data) s = .next { s with fg := .held (.transmit k rs len data), reply := .noReply }) ∧
    (∀ (addr count : Byte), count.toNat < s.params.rxCap →
      exec (.read k rs addr count) s = .next { s with fg := .held (.read k rs addr count), reply := .noReply })

/-- O16. R101: a held Foreground leaves its command only by a step from a state in which the command's own instance is READY
and not faulted. -/
def Obligations.HoldEndsOnlyWhenReady : Prop :=
  ∀ (s t : State) (i : Instr), s.fg = .held i → step s = .next t → t.fg ≠ .held i →
    ∃ k x, target i = some k ∧ s.insts[k]? = some x ∧ x.fault = none ∧
      (x.mode = Reg.of .ready ∨ x.mode = Reg.of .repeatedStartSent)

/-- O17. R101, "a spin-wait that re-reads `MODE` and a blocking wait are equivalent": when a turn of the Foreground comes first
and the wait of its held command is over, the command does what it would do if the free Foreground issued it now. That the
turn is a message which the inbox orders among the events, and that it tests `MODE` and enters the acceptance in one step, is
the model's choice (logs 7 and 17). -/
def Obligations.HeldCommandGoesOnAsIssuedNow : Prop :=
  ∀ (s : State) (i : Instr) (rest : List Msg), s.fg = .held i → s.inbox = .turn :: rest → s.foregroundEnabled = true →
    s.heldOk = true → step s = exec i { s with fg := .idle, inbox := rest }

/-- O18. R106 on the Ready path: READ sets the receive length and cursor, and transmits its one-byte frame. In one step with
`REDISPATCH = false`; with `REDISPATCH = true` in turns of the Foreground, no other agent between them (R112; the model's
steps: logs 15, 16). -/
def Obligations.ReadOnReadyPath : Prop :=
  ∀ (s : State) (k : InstField) (rs : Bool) (addr count : Byte) (x : Inst),
    s.fg = .idle → s.insts[k.toNat]? = some x → x.fault = none → x.initd = true → x.mode = Reg.of .ready →
    count.toNat < s.params.rxCap → 1 ≤ s.params.txCap →
    let i : Instr := .read k rs addr count
    let t : State :=
      { s with
        insts := s.insts.set k.toNat
          { x with
            mode := Reg.of .initializing
            repStart := Reg.of rs
            txBuf := Memory.write x.txBuf 0 (readFrame addr)
            txCur := Reg.of 0
            txLen := Reg.of 1
            rxLen := Reg.of count
            rxCur := Reg.of 0
            hw := { x.hw with pend := false, busy := true, trace := x.hw.trace ++ [.start] } }
        reply := .api .read .ok }
    (s.params.redispatch = false → exec i s = .next t) ∧
    (s.params.redispatch = true →
      ∃ (todo : List AcceptStep) (n : Nat), exec i s = .next { s with fg := .accepting i todo, reply := .noReply } ∧
        State.turns n { s with fg := .accepting i todo, reply := .noReply } = t)

/-- O19. R106 on the repeated-start path: READ sends its frame itself, with CONTINUE. In one step with `REDISPATCH = false`;
with `REDISPATCH = true` in turns of the Foreground, no other agent between them (R112; the model's steps: logs 15, 16). -/
def Obligations.ReadOnRepeatedStartPath : Prop :=
  ∀ (s : State) (k : InstField) (rs : Bool) (addr count : Byte) (x : Inst),
    s.fg = .idle → s.insts[k.toNat]? = some x → x.fault = none → x.initd = true → x.mode = Reg.of .repeatedStartSent →
    x.hw.pend = true → count.toNat < s.params.rxCap → 1 ≤ s.params.txCap →
    let i : Instr := .read k rs addr count
    let t : State :=
      { s with
        insts := s.insts.set k.toNat
          { x with
            mode := Reg.of .initializing
            repStart := Reg.of rs
            txBuf := Memory.write x.txBuf 0 (readFrame addr)
            txCur := Reg.of 1
            txLen := Reg.of 1
            rxLen := Reg.of count
            rxCur := Reg.of 0
            hw :=
              { x.hw with
                data := Reg.of (readFrame addr)
                pend := false
                busy := true
                trace := x.hw.trace ++ [.cont (readFrame addr)] } }
        reply := .api .read .ok }
    (s.params.redispatch = false → exec i s = .next t) ∧
    (s.params.redispatch = true →
      ∃ (todo : List AcceptStep) (n : Nat), exec i s = .next { s with fg := .accepting i todo, reply := .noReply } ∧
        State.turns n { s with fg := .accepting i todo, reply := .noReply } = t)

/-- O20. R57 and R107: the frame is `((address << 1) | 1) mod 256`; its bits 7 to 1 are the address's bits 6 to 0, its bit 0 is
1, and bit 7 of the address is lost; R107's five frames. -/
def Obligations.ReadFrameBits : Prop :=
  (∀ a : Byte, (readFrame a).toNat = (2 * a.toNat + 1) % 256 ∧ (readFrame a).getLsbD 0 = true ∧
    ∀ j < 7, (readFrame a).getLsbD (j + 1) = a.getLsbD j) ∧
  readFrame 0x50 = 0xA1 ∧ readFrame 0x7F = 0xFF ∧ readFrame 0x00 = 0x01 ∧ readFrame 0x80 = 0x01 ∧ readFrame 0xFF = 0xFF

/-- O21. R109: GET_STATUS answers `LAST_STATUS` and writes nothing. That it does so in one step is the model's
choice (log 33). -/
def Obligations.GetStatusAnswers : Prop :=
  ∀ (s : State) (k : InstField) (x : Inst), s.fg = .idle → s.insts[k.toNat]? = some x → x.fault = none →
    x.initd = true → x.lastStatus.written = true →
    exec (.getStatus k) s = .next { s with reply := .byte x.lastStatus.val }

/-- O22. R110 and R55: GET_RX_BYTE answers a written element and writes nothing; an index at or past RX_CAP is refused; an
unwritten element faults UNWRITTEN_READ. That the Foreground then stays in the command is the model's reading (log 9). That
the command is one step is the model's choice (log 33). -/
def Obligations.GetRxByteAnswers : Prop :=
  ∀ (s : State) (k : InstField) (index : Byte) (x : Inst), s.fg = .idle → s.insts[k.toNat]? = some x → x.fault = none →
    x.initd = true →
    (∀ v, index.toNat < s.params.rxCap → Memory.read x.rxBuf index.toNat = some v →
      exec (.getRxByte k index) s = .next { s with reply := .byte v }) ∧
    (s.params.rxCap ≤ index.toNat →
      exec (.getRxByte k index) s = .next { s with reply := .refused .indexPastRxCap }) ∧
    (index.toNat < s.params.rxCap → Memory.read x.rxBuf index.toNat = none →
      exec (.getRxByte k index) s = .next
        { s with
          insts := s.insts.set k.toNat { x with fault := some (.unwrittenRead (.rxBuf index.toNat)) }
          fg := .held (.getRxByte k index)
          reply := .noReply })

/-- O23. R74.1 and R72: a word of a reserved selector is refused, whatever its other bits, and nothing else changes. -/
def Obligations.ReservedSelectorsAreRefused : Prop :=
  ∀ (s : State) (rest : BitVec 21), s.fg = .idle →
    exec (.reservedOp6 rest) s = .next { s with reply := .refused .reservedSelector } ∧
    exec (.reservedOp7 rest) s = .next { s with reply := .refused .reservedSelector }

/-- O24. R195: every command to a faulted instance, if it spells one, has no step: the Foreground is held in it and nothing
else changes. -/
def Obligations.CommandToFaultedInstanceIsHeld : Prop :=
  ∀ (s : State) (i : Instr) (k : InstField) (x : Inst), s.fg = .idle → s.insts[k.toNat]? = some x → x.fault ≠ none →
    (i = .init k ∨ i = .isReady k ∨ (∃ rs len data, i = .transmit k rs len data ∧ data.length = len.toNat) ∨
      (∃ rs addr count, i = .read k rs addr count) ∨ i = .getStatus k ∨
      (∃ index, i = .getRxByte k index ∧ index.toNat < s.params.rxCap)) →
    exec i s = .next { s with fg := .held i, reply := .noReply }

/-- O25. R103 and R106, "never written by TRANSMIT or READ" (R24): these commands leave `LAST_STATUS` and the whole receive
buffer as they were, TRANSMIT the receive length and cursor too, on every path; and so does every turn of the Foreground,
which with `REDISPATCH = true` takes one step of an acceptance (R112). -/
def Obligations.AcceptanceLeavesStatusAndReceiveBuffer : Prop :=
  (∀ (s t : State) (k : InstField) (i : Instr) (x : Inst), s.insts[k.toNat]? = some x →
    ((∃ rs len data, i = .transmit k rs len data) ∨ (∃ rs addr count, i = .read k rs addr count)) →
    exec i s = .next t →
    ∃ y, t.insts[k.toNat]? = some y ∧ y.lastStatus = x.lastStatus ∧
      (∀ j, Memory.read y.rxBuf j = Memory.read x.rxBuf j) ∧ y.initd = x.initd ∧ y.hw.div = x.hw.div ∧
      y.hw.status = x.hw.status ∧ y.hw.en = x.hw.en ∧ y.hw.ie = x.hw.ie ∧
      ((∃ rs len data, i = .transmit k rs len data) → y.rxLen = x.rxLen ∧ y.rxCur = x.rxCur)) ∧
  (∀ (s : State) (k : Nat) (x : Inst), s.insts[k]? = some x →
    ∃ y, s.turn.insts[k]? = some y ∧ y.lastStatus = x.lastStatus ∧
      (∀ j, Memory.read y.rxBuf j = Memory.read x.rxBuf j) ∧ y.initd = x.initd ∧ y.hw.div = x.hw.div ∧
      y.hw.status = x.hw.status ∧ y.hw.en = x.hw.en ∧ y.hw.ie = x.hw.ie)

/-! ## Events -/

/-- O26. R131 with R136, R138 and R140: while a byte remains, START_SENT, MT_SLAW_ACK and MT_DATA_ACK send the byte at the
cursor, advance the cursor and write NO_INFO; MT_SLAW_ACK also sets `MasterTransmitter`. -/
def Obligations.TransmitEventsSendNextByte : Prop :=
  ∀ (s : State) (k : Nat) (raw v : Byte) (x : Inst), s.insts[k]? = some x →
    x.fault = none → x.hw.en = true → x.hw.ie = true → x.hw.busy = true →
    x.txCur.written = true → x.txLen.written = true → x.txCur.val.toNat < x.txLen.val.toNat →
    x.txLen.val.toNat ≤ s.params.txCap → Memory.read x.txBuf x.txCur.val.toNat = some v →
    ∀ (i : Instr) (m : Reg Mode),
      ((i = .evtStartSent k raw ∧ m = x.mode) ∨ (i = .evtMtSlawAck k raw ∧ m = Reg.of .masterTransmitter) ∨
        (i = .evtMtDataAck k raw ∧ m = x.mode)) →
      exec i s = .next
        { s with
          insts := s.insts.set k
            { x with
              mode := m
              lastStatus := Reg.of s.params.noInfo
              txCur := Reg.of (x.txCur.val + 1)
              hw :=
                { x.hw with
                  status := Reg.of raw
                  data := Reg.of v
                  pend := false
                  busy := true
                  trace := x.hw.trace ++ [.cont v] } }
          evtReply := .delivered }

/-- O27. R131 and R132 with R136, R138 and R140: when every byte is sent, the same three events end the phase with SUCCESS:
`Ready` and STOP, or, with REP_START, START and the mode kept. -/
def Obligations.TransmitEventsFinish : Prop :=
  ∀ (s : State) (k : Nat) (raw : Byte) (x : Inst), s.insts[k]? = some x →
    x.fault = none → x.hw.en = true → x.hw.ie = true → x.hw.busy = true →
    x.txCur.written = true → x.txLen.written = true → x.txLen.val.toNat ≤ x.txCur.val.toNat → x.repStart.written = true →
    ∀ (i : Instr) (m : Reg Mode),
      ((i = .evtStartSent k raw ∧ m = x.mode) ∨ (i = .evtMtSlawAck k raw ∧ m = Reg.of .masterTransmitter) ∨
        (i = .evtMtDataAck k raw ∧ m = x.mode)) →
      exec i s = .next
        { s with
          insts := s.insts.set k
            { x with
              mode := if x.repStart.val then m else Reg.of .ready
              lastStatus := Reg.of s.params.success
              hw :=
                { x.hw with
                  status := Reg.of raw
                  pend := false
                  busy := x.repStart.val
                  trace := x.hw.trace ++ [if x.repStart.val then .start else .stop] } }
          evtReply := .delivered }

/-- O28. R135 with R139, R141, R142 and R144: the four BusError events record the masked status; `Ready` and STOP, or, with
REP_START, START and the mode kept. No cursor moves. -/
def Obligations.BusErrorsAbortOrChain : Prop :=
  ∀ (s : State) (k : Nat) (raw : Byte) (x : Inst), s.insts[k]? = some x →
    x.fault = none → x.hw.en = true → x.hw.ie = true → x.hw.busy = true → x.repStart.written = true →
    ∀ i : Instr,
      (i = .evtMtSlawNack k raw ∨ i = .evtMtDataNack k raw ∨ i = .evtArbLost k raw ∨ i = .evtMrSlarNack k raw) →
      exec i s = .next
        { s with
          insts := s.insts.set k
            { x with
              mode := if x.repStart.val then x.mode else Reg.of .ready
              lastStatus := Reg.of (raw &&& s.params.statusMask)
              hw :=
                { x.hw with
                  status := Reg.of raw
                  pend := false
                  busy := x.repStart.val
                  trace := x.hw.trace ++ [if x.repStart.val then .start else .stop] } }
          evtReply := .delivered }

/-- O29. R137: REP_START_SENT sets `MODE` and nothing else of the block; nothing is issued, and `pend` stays set. -/
def Obligations.RepStartSentSetsModeOnly : Prop :=
  ∀ (s : State) (k : Nat) (raw : Byte) (x : Inst), s.insts[k]? = some x →
    x.fault = none → x.hw.en = true → x.hw.ie = true → x.hw.busy = true →
    exec (.evtRepStartSent k raw) s = .next
      { s with
        insts := s.insts.set k
          { x with
            mode := Reg.of .repeatedStartSent
            hw := { x.hw with status := Reg.of raw, pend := true, busy := false } }
        evtReply := .delivered }

/-- O30. R133 and R143: MR_SLAR_ACK sets `MasterReceiver` and NO_INFO, and acknowledges the coming byte exactly if more than
one remains. Without a written receive length it faults UNWRITTEN_READ(RX_LEN), both writes staying (R195, V-DR-13). -/
def Obligations.SlarAckDecidesAcknowledge : Prop :=
  ∀ (s : State) (k : Nat) (raw : Byte) (x : Inst), s.insts[k]? = some x →
    x.fault = none → x.hw.en = true → x.hw.ie = true → x.hw.busy = true →
    (x.rxLen.written = true → x.rxCur.written = true →
      exec (.evtMrSlarAck k raw) s = .next
        { s with
          insts := s.insts.set k
            { x with
              mode := Reg.of .masterReceiver
              lastStatus := Reg.of s.params.noInfo
              hw :=
                { x.hw with
                  status := Reg.of raw
                  pend := false
                  busy := true
                  trace := x.hw.trace ++
                    [if x.rxCur.val.toNat + 1 < x.rxLen.val.toNat then .ackNext else .nackNext] } }
          evtReply := .delivered }) ∧
    (x.rxLen.written = false →
      exec (.evtMrSlarAck k raw) s = .next
        { s with
          insts := s.insts.set k
            { x with
              mode := Reg.of .masterReceiver
              lastStatus := Reg.of s.params.noInfo
              hw := { x.hw with status := Reg.of raw, pend := true, busy := false }
              fault := some (.unwrittenRead .rxLen) }
          evtReply := .delivered })

/-- O31. R134 and R145: with room, MR_DATA_ACK stores the received byte at the cursor, advances it and decides the next
acknowledge by what then remains. -/
def Obligations.DataAckStoresAndDecides : Prop :=
  ∀ (s : State) (k : Nat) (raw d : Byte) (x : Inst), s.insts[k]? = some x →
    x.fault = none → x.hw.en = true → x.hw.ie = true → x.hw.busy = true →
    x.rxCur.written = true → x.rxLen.written = true → x.rxCur.val.toNat < x.rxLen.val.toNat →
    x.rxLen.val.toNat < s.params.rxCap →
    exec (.evtMrDataAck k raw d) s = .next
      { s with
        insts := s.insts.set k
          { x with
            lastStatus := Reg.of s.params.noInfo
            rxBuf := Memory.write x.rxBuf x.rxCur.val.toNat d
            rxCur := Reg.of (x.rxCur.val + 1)
            hw :=
              { x.hw with
                status := Reg.of raw
                data := Reg.of d
                pend := false
                busy := true
                trace := x.hw.trace ++
                  [if x.rxCur.val.toNat + 2 < x.rxLen.val.toNat then .ackNext else .nackNext] } }
        evtReply := .delivered }

/-- O32. R132, R134 and R146: with room, MR_DATA_NACK stores the final byte and ends the phase. -/
def Obligations.DataNackStoresAndFinishes : Prop :=
  ∀ (s : State) (k : Nat) (raw d : Byte) (x : Inst), s.insts[k]? = some x →
    x.fault = none → x.hw.en = true → x.hw.ie = true → x.hw.busy = true →
    x.rxCur.written = true → x.rxLen.written = true → x.rxCur.val.toNat < x.rxLen.val.toNat →
    x.rxLen.val.toNat < s.params.rxCap → x.repStart.written = true →
    exec (.evtMrDataNack k raw d) s = .next
      { s with
        insts := s.insts.set k
          { x with
            mode := if x.repStart.val then x.mode else Reg.of .ready
            lastStatus := Reg.of s.params.success
            rxBuf := Memory.write x.rxBuf x.rxCur.val.toNat d
            rxCur := Reg.of (x.rxCur.val + 1)
            hw :=
              { x.hw with
                status := Reg.of raw
                data := Reg.of d
                pend := false
                busy := x.repStart.val
                trace := x.hw.trace ++ [if x.repStart.val then .start else .stop] } }
        evtReply := .delivered }

/-- O33. R134's fault: a received byte with the cursor at the length faults RX_OVERRUN; nothing is stored, nothing issued. That
the fault records the masked status is the model's reading (log 27). -/
def Obligations.ReceiveOverrunFaults : Prop :=
  ∀ (s : State) (k : Nat) (raw d : Byte) (x : Inst), s.insts[k]? = some x →
    x.fault = none → x.hw.en = true → x.hw.ie = true → x.hw.busy = true →
    x.rxCur.written = true → x.rxLen.written = true → x.rxLen.val.toNat ≤ x.rxCur.val.toNat →
    ∀ i : Instr, (i = .evtMrDataAck k raw d ∨ i = .evtMrDataNack k raw d) →
      exec i s = .next
        { s with
          insts := s.insts.set k
            { x with
              hw := { x.hw with status := Reg.of raw, data := Reg.of d, pend := true, busy := false }
              fault := some (.rxOverrun x.rxCur.val x.rxLen.val (raw &&& s.params.statusMask)) }
          evtReply := .delivered }

/-- O34. R147: ILLEGAL_START_STOP records the status, sets `Ready` and issues STOP, whatever REP_START holds. -/
def Obligations.IllegalStartStopAborts : Prop :=
  ∀ (s : State) (k : Nat) (raw : Byte) (x : Inst), s.insts[k]? = some x →
    x.fault = none → x.hw.en = true → x.hw.ie = true → x.hw.busy = true →
    exec (.evtIllegalStartStop k raw) s = .next
      { s with
        insts := s.insts.set k
          { x with
            mode := Reg.of .ready
            lastStatus := Reg.of (raw &&& s.params.statusMask)
            hw :=
              { x.hw with
                status := Reg.of raw
                pend := false
                busy := false
                trace := x.hw.trace ++ [.stop] } }
        evtReply := .delivered }

/-- O35. R149: a status with no row faults UNHANDLED_STATUS with that masked status; nothing is issued. -/
def Obligations.UnhandledStatusFaults : Prop :=
  ∀ (s : State) (k : Nat) (raw : Byte) (x : Inst), s.insts[k]? = some x →
    x.fault = none → x.hw.en = true → x.hw.ie = true → x.hw.busy = true →
    exec (.evtUnhandled k raw) s = .next
      { s with
        insts := s.insts.set k
          { x with
            hw := { x.hw with status := Reg.of raw, pend := true, busy := false }
            fault := some (.unhandledStatus (raw &&& s.params.statusMask)) }
        evtReply := .delivered }

/-- O36. R148 and R181: NO_INFO is never delivered, and its row does nothing: no instance changes, whatever its state. -/
def Obligations.NoInfoChangesNothing : Prop :=
  ∀ (s : State) (k : Nat) (raw : Byte) (x : Inst), s.insts[k]? = some x →
    exec (.evtNoInfoClass k raw) s = .next { s with evtReply := .refused .noInfoStatus }

/-- O37. R181 and R183: where delivery is not enabled, no event of a class with a row, nor an unhandled one, changes anything
but the event port's answer. -/
def Obligations.NoEventWhileNotEnabled : Prop :=
  ∀ (s : State) (k : Nat) (raw d : Byte) (x : Inst) (c : StatusClass), s.insts[k]? = some x →
    (x.fault ≠ none ∨ x.hw.en = false ∨ x.hw.ie = false ∨ x.hw.busy = false) → c ≠ .noInfoClass →
    exec (c.event k raw d) s = .next { s with evtReply := .refused .notEnabled }

/-- O38. R151: a dispatched event that raises no fault issues exactly one bus-control operation, except REP_START_SENT,
NO_INFO_CLASS and UNHANDLED, which issue none. -/
def Obligations.OneControlOperationPerEvent : Prop :=
  ∀ (s t : State) (k : Nat) (raw d : Byte) (x y : Inst) (c : StatusClass), s.insts[k]? = some x →
    x.fault = none → x.hw.en = true → x.hw.ie = true → x.hw.busy = true →
    exec (c.event k raw d) s = .next t → t.insts[k]? = some y → (y.fault = none ∨ c = .unhandled) →
    if c = .repStartSent ∨ c = .noInfoClass ∨ c = .unhandled then y.hw.trace = x.hw.trace
    else ∃ op, op.isControl = true ∧ y.hw.trace = x.hw.trace ++ [op]

/-- O39. R152, "The Dispatcher never reads `MODE`": two runs of an event from states that differ only in the instance's `MODE`
differ at most in `MODE` afterwards, and where they do, each still holds its own. -/
def Obligations.DispatcherNeverReadsMode : Prop :=
  ∀ (s t : State) (k : Nat) (raw d : Byte) (x : Inst) (c : StatusClass) (m : Reg Mode), s.insts[k]? = some x →
    exec (c.event k raw d) s = .next t →
    ∃ y m', t.insts[k]? = some y ∧
      exec (c.event k raw d) { s with insts := s.insts.set k { x with mode := m } } =
        .next { t with insts := t.insts.set k { y with mode := m' } } ∧
      (m' = y.mode ∨ (y.mode = x.mode ∧ m' = m))

/-- O40. The frame of the events (R131-R149, their "Writes"): REP_START, both lengths, INITD, `en`, `ie`, `div` and every byte
of TX_BUF stay. Every byte of RX_BUF stays but, for a receive event, the one at the receive cursor. TX_CUR stays but for the
three load events, RX_CUR but for the two receive events. `LAST_STATUS` stays on REP_START_SENT, NO_INFO and UNHANDLED, `MODE`
on NO_INFO, UNHANDLED and MR_DATA_ACK, and `HW.data` on all but the load and the receive events.
The Foreground stays where it was, be it free, held or inside an acceptance, and so does its answer (R200). -/
def Obligations.EventFrame : Prop :=
  ∀ (s t : State) (k : Nat) (raw d : Byte) (x : Inst) (c : StatusClass), s.insts[k]? = some x →
    exec (c.event k raw d) s = .next t →
    t.fg = s.fg ∧ t.reply = s.reply ∧
    ∃ y, t.insts[k]? = some y ∧
      y.repStart = x.repStart ∧ y.txLen = x.txLen ∧ y.rxLen = x.rxLen ∧ y.initd = x.initd ∧
      y.hw.en = x.hw.en ∧ y.hw.ie = x.hw.ie ∧ y.hw.div = x.hw.div ∧
      (∀ j, Memory.read y.txBuf j = Memory.read x.txBuf j) ∧
      (∀ j, ((c = .mrDataAck ∨ c = .mrDataNack) → j ≠ x.rxCur.val.toNat) →
        Memory.read y.rxBuf j = Memory.read x.rxBuf j) ∧
      (c ≠ .startSent → c ≠ .mtSlawAck → c ≠ .mtDataAck → y.txCur = x.txCur) ∧
      (c ≠ .mrDataAck → c ≠ .mrDataNack → y.rxCur = x.rxCur) ∧
      ((c = .repStartSent ∨ c = .noInfoClass ∨ c = .unhandled) → y.lastStatus = x.lastStatus) ∧
      ((c = .noInfoClass ∨ c = .unhandled ∨ c = .mrDataAck) → y.mode = x.mode) ∧
      (c ≠ .startSent → c ≠ .mtSlawAck → c ≠ .mtDataAck → c ≠ .mrDataAck → c ≠ .mrDataNack → y.hw.data = x.hw.data)

/-- O41. R67 and R153: while REP_START is set, no event but ILLEGAL_START_STOP adds a STOP to the trace. -/
def Obligations.ChainIssuesNoStop : Prop :=
  ∀ (s t : State) (k : Nat) (raw d : Byte) (x y : Inst) (c : StatusClass), s.insts[k]? = some x →
    x.repStart = Reg.of true → c ≠ .illegalStartStop → exec (c.event k raw d) s = .next t → t.insts[k]? = some y →
    ∃ ops, y.hw.trace = x.hw.trace ++ ops ∧ TraceOp.stop ∉ ops

/-! ## Hardware-interface operations -/

/-- O42. R171, R172, R174 and R175: the four control operations without an operand write `pend`, `busy` and the trace, and
nothing else. -/
def Obligations.ControlOperationsComplete : Prop :=
  ∀ (s : State) (k : Nat) (x : Inst), s.insts[k]? = some x → x.fault = none →
    ∀ (i : Instr) (op : TraceOp) (b : Bool),
      ((i = .issueStart k ∧ op = .start ∧ b = true) ∨ (i = .issueStop k ∧ op = .stop ∧ b = false) ∨
        (i = .ackNext k ∧ op = .ackNext ∧ b = true) ∨ (i = .nackNext k ∧ op = .nackNext ∧ b = true)) →
      exec i s = .next
        { s with
          insts := s.insts.set k { x with hw := { x.hw with pend := false, busy := b, trace := x.hw.trace ++ [op] } }
          hwReply := .noReply }

/-- O43. R173: CONTINUE sends the byte in the data register; if that was never written it faults UNWRITTEN_READ, and nothing
is traced. -/
def Obligations.ContinueSendsDataRegister : Prop :=
  ∀ (s : State) (k : Nat) (x : Inst), s.insts[k]? = some x → x.fault = none →
    (x.hw.data.written = true →
      exec (.continueTx k) s = .next
        { s with
          insts := s.insts.set k
            { x with
              hw :=
                { x.hw with
                  pend := false
                  busy := true
                  trace := x.hw.trace ++ [.cont x.hw.data.val] } }
          hwReply := .noReply }) ∧
    (x.hw.data.written = false →
      ∃ t y, exec (.continueTx k) s = .next t ∧ t.insts[k]? = some y ∧ y.fault = some (.unwrittenRead .hwData) ∧
        y.hw.trace = x.hw.trace ∧ y.hw.data = x.hw.data)

/-- O44. R176: WRITE_DATA writes the data register while the wait condition is set, and faults DATA_WRITE_COLLISION, writing
nothing else, while it is not; it is not traced. -/
def Obligations.WriteDataNeedsWaitCondition : Prop :=
  ∀ (s : State) (k : Nat) (v : Byte) (x : Inst), s.insts[k]? = some x → x.fault = none →
    (x.hw.pend = true →
      exec (.writeData k v) s = .next
        { s with
          insts := s.insts.set k { x with hw := { x.hw with data := Reg.of v } }
          hwReply := .noReply }) ∧
    (x.hw.pend = false →
      exec (.writeData k v) s = .next
        { s with
          insts := s.insts.set k { x with fault := some (.dataWriteCollision v) }
          hwReply := .noReply })

/-- O45. R177 and R178: READ_DATA returns the data register, READ_STATUS the masked status; neither writes anything. An
unwritten register faults UNWRITTEN_READ instead (R42; for READ_STATUS the model's reading, log 22). -/
def Obligations.HardwareReadsReturn : Prop :=
  ∀ (s : State) (k : Nat) (x : Inst), s.insts[k]? = some x → x.fault = none →
    (x.hw.data.written = true → exec (.readData k) s = .next { s with hwReply := .byte x.hw.data.val }) ∧
    (x.hw.status.written = true →
      exec (.readStatus k) s = .next { s with hwReply := .byte (x.hw.status.val &&& s.params.statusMask) }) ∧
    (x.hw.data.written = false →
      exec (.readData k) s = .next
        { s with
          insts := s.insts.set k { x with fault := some (.unwrittenRead .hwData) }
          hwReply := .noReply }) ∧
    (x.hw.status.written = false →
      exec (.readStatus k) s = .next
        { s with
          insts := s.insts.set k { x with fault := some (.unwrittenRead .hwStatus) }
          hwReply := .noReply })

/-- O46. R179 and R180: SET_DIVISOR writes the divisor, ENABLE the two enables; both are traced; `pend` and `busy` stay. -/
def Obligations.SetDivisorAndEnableComplete : Prop :=
  ∀ (s : State) (k : Nat) (v : Byte) (x : Inst), s.insts[k]? = some x → x.fault = none →
    exec (.setDivisor k v) s = .next
      { s with
        insts := s.insts.set k { x with hw := { x.hw with div := Reg.of v, trace := x.hw.trace ++ [.setDivisor v] } }
        hwReply := .noReply } ∧
    exec (.enable k) s = .next
      { s with
        insts := s.insts.set k { x with hw := { x.hw with en := true, ie := true, trace := x.hw.trace ++ [.enable] } }
        hwReply := .noReply }

/-! ## The whole machine -/

/-- O47. A step runs the decoded instruction: the first message at the ports, once the Foreground is free or the message is an
event, is taken away and what it spells is executed; a turn of the Foreground, if first, is taken away and runs (the model's
order of arrival, log 7). -/
def Obligations.StepRunsDecodedInstruction : Prop :=
  ∀ (s : State) (m : Msg) (rest : List Msg), s.inbox = m :: rest → (s.fg = .idle ∨ m.isCmd = false) →
    (∀ i : Instr, decode s.params m = .ok i → step s = exec i { s with inbox := rest }) ∧
    (m = .turn → step s = .next ({ s with inbox := rest } : State).turn)

/-- O48. R47: no instruction changes an instance it does not address, a parameter, or what waits at the ports; nor does a turn
of the Foreground change an instance that its command does not address. -/
def Obligations.OtherInstancesUntouched : Prop :=
  (∀ (s t : State) (i : Instr), exec i s = .next t →
    t.params = s.params ∧ t.inbox = s.inbox ∧ t.insts.length = s.insts.length ∧
    ∀ j, target i ≠ some j → t.insts[j]? = s.insts[j]?) ∧
  (∀ s : State,
    s.turn.params = s.params ∧ s.turn.inbox = s.inbox ∧ s.turn.insts.length = s.insts.length ∧
    ∀ j, (∀ i, s.fg.command = some i → target i ≠ some j) → s.turn.insts[j]? = s.insts[j]?)

/-- O49. The frame of TX_BUF (R53: "Elements at `i >= length` keep their previous contents"): TRANSMIT may change the elements
below its length, READ the first, and no other instruction any; a turn of the Foreground may change what its held command may,
or the one element whose copy is next. -/
def Obligations.TransmitBufferFrame : Prop :=
  (∀ (s t : State) (i : Instr) (k : Nat) (x : Inst), target i = some k → s.insts[k]? = some x → exec i s = .next t →
    ∃ y, t.insts[k]? = some y ∧
      ∀ j, (∀ f rs len data, i = .transmit f rs len data → data.length ≤ j) →
        (∀ f rs addr count, i = .read f rs addr count → 1 ≤ j) → Memory.read y.txBuf j = Memory.read x.txBuf j) ∧
  (∀ (s : State) (k : Nat) (x : Inst), s.insts[k]? = some x →
    ∃ y, s.turn.insts[k]? = some y ∧
      ∀ j, (∀ f rs len data, s.fg = .held (.transmit f rs len data) → data.length ≤ j) →
        (∀ f rs addr count, s.fg = .held (.read f rs addr count) → 1 ≤ j) →
        (∀ i v todo, s.fg ≠ .accepting i (.copy j v :: todo)) → Memory.read y.txBuf j = Memory.read x.txBuf j)

/-- O50. R195: a faulted instance has no further step: no step of the system changes anything of it. -/
def Obligations.FaultedInstanceIsFrozen : Prop :=
  ∀ (s t : State) (k : Nat) (x : Inst), s.insts[k]? = some x → x.fault ≠ none → step s = .next t → t.insts[k]? = some x

/-- O51. R41: the trace of an instance is never cleared: a step only appends to it. -/
def Obligations.TraceOnlyGrows : Prop :=
  ∀ (s t : State) (k : Nat) (x : Inst), s.insts[k]? = some x → step s = .next t →
    ∃ y ops, t.insts[k]? = some y ∧ y.hw.trace = x.hw.trace ++ ops

/-- O52. The invariant of O53 holds at power-on, for all parameters R7 and R8 admit, without REDISPATCH. -/
def Obligations.PowerOnMeetsInvariant : Prop :=
  ∀ p : Params, p.wf = true → p.redispatch = false → (State.powerOn p).Inv

/-- O53. R45 and R33, with `REDISPATCH = false`: every step, whatever arrives, keeps the invariant: `busy` and `pend` are as
the mode says, no other mode is reached, cursors lie within lengths and lengths within capacities, and the buffers keep their
canonical form. -/
def Obligations.StepKeepsInvariant : Prop :=
  ∀ s t : State, s.Inv → step s = .next t → t.Inv

/-- O54. Every step keeps every buffer in canonical form, with or without REDISPATCH and from any state: its list of written
elements (R42) stays strictly rising. That a buffer is such a list is the model's choice (log 6). -/
def Obligations.StepKeepsBuffersCanonical : Prop :=
  ∀ s t : State, s.memoriesWf = true → step s = .next t → t.memoriesWf = true

/-- O55. R83: no value but those of its table is ever stored in `LAST_STATUS`, with or without REDISPATCH. -/
def Obligations.LastStatusHoldsOnlyItsValues : Prop :=
  ∀ s t : State, (∀ x ∈ s.insts, x.lastStatus.written = true → s.params.statusValue x.lastStatus.val = true) →
    step s = .next t → ∀ y ∈ t.insts, y.lastStatus.written = true → t.params.statusValue y.lastStatus.val = true

/-- O56. R194, "Codes 6 to 8 cannot be reached from INIT by the rules, except ...": from a state that meets the invariant, a
step raises no DATA_WRITE_COLLISION and no INDEX_RANGE, and an UNWRITTEN_READ only of RX_LEN, RX_CUR or an element of RX_BUF. -/
def Obligations.UnreachableFaultsAreNotRaised : Prop :=
  ∀ (s t : State) (k : Nat) (x y : Inst) (f : FaultCode), s.Inv → s.insts[k]? = some x → x.fault = none →
    step s = .next t → t.insts[k]? = some y → y.fault = some f →
    f.number ≤ 5 ∨ f = .unwrittenRead .rxLen ∨ f = .unwrittenRead .rxCur ∨ ∃ j, f = .unwrittenRead (.rxBuf j)

/-- O57. R182: without REDISPATCH no redispatch changes an instance; with it, where the step is enabled and the held event is
REP_START_SENT, all it changes of the instance is `MODE`. -/
def Obligations.RedispatchSetsModeOnly : Prop :=
  ∀ (s : State) (k : Nat) (x : Inst), s.insts[k]? = some x →
    (s.params.redispatch = false → runMsg (.redispatch k) s = .next { s with evtReply := .refused .notEnabled }) ∧
    (s.params.wf = true → s.params.redispatch = true → x.fault = none → x.hw.en = true → x.hw.ie = true →
      x.hw.pend = true → x.hw.busy = false → x.hw.status.written = true →
      x.hw.status.val &&& s.params.statusMask = s.params.codes.repStartSent →
      runMsg (.redispatch k) s = .next
        { s with
          insts := s.insts.set k { x with mode := Reg.of .repeatedStartSent }
          evtReply := .delivered })

/-- O58. R115, that a command which waits blocks the Foreground: while the Foreground is in a command, held or inside its
acceptance, a step takes no command. That further commands then stand at the port, all of them and in their order, is the
model's reading (its inbox, log 7; log 28). -/
def Obligations.HeldForegroundTakesNoCommand : Prop :=
  ∀ (s t : State), s.fg.isIdle = false → step s = .next t →
    ∃ later, t.inbox.filter Msg.isCmd = s.inbox.filter Msg.isCmd ++ later

/-- O59. R108: a zero-byte READ whose address is acknowledged issues NACK_NEXT, and the byte that arrives faults RX_OVERRUN.
That the fault records the masked status is the model's reading (log 27). -/
def Obligations.ZeroByteReadFaults : Prop :=
  ∀ (s : State) (k : Nat) (raw raw' d : Byte) (x : Inst), s.insts[k]? = some x →
    x.fault = none → x.hw.en = true → x.hw.ie = true → x.hw.busy = true → x.rxLen = Reg.of 0 → x.rxCur = Reg.of 0 →
    ∃ t u y z, exec (.evtMrSlarAck k raw) s = .next t ∧ exec (.evtMrDataNack k raw' d) t = .next u ∧
      t.insts[k]? = some y ∧ y.hw.trace = x.hw.trace ++ [.nackNext] ∧
      u.insts[k]? = some z ∧ z.fault = some (.rxOverrun 0 0 (raw' &&& s.params.statusMask)) ∧
      z.hw.trace = y.hw.trace ∧ ∀ j, Memory.read z.rxBuf j = Memory.read x.rxBuf j

/-- O60. R105: a zero-length TRANSMIT from `Ready` issues START; at START_SENT it finishes at once, with STOP or, with
`repeatStart`, START; no byte is sent. The command is one step with `REDISPATCH = false`; with `REDISPATCH = true` turns of
the Foreground, no other agent between them, take the steps of its acceptance (R112; the model's steps: logs 15, 16). -/
def Obligations.ZeroLengthTransmitFinishesAtOnce : Prop :=
  ∀ (s : State) (k : InstField) (rs : Bool) (raw : Byte) (x : Inst), s.fg = .idle → s.insts[k.toNat]? = some x →
    x.fault = none → x.initd = true → x.mode = Reg.of .ready → x.hw.en = true → x.hw.ie = true →
    ∃ (t : State) (n : Nat) (u : State) (y : Inst), exec (.transmit k rs 0 []) s = .next t ∧
      (s.params.redispatch = false → n = 0) ∧ exec (.evtStartSent k.toNat raw) (State.turns n t) = .next u ∧
      (State.turns n t).fg = .idle ∧ u.reply = .api .transmit .ok ∧ u.insts[k.toNat]? = some y ∧ y.fault = none ∧
      y.lastStatus = Reg.of s.params.success ∧ y.mode = Reg.of (if rs then .initializing else .ready) ∧
      y.hw.trace = x.hw.trace ++ [.start, if rs then .start else .stop]
end

