-- ==== Sys2Proof/Laws/Decode.lean ====
section
/-! SUPPORT. What the encoder's words hold (R71), and what classification answers (R79). -/

namespace Sys2Proof

/-! ## The fields of an encoded word -/

@[simp] theorem cmdWord_op (b a : Byte) (k : InstField) (rs : Bool) (op : BitVec 3) :
    CmdWord.op (cmdWord b a k rs op) = op := by
  apply BitVec.eq_of_getLsbD_eq
  intro i hi
  have : i = 0 ∨ i = 1 ∨ i = 2 := by omega
  rcases this with rfl | rfl | rfl <;> simp [CmdWord.op, cmdWord]

@[simp] theorem cmdWord_rs (b a : Byte) (k : InstField) (rs : Bool) (op : BitVec 3) :
    CmdWord.rs (cmdWord b a k rs op) = rs := by
  simp [CmdWord.rs, cmdWord]

@[simp] theorem cmdWord_instField (b a : Byte) (k : InstField) (rs : Bool) (op : BitVec 3) :
    CmdWord.instField (cmdWord b a k rs op) = k := by
  apply BitVec.eq_of_getLsbD_eq
  intro i hi
  have : i = 0 ∨ i = 1 ∨ i = 2 := by omega
  rcases this with rfl | rfl | rfl <;> simp [CmdWord.instField, cmdWord]

@[simp] theorem cmdWord_reserved (b a : Byte) (k : InstField) (rs : Bool) (op : BitVec 3) :
    CmdWord.reserved (cmdWord b a k rs op) = false := by
  simp [CmdWord.reserved, cmdWord]

@[simp] theorem cmdWord_a (b a : Byte) (k : InstField) (rs : Bool) (op : BitVec 3) :
    CmdWord.a (cmdWord b a k rs op) = a := by
  apply BitVec.eq_of_getLsbD_eq
  intro i hi
  have : i = 0 ∨ i = 1 ∨ i = 2 ∨ i = 3 ∨ i = 4 ∨ i = 5 ∨ i = 6 ∨ i = 7 := by omega
  rcases this with rfl | rfl | rfl | rfl | rfl | rfl | rfl | rfl <;> simp [CmdWord.a, cmdWord]

@[simp] theorem cmdWord_b (b a : Byte) (k : InstField) (rs : Bool) (op : BitVec 3) :
    CmdWord.b (cmdWord b a k rs op) = b := by
  apply BitVec.eq_of_getLsbD_eq
  intro i hi
  have : i = 0 ∨ i = 1 ∨ i = 2 ∨ i = 3 ∨ i = 4 ∨ i = 5 ∨ i = 6 ∨ i = 7 := by omega
  rcases this with rfl | rfl | rfl | rfl | rfl | rfl | rfl | rfl <;> simp [CmdWord.b, cmdWord]

@[simp] theorem reservedWord_op (rest : BitVec 21) (op : BitVec 3) : CmdWord.op (reservedWord rest op) = op := by
  apply BitVec.eq_of_getLsbD_eq
  intro i hi
  have : i = 0 ∨ i = 1 ∨ i = 2 := by omega
  rcases this with rfl | rfl | rfl <;> simp [CmdWord.op, reservedWord]

@[simp] theorem reservedWord_rest (rest : BitVec 21) (op : BitVec 3) : CmdWord.rest (reservedWord rest op) = rest := by
  apply BitVec.eq_of_getLsbD_eq
  intro i hi
  have h1 : 3 + i < 24 := by omega
  have h2 : ¬ 3 + i < 3 := by omega
  simp [CmdWord.rest, reservedWord, hi, h1, h2]

/-! ## Refusals by name -/

/-- An instruction passes a list of checks exactly when none is bad. -/
theorem firstRefusal_ok {i j : Instr} {l : List (Bool × RefuseReason)} :
    firstRefusal i l = .ok j ↔ (∀ c ∈ l, c.1 = false) ∧ i = j := by
  induction l with
  | nil => simp [firstRefusal]
  | cons c l ih =>
    obtain ⟨b, w⟩ := c
    cases b <;> simp [firstRefusal, ih]

/-! ## Classification -/

/-- With pairwise distinct codes, a listed code is found under its own class (R79). -/
theorem find_code {l : List (StatusClass × Byte)} (h : (l.map (·.2)).Nodup) {c : StatusClass} {s : Byte}
    (hm : (c, s) ∈ l) : l.find? (fun e => e.2 == s) = some (c, s) := by
  induction l with
  | nil => simp at hm
  | cons e l ih =>
    rw [List.map_cons, List.nodup_cons] at h
    rcases List.mem_cons.mp hm with rfl | hm
    · simp
    · have : e.2 ≠ s := fun he => h.1 (he ▸ List.mem_map_of_mem (f := (·.2)) hm)
      simp [this, ih h.2 hm]

/-- The class of a code of the table (R79). -/
theorem classify_of_mem {c : Codes} (h : (c.table.map (·.2)).Nodup) {cl : StatusClass} {s : Byte}
    (hm : (cl, s) ∈ c.table) : classify c s = cl := by
  simp [classify, find_code h hm]

/-- A status that is no code is UNHANDLED (R79). -/
theorem classify_unhandled {c : Codes} {s : Byte} (h : ∀ e ∈ c.table, e.2 ≠ s) : classify c s = .unhandled := by
  have : c.table.find? (fun e => e.2 == s) = none := by
    simpa [List.find?_eq_none] using h
  simp [classify, this]

/-- What a class other than UNHANDLED says of the status: it is the class's code (R79). -/
theorem classify_mem {c : Codes} {s : Byte} (h : classify c s ≠ .unhandled) : (classify c s, s) ∈ c.table := by
  cases he : c.table.find? (fun e => e.2 == s) with
  | none => exact absurd (by simp [classify, he]) h
  | some e =>
    have h2 := List.find?_some he
    simp only [beq_iff_eq] at h2
    have h1 : classify c s = e.1 := by simp [classify, he]
    rw [h1, ← h2]
    exact List.mem_of_find?_eq_some he

end Sys2Proof
end

