-- ==== Sys2Proof/Laws/State.lean ====
section
/-! SUPPORT. One lemma per field per named update, true by rfl: what each update writes, and that it leaves the rest. -/

namespace Sys2Proof.Machine

/-! ## An instance -/

@[simp] theorem Inst.setMode_mode (x : Inst) (v : Mode) : (x.setMode v).mode = Reg.of v := rfl
@[simp] theorem Inst.setMode_lastStatus (x : Inst) (v : Mode) : (x.setMode v).lastStatus = x.lastStatus := rfl
@[simp] theorem Inst.setMode_repStart (x : Inst) (v : Mode) : (x.setMode v).repStart = x.repStart := rfl
@[simp] theorem Inst.setMode_txBuf (x : Inst) (v : Mode) : (x.setMode v).txBuf = x.txBuf := rfl
@[simp] theorem Inst.setMode_txLen (x : Inst) (v : Mode) : (x.setMode v).txLen = x.txLen := rfl
@[simp] theorem Inst.setMode_txCur (x : Inst) (v : Mode) : (x.setMode v).txCur = x.txCur := rfl
@[simp] theorem Inst.setMode_rxBuf (x : Inst) (v : Mode) : (x.setMode v).rxBuf = x.rxBuf := rfl
@[simp] theorem Inst.setMode_rxLen (x : Inst) (v : Mode) : (x.setMode v).rxLen = x.rxLen := rfl
@[simp] theorem Inst.setMode_rxCur (x : Inst) (v : Mode) : (x.setMode v).rxCur = x.rxCur := rfl
@[simp] theorem Inst.setMode_hw (x : Inst) (v : Mode) : (x.setMode v).hw = x.hw := rfl
@[simp] theorem Inst.setMode_initd (x : Inst) (v : Mode) : (x.setMode v).initd = x.initd := rfl
@[simp] theorem Inst.setMode_fault (x : Inst) (v : Mode) : (x.setMode v).fault = x.fault := rfl

@[simp] theorem Inst.setLastStatus_mode (x : Inst) (v : Byte) : (x.setLastStatus v).mode = x.mode := rfl
@[simp] theorem Inst.setLastStatus_lastStatus (x : Inst) (v : Byte) : (x.setLastStatus v).lastStatus = Reg.of v := rfl
@[simp] theorem Inst.setLastStatus_repStart (x : Inst) (v : Byte) : (x.setLastStatus v).repStart = x.repStart := rfl
@[simp] theorem Inst.setLastStatus_txBuf (x : Inst) (v : Byte) : (x.setLastStatus v).txBuf = x.txBuf := rfl
@[simp] theorem Inst.setLastStatus_txLen (x : Inst) (v : Byte) : (x.setLastStatus v).txLen = x.txLen := rfl
@[simp] theorem Inst.setLastStatus_txCur (x : Inst) (v : Byte) : (x.setLastStatus v).txCur = x.txCur := rfl
@[simp] theorem Inst.setLastStatus_rxBuf (x : Inst) (v : Byte) : (x.setLastStatus v).rxBuf = x.rxBuf := rfl
@[simp] theorem Inst.setLastStatus_rxLen (x : Inst) (v : Byte) : (x.setLastStatus v).rxLen = x.rxLen := rfl
@[simp] theorem Inst.setLastStatus_rxCur (x : Inst) (v : Byte) : (x.setLastStatus v).rxCur = x.rxCur := rfl
@[simp] theorem Inst.setLastStatus_hw (x : Inst) (v : Byte) : (x.setLastStatus v).hw = x.hw := rfl
@[simp] theorem Inst.setLastStatus_initd (x : Inst) (v : Byte) : (x.setLastStatus v).initd = x.initd := rfl
@[simp] theorem Inst.setLastStatus_fault (x : Inst) (v : Byte) : (x.setLastStatus v).fault = x.fault := rfl

@[simp] theorem Inst.setRepStart_mode (x : Inst) (v : Bool) : (x.setRepStart v).mode = x.mode := rfl
@[simp] theorem Inst.setRepStart_lastStatus (x : Inst) (v : Bool) : (x.setRepStart v).lastStatus = x.lastStatus := rfl
@[simp] theorem Inst.setRepStart_repStart (x : Inst) (v : Bool) : (x.setRepStart v).repStart = Reg.of v := rfl
@[simp] theorem Inst.setRepStart_txBuf (x : Inst) (v : Bool) : (x.setRepStart v).txBuf = x.txBuf := rfl
@[simp] theorem Inst.setRepStart_txLen (x : Inst) (v : Bool) : (x.setRepStart v).txLen = x.txLen := rfl
@[simp] theorem Inst.setRepStart_txCur (x : Inst) (v : Bool) : (x.setRepStart v).txCur = x.txCur := rfl
@[simp] theorem Inst.setRepStart_rxBuf (x : Inst) (v : Bool) : (x.setRepStart v).rxBuf = x.rxBuf := rfl
@[simp] theorem Inst.setRepStart_rxLen (x : Inst) (v : Bool) : (x.setRepStart v).rxLen = x.rxLen := rfl
@[simp] theorem Inst.setRepStart_rxCur (x : Inst) (v : Bool) : (x.setRepStart v).rxCur = x.rxCur := rfl
@[simp] theorem Inst.setRepStart_hw (x : Inst) (v : Bool) : (x.setRepStart v).hw = x.hw := rfl
@[simp] theorem Inst.setRepStart_initd (x : Inst) (v : Bool) : (x.setRepStart v).initd = x.initd := rfl
@[simp] theorem Inst.setRepStart_fault (x : Inst) (v : Bool) : (x.setRepStart v).fault = x.fault := rfl

@[simp] theorem Inst.setTxBuf_mode (x : Inst) (m : Memory) : (x.setTxBuf m).mode = x.mode := rfl
@[simp] theorem Inst.setTxBuf_lastStatus (x : Inst) (m : Memory) : (x.setTxBuf m).lastStatus = x.lastStatus := rfl
@[simp] theorem Inst.setTxBuf_repStart (x : Inst) (m : Memory) : (x.setTxBuf m).repStart = x.repStart := rfl
@[simp] theorem Inst.setTxBuf_txBuf (x : Inst) (m : Memory) : (x.setTxBuf m).txBuf = m := rfl
@[simp] theorem Inst.setTxBuf_txLen (x : Inst) (m : Memory) : (x.setTxBuf m).txLen = x.txLen := rfl
@[simp] theorem Inst.setTxBuf_txCur (x : Inst) (m : Memory) : (x.setTxBuf m).txCur = x.txCur := rfl
@[simp] theorem Inst.setTxBuf_rxBuf (x : Inst) (m : Memory) : (x.setTxBuf m).rxBuf = x.rxBuf := rfl
@[simp] theorem Inst.setTxBuf_rxLen (x : Inst) (m : Memory) : (x.setTxBuf m).rxLen = x.rxLen := rfl
@[simp] theorem Inst.setTxBuf_rxCur (x : Inst) (m : Memory) : (x.setTxBuf m).rxCur = x.rxCur := rfl
@[simp] theorem Inst.setTxBuf_hw (x : Inst) (m : Memory) : (x.setTxBuf m).hw = x.hw := rfl
@[simp] theorem Inst.setTxBuf_initd (x : Inst) (m : Memory) : (x.setTxBuf m).initd = x.initd := rfl
@[simp] theorem Inst.setTxBuf_fault (x : Inst) (m : Memory) : (x.setTxBuf m).fault = x.fault := rfl

@[simp] theorem Inst.setTxLen_mode (x : Inst) (v : Byte) : (x.setTxLen v).mode = x.mode := rfl
@[simp] theorem Inst.setTxLen_lastStatus (x : Inst) (v : Byte) : (x.setTxLen v).lastStatus = x.lastStatus := rfl
@[simp] theorem Inst.setTxLen_repStart (x : Inst) (v : Byte) : (x.setTxLen v).repStart = x.repStart := rfl
@[simp] theorem Inst.setTxLen_txBuf (x : Inst) (v : Byte) : (x.setTxLen v).txBuf = x.txBuf := rfl
@[simp] theorem Inst.setTxLen_txLen (x : Inst) (v : Byte) : (x.setTxLen v).txLen = Reg.of v := rfl
@[simp] theorem Inst.setTxLen_txCur (x : Inst) (v : Byte) : (x.setTxLen v).txCur = x.txCur := rfl
@[simp] theorem Inst.setTxLen_rxBuf (x : Inst) (v : Byte) : (x.setTxLen v).rxBuf = x.rxBuf := rfl
@[simp] theorem Inst.setTxLen_rxLen (x : Inst) (v : Byte) : (x.setTxLen v).rxLen = x.rxLen := rfl
@[simp] theorem Inst.setTxLen_rxCur (x : Inst) (v : Byte) : (x.setTxLen v).rxCur = x.rxCur := rfl
@[simp] theorem Inst.setTxLen_hw (x : Inst) (v : Byte) : (x.setTxLen v).hw = x.hw := rfl
@[simp] theorem Inst.setTxLen_initd (x : Inst) (v : Byte) : (x.setTxLen v).initd = x.initd := rfl
@[simp] theorem Inst.setTxLen_fault (x : Inst) (v : Byte) : (x.setTxLen v).fault = x.fault := rfl

@[simp] theorem Inst.setTxCur_mode (x : Inst) (v : Byte) : (x.setTxCur v).mode = x.mode := rfl
@[simp] theorem Inst.setTxCur_lastStatus (x : Inst) (v : Byte) : (x.setTxCur v).lastStatus = x.lastStatus := rfl
@[simp] theorem Inst.setTxCur_repStart (x : Inst) (v : Byte) : (x.setTxCur v).repStart = x.repStart := rfl
@[simp] theorem Inst.setTxCur_txBuf (x : Inst) (v : Byte) : (x.setTxCur v).txBuf = x.txBuf := rfl
@[simp] theorem Inst.setTxCur_txLen (x : Inst) (v : Byte) : (x.setTxCur v).txLen = x.txLen := rfl
@[simp] theorem Inst.setTxCur_txCur (x : Inst) (v : Byte) : (x.setTxCur v).txCur = Reg.of v := rfl
@[simp] theorem Inst.setTxCur_rxBuf (x : Inst) (v : Byte) : (x.setTxCur v).rxBuf = x.rxBuf := rfl
@[simp] theorem Inst.setTxCur_rxLen (x : Inst) (v : Byte) : (x.setTxCur v).rxLen = x.rxLen := rfl
@[simp] theorem Inst.setTxCur_rxCur (x : Inst) (v : Byte) : (x.setTxCur v).rxCur = x.rxCur := rfl
@[simp] theorem Inst.setTxCur_hw (x : Inst) (v : Byte) : (x.setTxCur v).hw = x.hw := rfl
@[simp] theorem Inst.setTxCur_initd (x : Inst) (v : Byte) : (x.setTxCur v).initd = x.initd := rfl
@[simp] theorem Inst.setTxCur_fault (x : Inst) (v : Byte) : (x.setTxCur v).fault = x.fault := rfl

@[simp] theorem Inst.setRxBuf_mode (x : Inst) (m : Memory) : (x.setRxBuf m).mode = x.mode := rfl
@[simp] theorem Inst.setRxBuf_lastStatus (x : Inst) (m : Memory) : (x.setRxBuf m).lastStatus = x.lastStatus := rfl
@[simp] theorem Inst.setRxBuf_repStart (x : Inst) (m : Memory) : (x.setRxBuf m).repStart = x.repStart := rfl
@[simp] theorem Inst.setRxBuf_txBuf (x : Inst) (m : Memory) : (x.setRxBuf m).txBuf = x.txBuf := rfl
@[simp] theorem Inst.setRxBuf_txLen (x : Inst) (m : Memory) : (x.setRxBuf m).txLen = x.txLen := rfl
@[simp] theorem Inst.setRxBuf_txCur (x : Inst) (m : Memory) : (x.setRxBuf m).txCur = x.txCur := rfl
@[simp] theorem Inst.setRxBuf_rxBuf (x : Inst) (m : Memory) : (x.setRxBuf m).rxBuf = m := rfl
@[simp] theorem Inst.setRxBuf_rxLen (x : Inst) (m : Memory) : (x.setRxBuf m).rxLen = x.rxLen := rfl
@[simp] theorem Inst.setRxBuf_rxCur (x : Inst) (m : Memory) : (x.setRxBuf m).rxCur = x.rxCur := rfl
@[simp] theorem Inst.setRxBuf_hw (x : Inst) (m : Memory) : (x.setRxBuf m).hw = x.hw := rfl
@[simp] theorem Inst.setRxBuf_initd (x : Inst) (m : Memory) : (x.setRxBuf m).initd = x.initd := rfl
@[simp] theorem Inst.setRxBuf_fault (x : Inst) (m : Memory) : (x.setRxBuf m).fault = x.fault := rfl

@[simp] theorem Inst.setRxLen_mode (x : Inst) (v : Byte) : (x.setRxLen v).mode = x.mode := rfl
@[simp] theorem Inst.setRxLen_lastStatus (x : Inst) (v : Byte) : (x.setRxLen v).lastStatus = x.lastStatus := rfl
@[simp] theorem Inst.setRxLen_repStart (x : Inst) (v : Byte) : (x.setRxLen v).repStart = x.repStart := rfl
@[simp] theorem Inst.setRxLen_txBuf (x : Inst) (v : Byte) : (x.setRxLen v).txBuf = x.txBuf := rfl
@[simp] theorem Inst.setRxLen_txLen (x : Inst) (v : Byte) : (x.setRxLen v).txLen = x.txLen := rfl
@[simp] theorem Inst.setRxLen_txCur (x : Inst) (v : Byte) : (x.setRxLen v).txCur = x.txCur := rfl
@[simp] theorem Inst.setRxLen_rxBuf (x : Inst) (v : Byte) : (x.setRxLen v).rxBuf = x.rxBuf := rfl
@[simp] theorem Inst.setRxLen_rxLen (x : Inst) (v : Byte) : (x.setRxLen v).rxLen = Reg.of v := rfl
@[simp] theorem Inst.setRxLen_rxCur (x : Inst) (v : Byte) : (x.setRxLen v).rxCur = x.rxCur := rfl
@[simp] theorem Inst.setRxLen_hw (x : Inst) (v : Byte) : (x.setRxLen v).hw = x.hw := rfl
@[simp] theorem Inst.setRxLen_initd (x : Inst) (v : Byte) : (x.setRxLen v).initd = x.initd := rfl
@[simp] theorem Inst.setRxLen_fault (x : Inst) (v : Byte) : (x.setRxLen v).fault = x.fault := rfl

@[simp] theorem Inst.setRxCur_mode (x : Inst) (v : Byte) : (x.setRxCur v).mode = x.mode := rfl
@[simp] theorem Inst.setRxCur_lastStatus (x : Inst) (v : Byte) : (x.setRxCur v).lastStatus = x.lastStatus := rfl
@[simp] theorem Inst.setRxCur_repStart (x : Inst) (v : Byte) : (x.setRxCur v).repStart = x.repStart := rfl
@[simp] theorem Inst.setRxCur_txBuf (x : Inst) (v : Byte) : (x.setRxCur v).txBuf = x.txBuf := rfl
@[simp] theorem Inst.setRxCur_txLen (x : Inst) (v : Byte) : (x.setRxCur v).txLen = x.txLen := rfl
@[simp] theorem Inst.setRxCur_txCur (x : Inst) (v : Byte) : (x.setRxCur v).txCur = x.txCur := rfl
@[simp] theorem Inst.setRxCur_rxBuf (x : Inst) (v : Byte) : (x.setRxCur v).rxBuf = x.rxBuf := rfl
@[simp] theorem Inst.setRxCur_rxLen (x : Inst) (v : Byte) : (x.setRxCur v).rxLen = x.rxLen := rfl
@[simp] theorem Inst.setRxCur_rxCur (x : Inst) (v : Byte) : (x.setRxCur v).rxCur = Reg.of v := rfl
@[simp] theorem Inst.setRxCur_hw (x : Inst) (v : Byte) : (x.setRxCur v).hw = x.hw := rfl
@[simp] theorem Inst.setRxCur_initd (x : Inst) (v : Byte) : (x.setRxCur v).initd = x.initd := rfl
@[simp] theorem Inst.setRxCur_fault (x : Inst) (v : Byte) : (x.setRxCur v).fault = x.fault := rfl

@[simp] theorem Inst.setHw_mode (x : Inst) (h : Hw) : (x.setHw h).mode = x.mode := rfl
@[simp] theorem Inst.setHw_lastStatus (x : Inst) (h : Hw) : (x.setHw h).lastStatus = x.lastStatus := rfl
@[simp] theorem Inst.setHw_repStart (x : Inst) (h : Hw) : (x.setHw h).repStart = x.repStart := rfl
@[simp] theorem Inst.setHw_txBuf (x : Inst) (h : Hw) : (x.setHw h).txBuf = x.txBuf := rfl
@[simp] theorem Inst.setHw_txLen (x : Inst) (h : Hw) : (x.setHw h).txLen = x.txLen := rfl
@[simp] theorem Inst.setHw_txCur (x : Inst) (h : Hw) : (x.setHw h).txCur = x.txCur := rfl
@[simp] theorem Inst.setHw_rxBuf (x : Inst) (h : Hw) : (x.setHw h).rxBuf = x.rxBuf := rfl
@[simp] theorem Inst.setHw_rxLen (x : Inst) (h : Hw) : (x.setHw h).rxLen = x.rxLen := rfl
@[simp] theorem Inst.setHw_rxCur (x : Inst) (h : Hw) : (x.setHw h).rxCur = x.rxCur := rfl
@[simp] theorem Inst.setHw_hw (x : Inst) (h : Hw) : (x.setHw h).hw = h := rfl
@[simp] theorem Inst.setHw_initd (x : Inst) (h : Hw) : (x.setHw h).initd = x.initd := rfl
@[simp] theorem Inst.setHw_fault (x : Inst) (h : Hw) : (x.setHw h).fault = x.fault := rfl

@[simp] theorem Inst.setInitd_mode (x : Inst) : (x.setInitd).mode = x.mode := rfl
@[simp] theorem Inst.setInitd_lastStatus (x : Inst) : (x.setInitd).lastStatus = x.lastStatus := rfl
@[simp] theorem Inst.setInitd_repStart (x : Inst) : (x.setInitd).repStart = x.repStart := rfl
@[simp] theorem Inst.setInitd_txBuf (x : Inst) : (x.setInitd).txBuf = x.txBuf := rfl
@[simp] theorem Inst.setInitd_txLen (x : Inst) : (x.setInitd).txLen = x.txLen := rfl
@[simp] theorem Inst.setInitd_txCur (x : Inst) : (x.setInitd).txCur = x.txCur := rfl
@[simp] theorem Inst.setInitd_rxBuf (x : Inst) : (x.setInitd).rxBuf = x.rxBuf := rfl
@[simp] theorem Inst.setInitd_rxLen (x : Inst) : (x.setInitd).rxLen = x.rxLen := rfl
@[simp] theorem Inst.setInitd_rxCur (x : Inst) : (x.setInitd).rxCur = x.rxCur := rfl
@[simp] theorem Inst.setInitd_hw (x : Inst) : (x.setInitd).hw = x.hw := rfl
@[simp] theorem Inst.setInitd_initd (x : Inst) : (x.setInitd).initd = true := rfl
@[simp] theorem Inst.setInitd_fault (x : Inst) : (x.setInitd).fault = x.fault := rfl

@[simp] theorem Inst.raise_mode (x : Inst) (f : FaultCode) : (x.raise f).mode = x.mode := rfl
@[simp] theorem Inst.raise_lastStatus (x : Inst) (f : FaultCode) : (x.raise f).lastStatus = x.lastStatus := rfl
@[simp] theorem Inst.raise_repStart (x : Inst) (f : FaultCode) : (x.raise f).repStart = x.repStart := rfl
@[simp] theorem Inst.raise_txBuf (x : Inst) (f : FaultCode) : (x.raise f).txBuf = x.txBuf := rfl
@[simp] theorem Inst.raise_txLen (x : Inst) (f : FaultCode) : (x.raise f).txLen = x.txLen := rfl
@[simp] theorem Inst.raise_txCur (x : Inst) (f : FaultCode) : (x.raise f).txCur = x.txCur := rfl
@[simp] theorem Inst.raise_rxBuf (x : Inst) (f : FaultCode) : (x.raise f).rxBuf = x.rxBuf := rfl
@[simp] theorem Inst.raise_rxLen (x : Inst) (f : FaultCode) : (x.raise f).rxLen = x.rxLen := rfl
@[simp] theorem Inst.raise_rxCur (x : Inst) (f : FaultCode) : (x.raise f).rxCur = x.rxCur := rfl
@[simp] theorem Inst.raise_hw (x : Inst) (f : FaultCode) : (x.raise f).hw = x.hw := rfl
@[simp] theorem Inst.raise_initd (x : Inst) (f : FaultCode) : (x.raise f).initd = x.initd := rfl
@[simp] theorem Inst.raise_fault (x : Inst) (f : FaultCode) : (x.raise f).fault = some f := rfl

@[simp] theorem Inst.issueStart_mode (x : Inst) : (x.issueStart).mode = x.mode := rfl
@[simp] theorem Inst.issueStart_lastStatus (x : Inst) : (x.issueStart).lastStatus = x.lastStatus := rfl
@[simp] theorem Inst.issueStart_repStart (x : Inst) : (x.issueStart).repStart = x.repStart := rfl
@[simp] theorem Inst.issueStart_txBuf (x : Inst) : (x.issueStart).txBuf = x.txBuf := rfl
@[simp] theorem Inst.issueStart_txLen (x : Inst) : (x.issueStart).txLen = x.txLen := rfl
@[simp] theorem Inst.issueStart_txCur (x : Inst) : (x.issueStart).txCur = x.txCur := rfl
@[simp] theorem Inst.issueStart_rxBuf (x : Inst) : (x.issueStart).rxBuf = x.rxBuf := rfl
@[simp] theorem Inst.issueStart_rxLen (x : Inst) : (x.issueStart).rxLen = x.rxLen := rfl
@[simp] theorem Inst.issueStart_rxCur (x : Inst) : (x.issueStart).rxCur = x.rxCur := rfl
@[simp] theorem Inst.issueStart_hw (x : Inst) : (x.issueStart).hw = x.hw.launch .start := rfl
@[simp] theorem Inst.issueStart_initd (x : Inst) : (x.issueStart).initd = x.initd := rfl
@[simp] theorem Inst.issueStart_fault (x : Inst) : (x.issueStart).fault = x.fault := rfl

@[simp] theorem Inst.issueStop_mode (x : Inst) : (x.issueStop).mode = x.mode := rfl
@[simp] theorem Inst.issueStop_lastStatus (x : Inst) : (x.issueStop).lastStatus = x.lastStatus := rfl
@[simp] theorem Inst.issueStop_repStart (x : Inst) : (x.issueStop).repStart = x.repStart := rfl
@[simp] theorem Inst.issueStop_txBuf (x : Inst) : (x.issueStop).txBuf = x.txBuf := rfl
@[simp] theorem Inst.issueStop_txLen (x : Inst) : (x.issueStop).txLen = x.txLen := rfl
@[simp] theorem Inst.issueStop_txCur (x : Inst) : (x.issueStop).txCur = x.txCur := rfl
@[simp] theorem Inst.issueStop_rxBuf (x : Inst) : (x.issueStop).rxBuf = x.rxBuf := rfl
@[simp] theorem Inst.issueStop_rxLen (x : Inst) : (x.issueStop).rxLen = x.rxLen := rfl
@[simp] theorem Inst.issueStop_rxCur (x : Inst) : (x.issueStop).rxCur = x.rxCur := rfl
@[simp] theorem Inst.issueStop_hw (x : Inst) : (x.issueStop).hw = x.hw.halt := rfl
@[simp] theorem Inst.issueStop_initd (x : Inst) : (x.issueStop).initd = x.initd := rfl
@[simp] theorem Inst.issueStop_fault (x : Inst) : (x.issueStop).fault = x.fault := rfl

@[simp] theorem Inst.ackNext_mode (x : Inst) : (x.ackNext).mode = x.mode := rfl
@[simp] theorem Inst.ackNext_lastStatus (x : Inst) : (x.ackNext).lastStatus = x.lastStatus := rfl
@[simp] theorem Inst.ackNext_repStart (x : Inst) : (x.ackNext).repStart = x.repStart := rfl
@[simp] theorem Inst.ackNext_txBuf (x : Inst) : (x.ackNext).txBuf = x.txBuf := rfl
@[simp] theorem Inst.ackNext_txLen (x : Inst) : (x.ackNext).txLen = x.txLen := rfl
@[simp] theorem Inst.ackNext_txCur (x : Inst) : (x.ackNext).txCur = x.txCur := rfl
@[simp] theorem Inst.ackNext_rxBuf (x : Inst) : (x.ackNext).rxBuf = x.rxBuf := rfl
@[simp] theorem Inst.ackNext_rxLen (x : Inst) : (x.ackNext).rxLen = x.rxLen := rfl
@[simp] theorem Inst.ackNext_rxCur (x : Inst) : (x.ackNext).rxCur = x.rxCur := rfl
@[simp] theorem Inst.ackNext_hw (x : Inst) : (x.ackNext).hw = x.hw.launch .ackNext := rfl
@[simp] theorem Inst.ackNext_initd (x : Inst) : (x.ackNext).initd = x.initd := rfl
@[simp] theorem Inst.ackNext_fault (x : Inst) : (x.ackNext).fault = x.fault := rfl

@[simp] theorem Inst.nackNext_mode (x : Inst) : (x.nackNext).mode = x.mode := rfl
@[simp] theorem Inst.nackNext_lastStatus (x : Inst) : (x.nackNext).lastStatus = x.lastStatus := rfl
@[simp] theorem Inst.nackNext_repStart (x : Inst) : (x.nackNext).repStart = x.repStart := rfl
@[simp] theorem Inst.nackNext_txBuf (x : Inst) : (x.nackNext).txBuf = x.txBuf := rfl
@[simp] theorem Inst.nackNext_txLen (x : Inst) : (x.nackNext).txLen = x.txLen := rfl
@[simp] theorem Inst.nackNext_txCur (x : Inst) : (x.nackNext).txCur = x.txCur := rfl
@[simp] theorem Inst.nackNext_rxBuf (x : Inst) : (x.nackNext).rxBuf = x.rxBuf := rfl
@[simp] theorem Inst.nackNext_rxLen (x : Inst) : (x.nackNext).rxLen = x.rxLen := rfl
@[simp] theorem Inst.nackNext_rxCur (x : Inst) : (x.nackNext).rxCur = x.rxCur := rfl
@[simp] theorem Inst.nackNext_hw (x : Inst) : (x.nackNext).hw = x.hw.launch .nackNext := rfl
@[simp] theorem Inst.nackNext_initd (x : Inst) : (x.nackNext).initd = x.initd := rfl
@[simp] theorem Inst.nackNext_fault (x : Inst) : (x.nackNext).fault = x.fault := rfl

@[simp] theorem Inst.setDivisor_mode (x : Inst) (v : Byte) : (x.setDivisor v).mode = x.mode := rfl
@[simp] theorem Inst.setDivisor_lastStatus (x : Inst) (v : Byte) : (x.setDivisor v).lastStatus = x.lastStatus := rfl
@[simp] theorem Inst.setDivisor_repStart (x : Inst) (v : Byte) : (x.setDivisor v).repStart = x.repStart := rfl
@[simp] theorem Inst.setDivisor_txBuf (x : Inst) (v : Byte) : (x.setDivisor v).txBuf = x.txBuf := rfl
@[simp] theorem Inst.setDivisor_txLen (x : Inst) (v : Byte) : (x.setDivisor v).txLen = x.txLen := rfl
@[simp] theorem Inst.setDivisor_txCur (x : Inst) (v : Byte) : (x.setDivisor v).txCur = x.txCur := rfl
@[simp] theorem Inst.setDivisor_rxBuf (x : Inst) (v : Byte) : (x.setDivisor v).rxBuf = x.rxBuf := rfl
@[simp] theorem Inst.setDivisor_rxLen (x : Inst) (v : Byte) : (x.setDivisor v).rxLen = x.rxLen := rfl
@[simp] theorem Inst.setDivisor_rxCur (x : Inst) (v : Byte) : (x.setDivisor v).rxCur = x.rxCur := rfl
@[simp] theorem Inst.setDivisor_hw (x : Inst) (v : Byte) : (x.setDivisor v).hw = x.hw.putDivisor v := rfl
@[simp] theorem Inst.setDivisor_initd (x : Inst) (v : Byte) : (x.setDivisor v).initd = x.initd := rfl
@[simp] theorem Inst.setDivisor_fault (x : Inst) (v : Byte) : (x.setDivisor v).fault = x.fault := rfl

@[simp] theorem Inst.enable_mode (x : Inst) : (x.enable).mode = x.mode := rfl
@[simp] theorem Inst.enable_lastStatus (x : Inst) : (x.enable).lastStatus = x.lastStatus := rfl
@[simp] theorem Inst.enable_repStart (x : Inst) : (x.enable).repStart = x.repStart := rfl
@[simp] theorem Inst.enable_txBuf (x : Inst) : (x.enable).txBuf = x.txBuf := rfl
@[simp] theorem Inst.enable_txLen (x : Inst) : (x.enable).txLen = x.txLen := rfl
@[simp] theorem Inst.enable_txCur (x : Inst) : (x.enable).txCur = x.txCur := rfl
@[simp] theorem Inst.enable_rxBuf (x : Inst) : (x.enable).rxBuf = x.rxBuf := rfl
@[simp] theorem Inst.enable_rxLen (x : Inst) : (x.enable).rxLen = x.rxLen := rfl
@[simp] theorem Inst.enable_rxCur (x : Inst) : (x.enable).rxCur = x.rxCur := rfl
@[simp] theorem Inst.enable_hw (x : Inst) : (x.enable).hw = x.hw.turnOn := rfl
@[simp] theorem Inst.enable_initd (x : Inst) : (x.enable).initd = x.initd := rfl
@[simp] theorem Inst.enable_fault (x : Inst) : (x.enable).fault = x.fault := rfl

@[simp] theorem Inst.enterHandler_mode (x : Inst) (raw : Byte) (d : Option Byte) : (x.enterHandler raw d).mode = x.mode := rfl
@[simp] theorem Inst.enterHandler_lastStatus (x : Inst) (raw : Byte) (d : Option Byte) : (x.enterHandler raw d).lastStatus = x.lastStatus := rfl
@[simp] theorem Inst.enterHandler_repStart (x : Inst) (raw : Byte) (d : Option Byte) : (x.enterHandler raw d).repStart = x.repStart := rfl
@[simp] theorem Inst.enterHandler_txBuf (x : Inst) (raw : Byte) (d : Option Byte) : (x.enterHandler raw d).txBuf = x.txBuf := rfl
@[simp] theorem Inst.enterHandler_txLen (x : Inst) (raw : Byte) (d : Option Byte) : (x.enterHandler raw d).txLen = x.txLen := rfl
@[simp] theorem Inst.enterHandler_txCur (x : Inst) (raw : Byte) (d : Option Byte) : (x.enterHandler raw d).txCur = x.txCur := rfl
@[simp] theorem Inst.enterHandler_rxBuf (x : Inst) (raw : Byte) (d : Option Byte) : (x.enterHandler raw d).rxBuf = x.rxBuf := rfl
@[simp] theorem Inst.enterHandler_rxLen (x : Inst) (raw : Byte) (d : Option Byte) : (x.enterHandler raw d).rxLen = x.rxLen := rfl
@[simp] theorem Inst.enterHandler_rxCur (x : Inst) (raw : Byte) (d : Option Byte) : (x.enterHandler raw d).rxCur = x.rxCur := rfl
@[simp] theorem Inst.enterHandler_hw (x : Inst) (raw : Byte) (d : Option Byte) : (x.enterHandler raw d).hw = x.hw.arrive raw d := rfl
@[simp] theorem Inst.enterHandler_initd (x : Inst) (raw : Byte) (d : Option Byte) : (x.enterHandler raw d).initd = x.initd := rfl
@[simp] theorem Inst.enterHandler_fault (x : Inst) (raw : Byte) (d : Option Byte) : (x.enterHandler raw d).fault = x.fault := rfl

/-! ## `HW` -/

@[simp] theorem Hw.launch_en (h : Hw) (op : TraceOp) : (h.launch op).en = h.en := rfl
@[simp] theorem Hw.launch_ie (h : Hw) (op : TraceOp) : (h.launch op).ie = h.ie := rfl
@[simp] theorem Hw.launch_div (h : Hw) (op : TraceOp) : (h.launch op).div = h.div := rfl
@[simp] theorem Hw.launch_pend (h : Hw) (op : TraceOp) : (h.launch op).pend = false := rfl
@[simp] theorem Hw.launch_busy (h : Hw) (op : TraceOp) : (h.launch op).busy = true := rfl
@[simp] theorem Hw.launch_status (h : Hw) (op : TraceOp) : (h.launch op).status = h.status := rfl
@[simp] theorem Hw.launch_data (h : Hw) (op : TraceOp) : (h.launch op).data = h.data := rfl
@[simp] theorem Hw.launch_trace (h : Hw) (op : TraceOp) : (h.launch op).trace = h.trace ++ [op] := rfl

@[simp] theorem Hw.halt_en (h : Hw) : (h.halt).en = h.en := rfl
@[simp] theorem Hw.halt_ie (h : Hw) : (h.halt).ie = h.ie := rfl
@[simp] theorem Hw.halt_div (h : Hw) : (h.halt).div = h.div := rfl
@[simp] theorem Hw.halt_pend (h : Hw) : (h.halt).pend = false := rfl
@[simp] theorem Hw.halt_busy (h : Hw) : (h.halt).busy = false := rfl
@[simp] theorem Hw.halt_status (h : Hw) : (h.halt).status = h.status := rfl
@[simp] theorem Hw.halt_data (h : Hw) : (h.halt).data = h.data := rfl
@[simp] theorem Hw.halt_trace (h : Hw) : (h.halt).trace = h.trace ++ [.stop] := rfl

@[simp] theorem Hw.putDivisor_en (h : Hw) (v : Byte) : (h.putDivisor v).en = h.en := rfl
@[simp] theorem Hw.putDivisor_ie (h : Hw) (v : Byte) : (h.putDivisor v).ie = h.ie := rfl
@[simp] theorem Hw.putDivisor_div (h : Hw) (v : Byte) : (h.putDivisor v).div = Reg.of v := rfl
@[simp] theorem Hw.putDivisor_pend (h : Hw) (v : Byte) : (h.putDivisor v).pend = h.pend := rfl
@[simp] theorem Hw.putDivisor_busy (h : Hw) (v : Byte) : (h.putDivisor v).busy = h.busy := rfl
@[simp] theorem Hw.putDivisor_status (h : Hw) (v : Byte) : (h.putDivisor v).status = h.status := rfl
@[simp] theorem Hw.putDivisor_data (h : Hw) (v : Byte) : (h.putDivisor v).data = h.data := rfl
@[simp] theorem Hw.putDivisor_trace (h : Hw) (v : Byte) : (h.putDivisor v).trace = h.trace ++ [.setDivisor v] := rfl

@[simp] theorem Hw.turnOn_en (h : Hw) : (h.turnOn).en = true := rfl
@[simp] theorem Hw.turnOn_ie (h : Hw) : (h.turnOn).ie = true := rfl
@[simp] theorem Hw.turnOn_div (h : Hw) : (h.turnOn).div = h.div := rfl
@[simp] theorem Hw.turnOn_pend (h : Hw) : (h.turnOn).pend = h.pend := rfl
@[simp] theorem Hw.turnOn_busy (h : Hw) : (h.turnOn).busy = h.busy := rfl
@[simp] theorem Hw.turnOn_status (h : Hw) : (h.turnOn).status = h.status := rfl
@[simp] theorem Hw.turnOn_data (h : Hw) : (h.turnOn).data = h.data := rfl
@[simp] theorem Hw.turnOn_trace (h : Hw) : (h.turnOn).trace = h.trace ++ [.enable] := rfl

@[simp] theorem Hw.putData_en (h : Hw) (v : Byte) : (h.putData v).en = h.en := rfl
@[simp] theorem Hw.putData_ie (h : Hw) (v : Byte) : (h.putData v).ie = h.ie := rfl
@[simp] theorem Hw.putData_div (h : Hw) (v : Byte) : (h.putData v).div = h.div := rfl
@[simp] theorem Hw.putData_pend (h : Hw) (v : Byte) : (h.putData v).pend = h.pend := rfl
@[simp] theorem Hw.putData_busy (h : Hw) (v : Byte) : (h.putData v).busy = h.busy := rfl
@[simp] theorem Hw.putData_status (h : Hw) (v : Byte) : (h.putData v).status = h.status := rfl
@[simp] theorem Hw.putData_data (h : Hw) (v : Byte) : (h.putData v).data = Reg.of v := rfl
@[simp] theorem Hw.putData_trace (h : Hw) (v : Byte) : (h.putData v).trace = h.trace := rfl

@[simp] theorem Hw.release_en (h : Hw) : (h.release).en = h.en := rfl
@[simp] theorem Hw.release_ie (h : Hw) : (h.release).ie = h.ie := rfl
@[simp] theorem Hw.release_div (h : Hw) : (h.release).div = h.div := rfl
@[simp] theorem Hw.release_pend (h : Hw) : (h.release).pend = false := rfl
@[simp] theorem Hw.release_busy (h : Hw) : (h.release).busy = true := rfl
@[simp] theorem Hw.release_status (h : Hw) : (h.release).status = h.status := rfl
@[simp] theorem Hw.release_data (h : Hw) : (h.release).data = h.data := rfl
@[simp] theorem Hw.release_trace (h : Hw) : (h.release).trace = h.trace := rfl

@[simp] theorem Hw.arrive_some_en (h : Hw) (raw v : Byte) : (h.arrive raw (some v)).en = h.en := rfl
@[simp] theorem Hw.arrive_some_ie (h : Hw) (raw v : Byte) : (h.arrive raw (some v)).ie = h.ie := rfl
@[simp] theorem Hw.arrive_some_div (h : Hw) (raw v : Byte) : (h.arrive raw (some v)).div = h.div := rfl
@[simp] theorem Hw.arrive_some_pend (h : Hw) (raw v : Byte) : (h.arrive raw (some v)).pend = true := rfl
@[simp] theorem Hw.arrive_some_busy (h : Hw) (raw v : Byte) : (h.arrive raw (some v)).busy = false := rfl
@[simp] theorem Hw.arrive_some_status (h : Hw) (raw v : Byte) : (h.arrive raw (some v)).status = Reg.of raw := rfl
@[simp] theorem Hw.arrive_some_data (h : Hw) (raw v : Byte) : (h.arrive raw (some v)).data = Reg.of v := rfl
@[simp] theorem Hw.arrive_some_trace (h : Hw) (raw v : Byte) : (h.arrive raw (some v)).trace = h.trace := rfl

@[simp] theorem Hw.arrive_none_en (h : Hw) (raw : Byte) : (h.arrive raw none).en = h.en := rfl
@[simp] theorem Hw.arrive_none_ie (h : Hw) (raw : Byte) : (h.arrive raw none).ie = h.ie := rfl
@[simp] theorem Hw.arrive_none_div (h : Hw) (raw : Byte) : (h.arrive raw none).div = h.div := rfl
@[simp] theorem Hw.arrive_none_pend (h : Hw) (raw : Byte) : (h.arrive raw none).pend = true := rfl
@[simp] theorem Hw.arrive_none_busy (h : Hw) (raw : Byte) : (h.arrive raw none).busy = false := rfl
@[simp] theorem Hw.arrive_none_status (h : Hw) (raw : Byte) : (h.arrive raw none).status = Reg.of raw := rfl
@[simp] theorem Hw.arrive_none_data (h : Hw) (raw : Byte) : (h.arrive raw none).data = h.data := rfl
@[simp] theorem Hw.arrive_none_trace (h : Hw) (raw : Byte) : (h.arrive raw none).trace = h.trace := rfl

/-! ## The system -/

@[simp] theorem State.setInst_params (s : State) (k : Nat) (x : Inst) : (s.setInst k x).params = s.params := rfl
@[simp] theorem State.setInst_insts (s : State) (k : Nat) (x : Inst) : (s.setInst k x).insts = s.insts.set k x := rfl
@[simp] theorem State.setInst_fg (s : State) (k : Nat) (x : Inst) : (s.setInst k x).fg = s.fg := rfl
@[simp] theorem State.setInst_reply (s : State) (k : Nat) (x : Inst) : (s.setInst k x).reply = s.reply := rfl
@[simp] theorem State.setInst_evtReply (s : State) (k : Nat) (x : Inst) : (s.setInst k x).evtReply = s.evtReply := rfl
@[simp] theorem State.setInst_hwReply (s : State) (k : Nat) (x : Inst) : (s.setInst k x).hwReply = s.hwReply := rfl
@[simp] theorem State.setInst_inbox (s : State) (k : Nat) (x : Inst) : (s.setInst k x).inbox = s.inbox := rfl
@[simp] theorem State.setInst_draws (s : State) (k : Nat) (x : Inst) : (s.setInst k x).draws = s.draws := rfl

@[simp] theorem State.refuse_params (s : State) (why : RefuseReason) : (s.refuse why).params = s.params := rfl
@[simp] theorem State.refuse_insts (s : State) (why : RefuseReason) : (s.refuse why).insts = s.insts := rfl
@[simp] theorem State.refuse_fg (s : State) (why : RefuseReason) : (s.refuse why).fg = s.fg := rfl
@[simp] theorem State.refuse_reply (s : State) (why : RefuseReason) : (s.refuse why).reply = .refused why := rfl
@[simp] theorem State.refuse_evtReply (s : State) (why : RefuseReason) : (s.refuse why).evtReply = s.evtReply := rfl
@[simp] theorem State.refuse_hwReply (s : State) (why : RefuseReason) : (s.refuse why).hwReply = s.hwReply := rfl
@[simp] theorem State.refuse_inbox (s : State) (why : RefuseReason) : (s.refuse why).inbox = s.inbox := rfl
@[simp] theorem State.refuse_draws (s : State) (why : RefuseReason) : (s.refuse why).draws = s.draws := rfl

@[simp] theorem State.hold_params (s : State) (i : Instr) : (s.hold i).params = s.params := rfl
@[simp] theorem State.hold_insts (s : State) (i : Instr) : (s.hold i).insts = s.insts := rfl
@[simp] theorem State.hold_fg (s : State) (i : Instr) : (s.hold i).fg = .held i := rfl
@[simp] theorem State.hold_reply (s : State) (i : Instr) : (s.hold i).reply = .noReply := rfl
@[simp] theorem State.hold_evtReply (s : State) (i : Instr) : (s.hold i).evtReply = s.evtReply := rfl
@[simp] theorem State.hold_hwReply (s : State) (i : Instr) : (s.hold i).hwReply = s.hwReply := rfl
@[simp] theorem State.hold_inbox (s : State) (i : Instr) : (s.hold i).inbox = s.inbox := rfl
@[simp] theorem State.hold_draws (s : State) (i : Instr) : (s.hold i).draws = s.draws := rfl

@[simp] theorem State.answerEvt_params (s : State) (r : EvtReply) : (s.answerEvt r).params = s.params := rfl
@[simp] theorem State.answerEvt_insts (s : State) (r : EvtReply) : (s.answerEvt r).insts = s.insts := rfl
@[simp] theorem State.answerEvt_fg (s : State) (r : EvtReply) : (s.answerEvt r).fg = s.fg := rfl
@[simp] theorem State.answerEvt_reply (s : State) (r : EvtReply) : (s.answerEvt r).reply = s.reply := rfl
@[simp] theorem State.answerEvt_evtReply (s : State) (r : EvtReply) : (s.answerEvt r).evtReply = r := rfl
@[simp] theorem State.answerEvt_hwReply (s : State) (r : EvtReply) : (s.answerEvt r).hwReply = s.hwReply := rfl
@[simp] theorem State.answerEvt_inbox (s : State) (r : EvtReply) : (s.answerEvt r).inbox = s.inbox := rfl
@[simp] theorem State.answerEvt_draws (s : State) (r : EvtReply) : (s.answerEvt r).draws = s.draws := rfl

@[simp] theorem State.arrive_params (s : State) : (s.arrive).params = s.params := rfl
@[simp] theorem State.arrive_insts (s : State) : (s.arrive).insts = s.insts := rfl
@[simp] theorem State.arrive_fg (s : State) : (s.arrive).fg = s.fg := rfl
@[simp] theorem State.arrive_reply (s : State) : (s.arrive).reply = s.reply := rfl
@[simp] theorem State.arrive_evtReply (s : State) : (s.arrive).evtReply = s.evtReply := rfl
@[simp] theorem State.arrive_hwReply (s : State) : (s.arrive).hwReply = s.hwReply := rfl
@[simp] theorem State.arrive_inbox (s : State) : (s.arrive).inbox = s.inbox ++ (Config.environment s.draws).toList := rfl
@[simp] theorem State.arrive_draws (s : State) : (s.arrive).draws = s.draws + 1 := rfl

@[simp] theorem State.returnOk_params (s : State) (f : ApiFn) : (s.returnOk f).params = s.params := rfl
@[simp] theorem State.returnOk_insts (s : State) (f : ApiFn) : (s.returnOk f).insts = s.insts := rfl
@[simp] theorem State.returnOk_fg (s : State) (f : ApiFn) : (s.returnOk f).fg = .idle := rfl
@[simp] theorem State.returnOk_reply (s : State) (f : ApiFn) : (s.returnOk f).reply = .api f .ok := rfl
@[simp] theorem State.returnOk_evtReply (s : State) (f : ApiFn) : (s.returnOk f).evtReply = s.evtReply := rfl
@[simp] theorem State.returnOk_hwReply (s : State) (f : ApiFn) : (s.returnOk f).hwReply = s.hwReply := rfl
@[simp] theorem State.returnOk_inbox (s : State) (f : ApiFn) : (s.returnOk f).inbox = s.inbox := rfl
@[simp] theorem State.returnOk_draws (s : State) (f : ApiFn) : (s.returnOk f).draws = s.draws := rfl

@[simp] theorem State.post_params (s : State) (m : Msg) : (s.post m).params = s.params := rfl
@[simp] theorem State.post_insts (s : State) (m : Msg) : (s.post m).insts = s.insts := rfl
@[simp] theorem State.post_fg (s : State) (m : Msg) : (s.post m).fg = .idle := rfl
@[simp] theorem State.post_reply (s : State) (m : Msg) : (s.post m).reply = s.reply := rfl
@[simp] theorem State.post_evtReply (s : State) (m : Msg) : (s.post m).evtReply = s.evtReply := rfl
@[simp] theorem State.post_hwReply (s : State) (m : Msg) : (s.post m).hwReply = s.hwReply := rfl
@[simp] theorem State.post_inbox (s : State) (m : Msg) : (s.post m).inbox = m :: s.inbox := rfl
@[simp] theorem State.post_draws (s : State) (m : Msg) : (s.post m).draws = s.draws := rfl

@[simp] theorem State.complete_params (s : State) (i : Instr) (k : Nat) (x : Inst) (r : Reply) : (s.complete i k x r).params = s.params := rfl
@[simp] theorem State.complete_evtReply (s : State) (i : Instr) (k : Nat) (x : Inst) (r : Reply) : (s.complete i k x r).evtReply = s.evtReply := rfl
@[simp] theorem State.complete_hwReply (s : State) (i : Instr) (k : Nat) (x : Inst) (r : Reply) : (s.complete i k x r).hwReply = s.hwReply := rfl
@[simp] theorem State.complete_inbox (s : State) (i : Instr) (k : Nat) (x : Inst) (r : Reply) : (s.complete i k x r).inbox = s.inbox := rfl
@[simp] theorem State.complete_draws (s : State) (i : Instr) (k : Nat) (x : Inst) (r : Reply) : (s.complete i k x r).draws = s.draws := rfl
@[simp] theorem State.complete_insts (s : State) (i : Instr) (k : Nat) (x : Inst) (r : Reply) :
    (s.complete i k x r).insts = s.insts.set k x := rfl

@[simp] theorem State.acceptStep_params (s : State) (i : Instr) (k : Nat) (a : AcceptStep) (todo : List AcceptStep) (x : Inst) :
    (s.acceptStep i k a todo x).params = s.params := rfl
@[simp] theorem State.acceptStep_reply (s : State) (i : Instr) (k : Nat) (a : AcceptStep) (todo : List AcceptStep) (x : Inst) :
    (s.acceptStep i k a todo x).reply = s.reply := rfl
@[simp] theorem State.acceptStep_evtReply (s : State) (i : Instr) (k : Nat) (a : AcceptStep) (todo : List AcceptStep) (x : Inst) :
    (s.acceptStep i k a todo x).evtReply = s.evtReply := rfl
@[simp] theorem State.acceptStep_hwReply (s : State) (i : Instr) (k : Nat) (a : AcceptStep) (todo : List AcceptStep) (x : Inst) :
    (s.acceptStep i k a todo x).hwReply = s.hwReply := rfl
@[simp] theorem State.acceptStep_inbox (s : State) (i : Instr) (k : Nat) (a : AcceptStep) (todo : List AcceptStep) (x : Inst) :
    (s.acceptStep i k a todo x).inbox = s.inbox := rfl
@[simp] theorem State.acceptStep_draws (s : State) (i : Instr) (k : Nat) (a : AcceptStep) (todo : List AcceptStep) (x : Inst) :
    (s.acceptStep i k a todo x).draws = s.draws := rfl
@[simp] theorem State.acceptStep_insts (s : State) (i : Instr) (k : Nat) (a : AcceptStep) (todo : List AcceptStep) (x : Inst) :
    (s.acceptStep i k a todo x).insts = s.insts.set k (a.apply s.params x) := rfl


/-- What a command that raised no fault leaves: its answer, and the Foreground free. -/
theorem State.complete_of_no_fault (s : State) (i : Instr) (k : Nat) (x : Inst) (r : Reply) (h : x.fault = none) :
    s.complete i k x r = { s with insts := s.insts.set k x, fg := .idle, reply := r } := by
  simp only [State.complete, h]

/-- What a command that raised a fault leaves: no answer, and the Foreground still in it. -/
theorem State.complete_of_fault (s : State) (i : Instr) (k : Nat) (x : Inst) (r : Reply) (f : FaultCode)
    (h : x.fault = some f) :
    s.complete i k x r = { s with insts := s.insts.set k x, fg := .held i, reply := .noReply } := by
  simp only [State.complete, h]

@[simp] theorem Reg.of_val {α : Type} (v : α) : (Reg.of v).val = v := rfl
@[simp] theorem Reg.of_written {α : Type} (v : α) : (Reg.of v).written = true := rfl
@[simp] theorem Inst.leaveHandler_eq (x : Inst) : x.leaveHandler = x := rfl

end Sys2Proof.Machine
end

