-- ==== Sys2Proof/Laws/Memory.lean ====
section
/-! SUPPORT. The buffers: read after write, the canonical form, the capacity (R51-R55). -/

namespace Sys2Proof.Machine

@[simp] theorem Memory.read_write_same (m : Memory) (i : Nat) (v : Byte) : Memory.read (Memory.write m i v) i = some v := by
  induction m with
  | nil => simp [Memory.write, Memory.read]
  | cons c m ih =>
    obtain ⟨a, b⟩ := c
    simp only [Memory.write]
    split
    · simp [Memory.read]
    · split
      · simp [Memory.read]
      · rename_i h1 h2
        simp [Memory.read, ih, Ne.symm h2]

theorem Memory.read_write_other (m : Memory) {i j : Nat} (v : Byte) (h : j ≠ i) :
    Memory.read (Memory.write m i v) j = Memory.read m j := by
  induction m with
  | nil => simp [Memory.write, Memory.read, Ne.symm h]
  | cons c m ih =>
    obtain ⟨a, b⟩ := c
    simp only [Memory.write]
    split
    · simp [Memory.read, Ne.symm h]
    · split
      · rename_i h1 h2
        subst h2
        simp [Memory.read, Ne.symm h]
      · simp [Memory.read, ih]

/-- A byte after writing a list from `i` on: the list's inside its range, the old one outside (R53). -/
theorem Memory.read_writeFrom (m : Memory) (i : Nat) (vs : List Byte) (j : Nat) :
    Memory.read (Memory.writeFrom m i vs) j = if i ≤ j ∧ j < i + vs.length then vs[j - i]? else Memory.read m j := by
  induction vs generalizing m i with
  | nil =>
    have : ¬ (i ≤ j ∧ j < i + ([] : List Byte).length) := by simp
    rw [if_neg this]
    rfl
  | cons v vs ih =>
    simp only [Memory.writeFrom, ih, List.length_cons]
    by_cases h : j = i
    · subst h
      simp
    · by_cases h1 : i + 1 ≤ j ∧ j < i + 1 + vs.length
      · have h2 : i ≤ j ∧ j < i + (vs.length + 1) := by omega
        have h3 : j - i = (j - (i + 1)) + 1 := by omega
        rw [if_pos h1, if_pos h2, h3, List.getElem?_cons_succ]
      · have h2 : ¬ (i ≤ j ∧ j < i + (vs.length + 1)) := by omega
        rw [if_neg h1, if_neg h2, Memory.read_write_other m v h]

/-- A cell of a written buffer is the new one or an old one. -/
theorem Memory.mem_write {m : Memory} {i : Nat} {v : Byte} {c : Host.Cell} (h : c ∈ Memory.write m i v) :
    c = (i, v) ∨ c ∈ m := by
  induction m with
  | nil => simpa [Memory.write] using h
  | cons d m ih =>
    obtain ⟨a, b⟩ := d
    simp only [Memory.write] at h
    split at h
    · simpa using h
    · split at h
      · rcases List.mem_cons.mp h with h | h
        · exact .inl h
        · exact .inr (List.mem_cons_of_mem _ h)
      · rcases List.mem_cons.mp h with h | h
        · exact .inr (h ▸ List.mem_cons_self)
        · exact (ih h).imp id (List.mem_cons_of_mem _)

theorem Memory.write_wf {m : Memory} (i : Nat) (v : Byte) (h : Memory.wf m = true) :
    Memory.wf (Memory.write m i v) = true := by
  induction m with
  | nil => simp [Memory.write, Memory.wf]
  | cons d m ih =>
    obtain ⟨a, b⟩ := d
    simp only [Memory.wf, Bool.and_eq_true, List.all_eq_true, decide_eq_true_eq] at h
    simp only [Memory.write]
    split
    · rename_i hia
      simp only [Memory.wf, Bool.and_eq_true, List.all_eq_true, decide_eq_true_eq]
      refine ⟨fun c hc => ?_, h⟩
      rcases List.mem_cons.mp hc with rfl | hc
      · exact hia
      · exact Nat.lt_trans hia (h.1 c hc)
    · split
      · rename_i hia
        subst hia
        simp only [Memory.wf, Bool.and_eq_true, List.all_eq_true, decide_eq_true_eq]
        exact h
      · simp only [Memory.wf, Bool.and_eq_true, List.all_eq_true, decide_eq_true_eq]
        refine ⟨fun c hc => ?_, ih h.2⟩
        rcases Memory.mem_write hc with rfl | hc
        · show a < i
          omega
        · exact h.1 c hc

theorem Memory.write_below {m : Memory} {cap i : Nat} (v : Byte) (h : Memory.below cap m = true) (hi : i < cap) :
    Memory.below cap (Memory.write m i v) = true := by
  simp only [Memory.below, List.all_eq_true, decide_eq_true_eq] at *
  intro c hc
  rcases Memory.mem_write hc with rfl | hc
  · exact hi
  · exact h c hc

theorem Memory.writeFrom_wf {m : Memory} (i : Nat) (vs : List Byte) (h : Memory.wf m = true) :
    Memory.wf (Memory.writeFrom m i vs) = true := by
  induction vs generalizing m i with
  | nil => exact h
  | cons v vs ih => exact ih (i + 1) (Memory.write_wf i v h)

theorem Memory.writeFrom_below {m : Memory} {cap i : Nat} {vs : List Byte} (h : Memory.below cap m = true)
    (hi : i + vs.length ≤ cap) : Memory.below cap (Memory.writeFrom m i vs) = true := by
  induction vs generalizing m i with
  | nil => exact h
  | cons v vs ih =>
    simp only [List.length_cons] at hi
    exact ih (Memory.write_below v h (by omega)) (by omega)

/-- A read inside the capacity of a written element. -/
theorem Memory.load_of_read {m : Memory} {cap i : Nat} {name : RegName} {x : Inst} {f : Byte → Inst} {v : Byte}
    (hi : i < cap) (h : Memory.read m i = some v) : Memory.load m cap i name x f = f v := by
  simp [Memory.load, hi, h]

/-- A read inside the capacity of an element that nothing wrote raises UNWRITTEN_READ (R52, R55). -/
theorem Memory.load_of_unwritten {m : Memory} {cap i : Nat} {name : RegName} {x : Inst} {f : Byte → Inst}
    (hi : i < cap) (h : Memory.read m i = none) : Memory.load m cap i name x f = x.raise (.unwrittenRead name) := by
  simp [Memory.load, hi, h]

theorem Inst.storeTx_of_lt {cap i : Nat} (v : Byte) (x : Inst) (h : i < cap) :
    x.storeTx cap i v = x.setTxBuf (Memory.write x.txBuf i v) := by
  simp [Inst.storeTx, h]

theorem Inst.storeRx_of_lt {cap i : Nat} (v : Byte) (x : Inst) (h : i < cap) :
    x.storeRx cap i v = x.setRxBuf (Memory.write x.rxBuf i v) := by
  simp [Inst.storeRx, h]

end Sys2Proof.Machine
end

