-- ==== Sys2Proof/Laws/Ops.lean ====
section
/-! SUPPORT. What each shared operation does, once: registers, faults, hardware operations, the Dispatcher's actions, the
frames of commands, events and hardware operations. -/

namespace Sys2Proof.Machine

/-! ## Registers and faults -/

theorem Reg.read_of_written {α : Type} {r : Reg α} {name : RegName} {x : Inst} {f : α → Inst} (h : r.written = true) :
    r.read name x f = f r.val := by
  simp [Reg.read, h]

theorem Reg.read_of_unwritten {α : Type} {r : Reg α} {name : RegName} {x : Inst} {f : α → Inst}
    (h : r.written = false) : r.read name x f = x.raise (.unwrittenRead name) := by
  simp [Reg.read, h]

theorem Inst.andThen_of_no_fault {x : Inst} {f : Inst → Inst} (h : x.fault = none) : x.andThen f = f x := by
  simp [Inst.andThen, h]

theorem Inst.andThen_of_fault {x : Inst} {f : Inst → Inst} {c : FaultCode} (h : x.fault = some c) : x.andThen f = x := by
  simp [Inst.andThen, h]

/-! ## Hardware operations -/

theorem Inst.continueTx_of_written {x : Inst} (h : x.hw.data.written = true) :
    x.continueTx = x.setHw (x.hw.launch (.cont x.hw.data.val)) := by
  simp [Inst.continueTx, Reg.read, h]

theorem Inst.writeData_of_pend {x : Inst} (v : Byte) (h : x.hw.pend = true) : x.writeData v = x.setHw (x.hw.putData v) := by
  simp [Inst.writeData, h]

theorem Inst.writeData_of_no_pend {x : Inst} (v : Byte) (h : x.hw.pend = false) :
    x.writeData v = x.raise (.dataWriteCollision v) := by
  simp [Inst.writeData, h]

/-! ## The Dispatcher's actions -/

/-- `finish()` with a written REP_START (R132). -/
theorem finish_of_written (p : Params) {x : Inst} (h : x.repStart.written = true) :
    finish p x =
      if x.repStart.val then (x.setLastStatus p.success).issueStart
      else ((x.setMode .ready).setLastStatus p.success).issueStop := by
  simp [finish, Reg.read, h]

/-- `load_or_finish()` while a byte remains, at a delivery (`pend` on), with the byte written (R131). -/
theorem loadOrFinish_load {p : Params} {x : Inst} {v : Byte} (hf : x.fault = none) (hc : x.txCur.written = true)
    (hl : x.txLen.written = true) (hlt : x.txCur.val.toNat < x.txLen.val.toNat) (hcap : x.txCur.val.toNat < p.txCap)
    (hv : Memory.read x.txBuf x.txCur.val.toNat = some v) (hp : x.hw.pend = true) :
    loadOrFinish p x =
      { x with
        txCur := Reg.of (x.txCur.val + 1)
        lastStatus := Reg.of p.noInfo
        hw := (x.hw.putData v).launch (.cont v) } := by
  rw [loadOrFinish, Reg.read_of_written hc, Reg.read_of_written hl, if_pos hlt, Memory.load_of_read hcap hv, loadByte,
    Inst.writeData_of_pend v hp, Inst.andThen_of_no_fault (by simpa using hf), Inst.continueTx_of_written (by simp)]
  rfl

/-- `load_or_finish()` when every byte is sent (R131). -/
theorem loadOrFinish_finish {p : Params} {x : Inst} (hc : x.txCur.written = true) (hl : x.txLen.written = true)
    (hge : x.txLen.val.toNat ≤ x.txCur.val.toNat) : loadOrFinish p x = finish p x := by
  rw [loadOrFinish, Reg.read_of_written hc, Reg.read_of_written hl, if_neg (by omega)]

/-- `ack_decision()` with written lengths (R133). -/
theorem ackDecision_of_written {p : Params} {x : Inst} (hl : x.rxLen.written = true) (hc : x.rxCur.written = true) :
    ackDecision p x =
      if 1 < remaining x.rxLen.val x.rxCur.val then (x.setLastStatus p.noInfo).ackNext
      else (x.setLastStatus p.noInfo).nackNext := by
  rw [ackDecision, Reg.read_of_written hl, Reg.read_of_written hc]

/-- `store()` with room (R134). -/
theorem store_of_room {p : Params} {st : Byte} {x : Inst} (hf : x.fault = none) (hc : x.rxCur.written = true)
    (hl : x.rxLen.written = true) (hd : x.hw.data.written = true) (hlt : x.rxCur.val.toNat < x.rxLen.val.toNat)
    (hcap : x.rxCur.val.toNat < p.rxCap) :
    store p st x =
      { x with
        rxBuf := Memory.write x.rxBuf x.rxCur.val.toNat x.hw.data.val
        rxCur := Reg.of (x.rxCur.val + 1) } := by
  rw [store, Reg.read_of_written hc, Reg.read_of_written hl, if_neg (by omega), Inst.readData, Reg.read_of_written hd,
    Inst.storeRx_of_lt _ _ hcap, Inst.andThen_of_no_fault (by simpa using hf)]
  rfl

/-- `store()` with the cursor at the length (R134): nothing is written but the fault. -/
theorem store_of_overrun {p : Params} {st : Byte} {x : Inst} (hc : x.rxCur.written = true) (hl : x.rxLen.written = true)
    (hge : x.rxLen.val.toNat ≤ x.rxCur.val.toNat) :
    store p st x = x.raise (.rxOverrun x.rxCur.val x.rxLen.val st) := by
  rw [store, Reg.read_of_written hc, Reg.read_of_written hl, if_pos hge]

/-- `error_chain(s)` with a written REP_START (R135). -/
theorem errorChain_of_written {st : Byte} {x : Inst} (h : x.repStart.written = true) :
    errorChain st x =
      if x.repStart.val then (x.setLastStatus st).issueStart else ((x.setLastStatus st).setMode .ready).issueStop := by
  rw [errorChain, Reg.read_of_written h]

/-! ## The frames -/

/-- Everything an event can do (R181, R183). -/
theorem event_next {p : Params} {k : Nat} {raw : Byte} {d : Option Byte} {row : Params → Byte → Inst → Inst} {s t : State}
    (h : event p k raw d row s = .next t) :
    ∃ x, s.insts[k]? = some x ∧
      ((x.deliveryEnabled = true ∧
          t = (s.setInst k (row p (raw &&& p.statusMask) (x.enterHandler raw d))).answerEvt .delivered) ∨
        (x.deliveryEnabled = false ∧ t = s.answerEvt (.refused .notEnabled))) := by
  unfold event at h
  split at h
  · exact nomatch h
  · rename_i x hx
    refine ⟨x, hx, ?_⟩
    split at h
    · rename_i he
      left
      refine ⟨he, ?_⟩
      injection h with h
      rw [← h]
      simp only [Inst.leaveHandler_eq, Inst.readStatus]
      rw [Reg.read_of_written (by cases d <;> simp)]
      cases d <;> simp
    · rename_i he
      right
      injection h with h
      exact ⟨by simpa using he, h.symm⟩

/-- An event whose delivery is enabled: the row on the masked status, after the delivery's writes (R181). -/
theorem event_of_enabled {p : Params} {k : Nat} {raw : Byte} {d : Option Byte} {row : Params → Byte → Inst → Inst}
    {s : State} {x : Inst} (hx : s.insts[k]? = some x) (he : x.deliveryEnabled = true) :
    event p k raw d row s =
      .next ((s.setInst k (row p (raw &&& p.statusMask) (x.enterHandler raw d))).answerEvt .delivered) := by
  simp only [event, hx, he, if_true, Inst.leaveHandler_eq, Inst.readStatus]
  rw [Reg.read_of_written (by cases d <;> simp)]
  cases d <;> simp

/-- An event whose delivery is not enabled (R183). -/
theorem event_of_disabled {p : Params} {k : Nat} {raw : Byte} {d : Option Byte} {row : Params → Byte → Inst → Inst}
    {s : State} {x : Inst} (hx : s.insts[k]? = some x) (he : x.deliveryEnabled = false) :
    event p k raw d row s = .next (s.answerEvt (.refused .notEnabled)) := by
  simp [event, hx, he]

/-- Everything a command's frame can do (R113). -/
theorem command_next {i : Instr} {k : Nat} {refusal : Inst → Option RefuseReason} {body : Inst → State} {s t : State}
    (h : command i k refusal body s = .next t) :
    s.fg = .idle ∧
      ((s.insts[k]? = none ∧ t = s.refuse .noSuchInstance) ∨
        ∃ x, s.insts[k]? = some x ∧
          ((∃ why, refusal x = some why ∧ t = s.refuse why) ∨
            (refusal x = none ∧ x.fault ≠ none ∧ t = s.hold i) ∨
            (refusal x = none ∧ x.fault = none ∧ t = body x))) := by
  unfold command at h
  split at h
  · exact nomatch h
  · exact nomatch h
  · rename_i hfg
    refine ⟨hfg, ?_⟩
    split at h
    · rename_i hx
      injection h with h
      exact .inl ⟨hx, h.symm⟩
    · rename_i x hx
      refine .inr ⟨x, hx, ?_⟩
      split at h
      · rename_i why hw
        injection h with h
        exact .inl ⟨why, hw, h.symm⟩
      · rename_i hw
        split at h
        · rename_i f hf
          injection h with h
          exact .inr (.inl ⟨hw, by simp [hf], h.symm⟩)
        · rename_i hf
          injection h with h
          exact .inr (.inr ⟨hw, hf, h.symm⟩)

/-- A command that runs: the Foreground is free, the word is not refused, the instance is not faulted (R113). -/
theorem command_of_run {i : Instr} {k : Nat} {refusal : Inst → Option RefuseReason} {body : Inst → State} {s : State}
    {x : Inst} (hfg : s.fg = .idle) (hx : s.insts[k]? = some x) (hr : refusal x = none) (hf : x.fault = none) :
    command i k refusal body s = .next (body x) := by
  simp [command, hfg, hx, hr, hf]

/-- A hardware operation run on its own (R170). -/
theorem hwop_next {k : Nat} {f : Inst → Inst} {answer : Inst → HwReply} {s t : State} (h : hwop k f answer s = .next t) :
    ∃ x, s.insts[k]? = some x ∧ x.fault = none ∧ t = { s.setInst k (f x) with hwReply := answer (f x) } := by
  unfold hwop at h
  split at h
  · exact nomatch h
  · rename_i x hx
    split at h
    · exact nomatch h
    · rename_i hf
      injection h with h
      exact ⟨x, hx, hf, h.symm⟩

theorem hwop_of_run {k : Nat} {f : Inst → Inst} {answer : Inst → HwReply} {s : State} {x : Inst}
    (hx : s.insts[k]? = some x) (hf : x.fault = none) :
    hwop k f answer s = .next { s.setInst k (f x) with hwReply := answer (f x) } := by
  simp [hwop, hx, hf]

/-! ## The steps of an acceptance (R103, R106) -/

/-- What a step of an acceptance never touches: `LAST_STATUS`, RX_BUF, INITD, and of `HW` the enables, the divisor and the
status (R103, R106). -/
theorem AcceptStep.apply_frame (p : Params) (a : AcceptStep) (x : Inst) :
    (a.apply p x).lastStatus = x.lastStatus ∧ (a.apply p x).rxBuf = x.rxBuf ∧ (a.apply p x).initd = x.initd ∧
      (a.apply p x).hw.en = x.hw.en ∧ (a.apply p x).hw.ie = x.hw.ie ∧ (a.apply p x).hw.div = x.hw.div ∧
      (a.apply p x).hw.status = x.hw.status := by
  cases a <;>
    simp only [AcceptStep.apply, Inst.storeTx, Memory.load, Inst.writeData, Inst.continueTx, Reg.read] <;>
    (repeat' split) <;> simp

/-- What every step keeps, the steps keep. -/
theorem runSteps_keeps {p : Params} {P : Inst → Prop} :
    ∀ (as : List AcceptStep) (x : Inst), (∀ a ∈ as, ∀ y, P y → P (a.apply p y)) → P x → P (runSteps p as x) := by
  intro as
  induction as with
  | nil => intro x _ hx; exact hx
  | cons a as ih =>
    intro x has hx
    have ha : P (a.apply p x) := has a List.mem_cons_self x hx
    cases hf : (a.apply p x).fault with
    | none =>
      rw [runSteps, Inst.andThen_of_no_fault hf]
      exact ih _ (fun b hb => has b (List.mem_cons_of_mem _ hb)) ha
    | some c => rw [runSteps, Inst.andThen_of_fault hf]; exact ha

/-- What every step keeps, an acceptance of TRANSMIT keeps, and so with READ's own two writes one of READ. -/
theorem acceptTransmit_keeps {p : Params} {P : Inst → Prop} (h : ∀ (a : AcceptStep) (y : Inst), P y → P (a.apply p y))
    {rs : Bool} {len : Byte} {data : List Byte} {x : Inst} (hx : P x) : P (acceptTransmit p rs len data x) := by
  have h1 := runSteps_keeps (p := p) (acceptSteps rs len data) x (fun a _ => h a) hx
  cases hf : (runSteps p (acceptSteps rs len data) x).fault with
  | none => rw [acceptTransmit, Inst.andThen_of_no_fault hf]; exact runSteps_keeps _ _ (fun a _ => h a) h1
  | some c => rw [acceptTransmit, Inst.andThen_of_fault hf]; exact h1

theorem acceptRead_keeps {p : Params} {P : Inst → Prop} (h : ∀ (a : AcceptStep) (y : Inst), P y → P (a.apply p y))
    {rs : Bool} {addr count : Byte} {x : Inst} (hx : P x) : P (acceptRead p rs addr count x) := by
  have h1 := runSteps_keeps (p := p) [.rxStart count] x (fun a _ => h a) hx
  cases hf : (runSteps p [.rxStart count] x).fault with
  | none => rw [acceptRead, Inst.andThen_of_no_fault hf]; exact acceptTransmit_keeps h h1
  | some c => rw [acceptRead, Inst.andThen_of_fault hf]; exact h1

/-- One step that raises no fault. -/
theorem runSteps_cons {p : Params} {a : AcceptStep} {x : Inst} (as : List AcceptStep) (hf : (a.apply p x).fault = none) :
    runSteps p (a :: as) x = runSteps p as (a.apply p x) := Inst.andThen_of_no_fault hf

/-- Steps in two parts: the second runs where the first raised no fault. -/
theorem runSteps_append {p : Params} (as bs : List AcceptStep) :
    ∀ {x : Inst}, x.fault = none → runSteps p (as ++ bs) x = (runSteps p as x).andThen (runSteps p bs) := by
  induction as with
  | nil => intro x hf; exact (Inst.andThen_of_no_fault hf).symm
  | cons a as ih =>
    intro x hf
    simp only [List.cons_append, runSteps]
    cases h : (a.apply p x).fault with
    | none => rw [Inst.andThen_of_no_fault h, Inst.andThen_of_no_fault h, ih h]
    | some c => rw [Inst.andThen_of_fault h, Inst.andThen_of_fault h, Inst.andThen_of_fault h]

/-- The copy of T4 and what follows it (R53). -/
theorem runSteps_copy {p : Params} (data : List Byte) :
    ∀ (i : Nat) (as : List AcceptStep) (x : Inst), x.fault = none → i + data.length ≤ p.txCap →
      runSteps p (copySteps i data ++ as) x = runSteps p as (x.setTxBuf (Memory.writeFrom x.txBuf i data)) := by
  induction data with
  | nil => intro i as x _ _; rfl
  | cons v vs ih =>
    intro i as x hf hi
    simp only [List.length_cons] at hi
    have hlt : i < p.txCap := by omega
    have ha : AcceptStep.apply p (.copy i v) x = x.setTxBuf (Memory.write x.txBuf i v) := Inst.storeTx_of_lt _ _ hlt
    rw [copySteps, List.cons_append, runSteps_cons _ (by rw [ha]; simpa using hf), ha,
      ih (i + 1) as _ (by simpa using hf) (by omega)]
    rfl

/-- T3 to T5 (R103). -/
theorem runSteps_accept {p : Params} (rs : Bool) (len : Byte) (data : List Byte) {x : Inst} (hf : x.fault = none)
    (hlen : data.length ≤ p.txCap) :
    runSteps p (acceptSteps rs len data) x =
      { x with
        repStart := Reg.of rs
        txBuf := Memory.writeFrom x.txBuf 0 data
        txCur := Reg.of 0
        txLen := Reg.of len } := by
  rw [acceptSteps, runSteps_cons _ (by simpa [AcceptStep.apply] using hf),
    runSteps_copy data 0 _ _ (by simpa [AcceptStep.apply] using hf) (by omega),
    runSteps_cons _ (by simpa [AcceptStep.apply] using hf)]
  rfl

theorem copySteps_length (data : List Byte) : ∀ i, (copySteps i data).length = data.length := by
  induction data with
  | nil => intro i; rfl
  | cons v vs ih => intro i; simp [copySteps, ih]

theorem acceptSteps_length (rs : Bool) (len : Byte) (data : List Byte) :
    (acceptSteps rs len data).length = data.length + 2 := by
  simp [acceptSteps, copySteps_length]

/-- T4 copies to the elements below the length only (R53). -/
theorem copySteps_mem (data : List Byte) :
    ∀ {i : Nat} {a : AcceptStep}, a ∈ copySteps i data → ∃ n v, n < i + data.length ∧ a = .copy n v := by
  induction data with
  | nil => intro i a h; simp [copySteps] at h
  | cons v vs ih =>
    intro i a h
    simp only [copySteps, List.mem_cons] at h
    rcases h with rfl | h
    · exact ⟨i, v, by simp, rfl⟩
    · obtain ⟨n, w, hn, rfl⟩ := ih h
      exact ⟨n, w, by simp only [List.length_cons]; omega, rfl⟩

/-- What T3 to T5 consist of (R103). -/
theorem acceptSteps_mem {rs : Bool} {len : Byte} {data : List Byte} {a : AcceptStep} (h : a ∈ acceptSteps rs len data) :
    a = .repStart rs ∨ (∃ n v, n < data.length ∧ a = .copy n v) ∨ a = .txStart len := by
  simp only [acceptSteps, List.mem_cons, List.mem_append, List.not_mem_nil, or_false] at h
  rcases h with rfl | h | rfl
  · exact .inl rfl
  · obtain ⟨n, v, hn, rfl⟩ := copySteps_mem data h
    exact .inr (.inl ⟨n, v, by omega, rfl⟩)
  · exact .inr (.inr rfl)

/-- TX_BUF at and past the length keeps its contents (R53). -/
theorem acceptTransmit_read_txBuf {p : Params} {rs : Bool} {len : Byte} {data : List Byte} {x : Inst} {j : Nat}
    (hj : data.length ≤ j) : Memory.read (acceptTransmit p rs len data x).txBuf j = Memory.read x.txBuf j := by
  have h1 : Memory.read (runSteps p (acceptSteps rs len data) x).txBuf j = Memory.read x.txBuf j := by
    refine runSteps_keeps (P := fun y => Memory.read y.txBuf j = Memory.read x.txBuf j) _ _ (fun a ha y hy => ?_) rfl
    rcases acceptSteps_mem ha with rfl | ⟨n, v, hn, rfl⟩ | rfl
    · exact hy
    · simp only [AcceptStep.apply, Inst.storeTx]
      split
      · exact (Memory.read_write_other _ _ (by omega)).trans hy
      · exact hy
    · exact hy
  cases hf : (runSteps p (acceptSteps rs len data) x).fault with
  | some c => rw [acceptTransmit, Inst.andThen_of_fault hf]; exact h1
  | none =>
    rw [acceptTransmit, Inst.andThen_of_no_fault hf]
    refine runSteps_keeps (P := fun y => Memory.read y.txBuf j = Memory.read x.txBuf j) _ _ (fun a ha y hy => ?_) h1
    unfold launchSteps at ha
    split at ha <;> simp only [List.mem_cons, List.not_mem_nil, or_false] at ha <;>
      rcases ha with rfl | rfl | rfl | rfl | rfl <;>
      simp only [AcceptStep.apply, Memory.load, Inst.writeData, Inst.continueTx, Reg.read] <;> (repeat' split) <;> exact hy

/-- T3 to T6, with what T3 to T5 have written. -/
theorem acceptTransmit_eq {p : Params} (rs : Bool) (len : Byte) (data : List Byte) {x : Inst} (hf : x.fault = none)
    (hlen : data.length ≤ p.txCap) :
    acceptTransmit p rs len data x =
      runSteps p (launchSteps len x)
        { x with
          repStart := Reg.of rs
          txBuf := Memory.writeFrom x.txBuf 0 data
          txCur := Reg.of 0
          txLen := Reg.of len } := by
  rw [acceptTransmit, runSteps_accept rs len data hf hlen]
  exact Inst.andThen_of_no_fault hf

/-- The acceptance on the Ready path (R103). -/
theorem acceptTransmit_ready {p : Params} {rs : Bool} {len : Byte} {data : List Byte} {x : Inst} (hf : x.fault = none)
    (hlen : data.length ≤ p.txCap) (hm : x.mode.val = .ready) :
    acceptTransmit p rs len data x =
      { x with
        mode := Reg.of .initializing
        repStart := Reg.of rs
        txBuf := Memory.writeFrom x.txBuf 0 data
        txCur := Reg.of 0
        txLen := Reg.of len
        hw := x.hw.launch .start } := by
  rw [acceptTransmit_eq rs len data hf hlen]
  simp only [launchSteps, hm, reduceCtorEq, if_false]
  rw [runSteps_cons _ (by exact hf), runSteps_cons _ (by exact hf)]
  rfl

/-- The acceptance on the repeated-start path (R103). -/
theorem acceptTransmit_repeatedStart {p : Params} {rs : Bool} {len v : Byte} {vs : List Byte} {x : Inst}
    (hf : x.fault = none) (hlen : (v :: vs).length ≤ p.txCap) (hl : len ≠ 0#8) (hm : x.mode.val = .repeatedStartSent)
    (hp : x.hw.pend = true) :
    acceptTransmit p rs len (v :: vs) x =
      { x with
        mode := Reg.of .initializing
        repStart := Reg.of rs
        txBuf := Memory.writeFrom x.txBuf 0 (v :: vs)
        txCur := Reg.of 1
        txLen := Reg.of len
        hw := (x.hw.putData v).launch (.cont v) } := by
  have hr : Memory.read (Memory.writeFrom x.txBuf 0 (v :: vs)) 0 = some v := by
    rw [Memory.read_writeFrom]
    simp
  have hc : 0 < p.txCap := by simp only [List.length_cons] at hlen; omega
  rw [acceptTransmit_eq rs len _ hf hlen]
  simp only [launchSteps, hm, if_true]
  have hw : ∀ y : Inst, y.txBuf = Memory.writeFrom x.txBuf 0 (v :: vs) → y.hw.pend = true →
      AcceptStep.apply p .loadFirst y = y.setHw (y.hw.putData v) := by
    intro y h1 h2
    rw [AcceptStep.apply, Memory.load_of_read hc (h1 ▸ hr), Inst.writeData_of_pend v h2]
  have hn : ∀ y : Inst, AcceptStep.apply p (.notEmpty len) y = y := by
    intro y
    simp [AcceptStep.apply, hl]
  rw [runSteps_cons _ (by rw [hn]; exact hf), hn, runSteps_cons _ (by exact hf),
    runSteps_cons _ (by rw [hw _ (by rfl) (by exact hp)]; exact hf), hw _ (by rfl) (by exact hp), runSteps_cons _ (by exact hf),
    runSteps_cons _ (by exact hf)]
  rfl

/-- A zero-length TRANSMIT on the repeated-start path (R103): what T3 to T5 wrote stays, and the fault. -/
theorem acceptTransmit_empty {p : Params} {rs : Bool} {x : Inst} (hf : x.fault = none)
    (hm : x.mode.val = .repeatedStartSent) :
    acceptTransmit p rs 0#8 [] x =
      { x with
        repStart := Reg.of rs
        txCur := Reg.of 0
        txLen := Reg.of 0
        fault := some .txEmptyAfterRs } := by
  rw [acceptTransmit_eq rs 0#8 [] hf (by simp)]
  simp only [launchSteps, hm, if_true]
  rfl

/-- READ's acceptance is its own two writes and then the acceptance of a one-byte TRANSMIT (R106). -/
theorem acceptRead_eq {p : Params} {rs : Bool} {addr count : Byte} {x : Inst} (hf : x.fault = none) :
    acceptRead p rs addr count x =
      acceptTransmit p rs 1 [readFrame addr] { x with rxCur := Reg.of 0, rxLen := Reg.of count } := by
  rw [acceptRead, runSteps_cons _ (by exact hf)]
  exact Inst.andThen_of_no_fault hf

/-- TRANSMIT past its checks and its wait enters the acceptance (R103 steps T0 to T2). -/
theorem exec_transmit_ready {s : State} {k : InstField} {rs : Bool} {len : Byte} {data : List Byte} {x : Inst}
    (hfg : s.fg = .idle) (hx : s.insts[k.toNat]? = some x) (hf : x.fault = none) (hi : x.initd = true)
    (hr : x.ready = true) (hd : data.length = len.toNat) (hl : len.toNat ≤ s.params.txCap) :
    exec (.transmit k rs len data) s = .next (s.acceptTransmit k rs len data x) := by
  have hm : x.mode.written = true := by
    simp only [Inst.ready, Bool.and_eq_true] at hr
    exact hr.1
  rw [exec, execTransmit, command_of_run hfg hx (by simp [hd]) hf]
  simp [hi, hm, hr, Nat.not_lt.mpr hl]

/-- READ past its checks and its wait enters the acceptance (R106 steps Q0 to Q2). -/
theorem exec_read_ready {s : State} {k : InstField} {rs : Bool} {addr count : Byte} {x : Inst} (hfg : s.fg = .idle)
    (hx : s.insts[k.toNat]? = some x) (hf : x.fault = none) (hi : x.initd = true) (hr : x.ready = true)
    (hl : count.toNat < s.params.rxCap) :
    exec (.read k rs addr count) s = .next (s.acceptRead k rs addr count x) := by
  have hm : x.mode.written = true := by
    simp only [Inst.ready, Bool.and_eq_true] at hr
    exact hr.1
  rw [exec, execRead, command_of_run hfg hx rfl hf]
  simp [hi, hm, hr, Nat.not_le.mpr hl]

/-! ## The Foreground's turns (R101, R112) -/

/-- Everything a turn of the Foreground can do. -/
theorem turn_cases (s : State) :
    s.turn = s ∨
    ∃ i k f x, s.fg.command = some i ∧ callOf i = some (k, f) ∧ s.insts[k]? = some x ∧ x.fault = none ∧
      (s.fg.atWait = true → x.ready = true) ∧ s.turn = s.advance i k f x := by
  unfold State.turn State.foregroundEnabled
  cases hi : s.fg.command with
  | none => exact .inl (by simp)
  | some i =>
    cases hc : callOf i with
    | none => exact .inl (by simp [hc])
    | some kf =>
      obtain ⟨k, f⟩ := kf
      cases hx : s.insts[k]? with
      | none => exact .inl (by simp [hc, hx])
      | some x =>
        simp only [Option.bind_some, hc, hx]
        split
        · rename_i he
          simp only [Bool.and_eq_true, Option.isNone_iff_eq_none, Bool.or_eq_true, Bool.not_eq_true'] at he
          refine .inr ⟨i, k, f, x, rfl, hc, hx, he.1, fun hw => ?_, rfl⟩
          rcases he.2 with h | h
          · exact h
          · rw [hw] at h; exact nomatch h
        · exact .inl rfl

/-- Everything a turn of the Foreground can do to the system: nothing but its own place and its answer, or also one instance,
of its command and not faulted, of which it keeps whatever every step of an acceptance keeps. -/
theorem turn_frame (s : State) :
    s.turn.params = s.params ∧ s.turn.evtReply = s.evtReply ∧ s.turn.hwReply = s.hwReply ∧ s.turn.inbox = s.inbox ∧
    s.turn.draws = s.draws ∧
    (s.turn.insts = s.insts ∨
      ∃ i k f x y, s.fg.command = some i ∧ callOf i = some (k, f) ∧ s.insts[k]? = some x ∧ x.fault = none ∧
        s.turn.insts = s.insts.set k y ∧
        ∀ P : Inst → Prop, (∀ (a : AcceptStep) (z : Inst), P z → P (a.apply s.params z)) → P x → P y) := by
  rcases turn_cases s with h | ⟨i, k, f, x, hi, hc, hx, hf, -, h⟩
  · simp [h]
  · rw [h]
    obtain ⟨params, insts, fg, reply, evtReply, hwReply, inbox, draws⟩ := s
    cases fg with
    | idle => exact nomatch hi
    | held j =>
      cases hi
      cases i with
      | transmit b rs len data =>
        cases hc
        simp only [State.advance, State.resume, State.acceptTransmit, State.accept]
        split
        · exact ⟨rfl, rfl, rfl, rfl, rfl, .inl rfl⟩
        · exact ⟨rfl, rfl, rfl, rfl, rfl, .inr ⟨_, _, _, x, _, rfl, rfl, hx, hf, rfl, fun P h => acceptTransmit_keeps h⟩⟩
      | read b rs addr count =>
        cases hc
        simp only [State.advance, State.resume, State.acceptRead, State.accept]
        split
        · exact ⟨rfl, rfl, rfl, rfl, rfl, .inl rfl⟩
        · exact ⟨rfl, rfl, rfl, rfl, rfl, .inr ⟨_, _, _, x, _, rfl, rfl, hx, hf, rfl, fun P h => acceptRead_keeps h⟩⟩
      | _ => exact nomatch hc
    | accepting j todo =>
      cases todo with
      | nil => exact ⟨rfl, rfl, rfl, rfl, rfl, .inl rfl⟩
      | cons a todo =>
        exact ⟨rfl, rfl, rfl, rfl, rfl, .inr ⟨i, k, f, x, _, hi, hc, hx, hf, rfl, fun P h => h a x⟩⟩

/-- A turn where the Foreground has a step: its instance is not faulted, and READY holds if it is at a wait. -/
theorem turn_of_enabled {s : State} {i : Instr} {k : Nat} {f : ApiFn} {x : Inst} (hi : s.fg.command = some i)
    (hc : callOf i = some (k, f)) (hx : s.insts[k]? = some x) (hf : x.fault = none)
    (hw : s.fg.atWait = true → x.ready = true) : s.turn = s.advance i k f x := by
  have he : s.foregroundEnabled = true := by
    unfold State.foregroundEnabled
    cases ha : s.fg.atWait
    · simp [hi, hc, hx, hf]
    · simp [hi, hc, hx, hf, hw ha]
  simp only [State.turn, he, if_true, hi, hc, hx]

/-- A turn of the Foreground whose command's instance is faulted does nothing (R195). -/
theorem turn_of_fault {s : State} {i : Instr} {k : Nat} {f : ApiFn} {x : Inst} (hi : s.fg.command = some i)
    (hc : callOf i = some (k, f)) (hx : s.insts[k]? = some x) (hf : x.fault ≠ none) : s.turn = s := by
  rcases turn_cases s with h | ⟨i', k', f', x', hi', hc', hx', hf', -, -⟩
  · exact h
  · rw [hi] at hi'
    cases hi'
    rw [hc] at hc'
    cases hc'
    rw [hx] at hx'
    cases hx'
    exact absurd hf' hf

/-- The Foreground, idle, has no step of its own. -/
theorem turn_idle {s : State} (h : s.fg = .idle) : s.turn = s := by
  rcases turn_cases s with h' | ⟨i, k, f, x, hi, -⟩
  · exact h'
  · simp [h, Foreground.command] at hi

theorem turns_add (m n : Nat) : ∀ s : State, State.turns (m + n) s = State.turns n (State.turns m s) := by
  induction m with
  | zero => intro s; simp [State.turns]
  | succ m ih => intro s; rw [Nat.succ_add, State.turns, ih, State.turns]

/-- A step of an acceptance that neither waits nor chooses the path. -/
def AcceptStep.plain : AcceptStep → Bool
  | .wait => false
  | .path _ => false
  | _ => true

/-- The state inside an acceptance, with the instance as it stands. -/
def State.inside (s : State) (i : Instr) (k : Nat) (x : Inst) (todo : List AcceptStep) : State :=
  { s with insts := s.insts.set k x, fg := .accepting i todo, reply := .noReply }

/-- Writing back what stands there changes nothing. -/
theorem insts_set_self {s : State} {k : Nat} {x : Inst} (h : s.insts[k]? = some x) : s.insts.set k x = s.insts := by
  obtain ⟨hk, hx⟩ := List.getElem?_eq_some_iff.mp h
  rw [← hx]
  exact List.set_getElem_self hk

theorem inside_self {s : State} {k : Nat} {x : Inst} (h : s.insts[k]? = some x) (i : Instr) (todo : List AcceptStep) :
    s.inside i k x todo = { s with fg := .accepting i todo, reply := .noReply } := by
  simp only [State.inside, insts_set_self h]

/-- A turn inside an acceptance takes its next step (R112). -/
theorem turn_inside {s : State} {i : Instr} {k : Nat} {f : ApiFn} {x : Inst} {a : AcceptStep} {todo : List AcceptStep}
    (hc : callOf i = some (k, f)) (hk : k < s.insts.length) (hf : x.fault = none) (hw : a = .wait → x.ready = true)
    (ha : (a.apply s.params x).fault = none) :
    (s.inside i k x (a :: todo)).turn = s.inside i k (a.apply s.params x) (a.after x todo) := by
  rw [turn_of_enabled (i := i) (x := x) rfl hc (by simp [State.inside, hk]) hf
    (by cases a <;> simp [State.inside, Foreground.atWait] at hw ⊢; exact hw)]
  simp [State.advance, State.inside, State.acceptStep, State.setInst, ha]

/-- A turn inside an acceptance whose step faults (R195). -/
theorem turn_inside_fault {s : State} {i : Instr} {k : Nat} {f : ApiFn} {x : Inst} {a : AcceptStep}
    {todo : List AcceptStep} {c : FaultCode} (hc : callOf i = some (k, f)) (hk : k < s.insts.length) (hf : x.fault = none)
    (hw : a = .wait → x.ready = true) (ha : (a.apply s.params x).fault = some c) (r : Reply) :
    (s.inside i k x (a :: todo)).turn = s.complete i k (a.apply s.params x) r := by
  rw [turn_of_enabled (i := i) (x := x) rfl hc (by simp [State.inside, hk]) hf
    (by cases a <;> simp [State.inside, Foreground.atWait] at hw ⊢; exact hw)]
  simp [State.advance, State.inside, State.acceptStep, State.setInst, State.complete, ha]

/-- A turn after the last step returns OK (R103 step T7, R106 step Q6). -/
theorem turn_inside_nil {s : State} {i : Instr} {k : Nat} {f : ApiFn} {x : Inst} (hc : callOf i = some (k, f))
    (hk : k < s.insts.length) (hf : x.fault = none) :
    (s.inside i k x []).turn = s.complete i k x (.api f .ok) := by
  rw [turn_of_enabled (i := i) (x := x) rfl hc (by simp [State.inside, hk]) hf
    (by simp [State.inside, Foreground.atWait])]
  simp [State.advance, State.inside, State.returnOk, State.complete, hf]

/-- Plain steps taken one turn at a time, no other agent between them, either fault, which ends the command, or are the steps
run together, in as many turns as there are steps. -/
theorem turns_plain {s : State} {i : Instr} {k : Nat} {f : ApiFn} (hc : callOf i = some (k, f)) (hk : k < s.insts.length) :
    ∀ (as rest : List AcceptStep) (x : Inst), x.fault = none → as.all AcceptStep.plain = true →
      ∃ n, ((runSteps s.params as x).fault = none → n = as.length) ∧ State.turns n (s.inside i k x (as ++ rest)) =
        match (runSteps s.params as x).fault with
        | none => s.inside i k (runSteps s.params as x) rest
        | some _ => s.complete i k (runSteps s.params as x) (.api f .ok) := by
  intro as
  induction as with
  | nil => intro rest x hf _; exact ⟨0, fun _ => rfl, by simp [State.turns, runSteps, hf]⟩
  | cons a as ih =>
    intro rest x hf hp
    simp only [List.all_cons, Bool.and_eq_true] at hp
    have hw : a = .wait → x.ready = true := by rintro rfl; simp [AcceptStep.plain] at hp
    cases ha : (a.apply s.params x).fault with
    | none =>
      obtain ⟨n, hl, hn⟩ := ih rest _ ha hp.2
      rw [runSteps_cons as ha]
      refine ⟨n + 1, fun h => by rw [hl h]; rfl, ?_⟩
      have hafter : a.after x (as ++ rest) = as ++ rest := by
        cases a <;> simp [AcceptStep.plain, AcceptStep.after] at hp ⊢
      rw [List.cons_append, State.turns, turn_inside hc hk hf hw ha, hafter, hn]
    | some c =>
      rw [runSteps, Inst.andThen_of_fault ha, ha]
      exact ⟨1, nofun, by rw [List.cons_append, State.turns, State.turns, turn_inside_fault hc hk hf hw ha (.api f .ok)]⟩

theorem copySteps_plain (data : List Byte) : ∀ i, (copySteps i data).all AcceptStep.plain = true := by
  induction data with
  | nil => intro i; rfl
  | cons v vs ih => intro i; simp [copySteps, AcceptStep.plain, ih]

theorem acceptSteps_plain (rs : Bool) (len : Byte) (data : List Byte) :
    (acceptSteps rs len data).all AcceptStep.plain = true := by
  simp [acceptSteps, copySteps_plain, AcceptStep.plain]

theorem launchSteps_plain (len : Byte) (x : Inst) : (launchSteps len x).all AcceptStep.plain = true := by
  unfold launchSteps
  split <;> rfl

/-- T3 to T7 one turn at a time, no other agent between them, are the acceptance as one step (R112). -/
theorem turns_transmit {s : State} {i : Instr} {k : Nat} {f : ApiFn} (hc : callOf i = some (k, f))
    (hk : k < s.insts.length) (rs : Bool) (len : Byte) (data : List Byte) {x : Inst} (hf : x.fault = none) :
    ∃ n, State.turns n (s.inside i k x (transmitSteps rs len data)) =
      s.complete i k (acceptTransmit s.params rs len data x) (.api f .ok) := by
  obtain ⟨m, -, hm⟩ := turns_plain hc hk (acceptSteps rs len data) [.path len] x hf (acceptSteps_plain rs len data)
  cases h1 : (runSteps s.params (acceptSteps rs len data) x).fault with
  | some c =>
    rw [h1] at hm
    exact ⟨m, by rw [transmitSteps, hm, acceptTransmit, Inst.andThen_of_fault h1]⟩
  | none =>
    rw [h1] at hm
    rw [acceptTransmit, Inst.andThen_of_no_fault h1]
    generalize runSteps s.params (acceptSteps rs len data) x = y at hm h1
    obtain ⟨n, -, hn⟩ := turns_plain hc hk (launchSteps len y) [] y h1 (launchSteps_plain len y)
    have hp : (s.inside i k y [.path len]).turn = s.inside i k y (launchSteps len y ++ []) :=
      turn_inside (a := .path len) hc hk h1 (by simp) h1
    cases h2 : (runSteps s.params (launchSteps len y) y).fault with
    | some c =>
      rw [h2] at hn
      exact ⟨m + (n + 1), by rw [turns_add, transmitSteps, hm, State.turns, hp, hn]⟩
    | none =>
      rw [h2] at hn
      refine ⟨m + ((n + 1) + 1), ?_⟩
      rw [turns_add m, transmitSteps, hm]
      change State.turns ((n + 1) + 1) (s.inside i k y [.path len]) = _
      rw [State.turns, hp, turns_add n 1, hn]
      exact turn_inside_nil hc hk h2

/-- Q3 to Q6 one turn at a time, no other agent between them, are the acceptance as one step (R106, R112). -/
theorem turns_read {s : State} {i : Instr} {k : Nat} {f : ApiFn} (hc : callOf i = some (k, f)) (hk : k < s.insts.length)
    (rs : Bool) (addr count : Byte) {x : Inst} (hf : x.fault = none) (hr : x.ready = true) :
    ∃ n, State.turns n (s.inside i k x (readSteps rs addr count)) =
      s.complete i k (acceptRead s.params rs addr count x) (.api f .ok) := by
  obtain ⟨n, hn⟩ := turns_transmit hc hk rs 1 [readFrame addr] (x := (x.setRxCur 0).setRxLen count) hf
  refine ⟨n + 2, ?_⟩
  rw [acceptRead_eq hf, readSteps, State.turns, turn_inside (a := .rxStart count) hc hk hf (by simp) hf, AcceptStep.after,
    State.turns, turn_inside (a := .wait) hc hk (by exact hf) (fun _ => by exact hr) (by exact hf), AcceptStep.after]
  · exact hn
  all_goals simp

/-- What waits at the ports has no part in a turn. -/
theorem turn_inbox (s : State) (l : List Msg) : ({ s with inbox := l } : State).turn = { s.turn with inbox := l } := by
  have ha : ∀ (i : Instr) (k : Nat) (f : ApiFn) (x : Inst),
      ({ s with inbox := l } : State).advance i k f x = { s.advance i k f x with inbox := l } := by
    intro i k f x
    obtain ⟨params, insts, fg, reply, evtReply, hwReply, inbox, draws⟩ := s
    cases fg with
    | idle => rfl
    | held _ =>
      cases i <;> simp only [State.advance, State.resume, State.acceptTransmit, State.acceptRead, State.accept] <;>
        (try split) <;> rfl
    | accepting _ todo => cases todo <;> rfl
  have he : ({ s with inbox := l } : State).foregroundEnabled = s.foregroundEnabled := rfl
  unfold State.turn
  rw [he]
  split
  · cases s.fg.command with
    | none => rfl
    | some i =>
      dsimp only
      cases callOf i with
      | none => rfl
      | some kf =>
        dsimp only
        cases s.insts[kf.1]? with
        | none => rfl
        | some x => exact ha i kf.1 kf.2 x
  · rfl

theorem turns_inbox (l : List Msg) :
    ∀ (n : Nat) (s : State), State.turns n ({ s with inbox := l } : State) = { State.turns n s with inbox := l } := by
  intro n
  induction n with
  | zero => intro s; rfl
  | succ n ih => intro s; rw [State.turns, turn_inbox, ih, State.turns]

/-! ## The ports and the step -/

/-- While the Foreground is free the first message is taken (R115). -/
theorem takeMsg_idle (m : Msg) (ms : List Msg) : takeMsg true (m :: ms) = some (m, ms) := by
  simp [takeMsg]

/-- An event, a redispatch or a turn is taken first wherever the Foreground is (R198). -/
theorem takeMsg_not_cmd {m : Msg} (b : Bool) (ms : List Msg) (h : m.isCmd = false) : takeMsg b (m :: ms) = some (m, ms) := by
  simp [takeMsg, h]

/-- What is taken while the Foreground is in a command is no command (R115). -/
theorem takeMsg_held {l rest : List Msg} {m : Msg} (h : takeMsg false l = some (m, rest)) : m.isCmd = false := by
  induction l generalizing rest with
  | nil => exact nomatch h
  | cons a l ih =>
    unfold takeMsg at h
    split at h
    · rename_i ha
      simp only [Option.some.injEq, Prod.mk.injEq] at h
      obtain ⟨rfl, -⟩ := h
      simpa using ha
    · split at h
      · exact nomatch h
      · rename_i m' r' hm
        simp only [Option.some.injEq, Prod.mk.injEq] at h
        obtain ⟨rfl, -⟩ := h
        exact ih hm

/-- Taking a message while the Foreground is in a command leaves every command at the port, in its order (R115). -/
theorem takeMsg_held_filter {l rest : List Msg} {m : Msg} (h : takeMsg false l = some (m, rest)) :
    rest.filter Msg.isCmd = l.filter Msg.isCmd := by
  induction l generalizing rest with
  | nil => exact nomatch h
  | cons a l ih =>
    unfold takeMsg at h
    split at h
    · rename_i ha
      simp only [Option.some.injEq, Prod.mk.injEq] at h
      obtain ⟨rfl, rfl⟩ := h
      simp only [Bool.false_or, Bool.not_eq_true'] at ha
      simp [ha]
    · rename_i ha
      simp only [Bool.false_or, Bool.not_eq_true'] at ha
      split at h
      · exact nomatch h
      · rename_i m' r' hm
        simp only [Option.some.injEq, Prod.mk.injEq] at h
        obtain ⟨rfl, rfl⟩ := h
        simp [ha, ih hm]

/-- Everything a step can be (R63). -/
theorem step_cases (s : State) :
    (∃ m rest, takeMsg s.fg.isIdle s.inbox = some (m, rest) ∧ step s = runMsg m { s with inbox := rest }) ∨
    (takeMsg s.fg.isIdle s.inbox = none ∧ step s = .next s.arrive) := by
  unfold step
  cases ht : takeMsg s.fg.isIdle s.inbox with
  | none => exact .inr ⟨rfl, rfl⟩
  | some mr => exact .inl ⟨mr.1, mr.2, rfl, rfl⟩

/-- A step with a turn first at the ports. -/
theorem step_turn {s : State} {rest : List Msg} (h : s.inbox = .turn :: rest) :
    step s = .next ({ s with inbox := rest } : State).turn := by
  rw [step, h, takeMsg_not_cmd _ _ rfl]
  rfl

theorem steps_add (m n : Nat) : ∀ s t : State, steps m s = .next t → steps (m + n) s = steps n t := by
  induction m with
  | zero => intro s t h; simp only [steps] at h; injection h with h; simp [h]
  | succ m ih =>
    intro s t h
    rw [Nat.succ_add, steps]
    rw [steps] at h
    cases hs : step s with
    | next u => rw [hs] at h; exact ih u t h
    | fault r => rw [hs] at h; exact nomatch h
    | refused r => rw [hs] at h; exact nomatch h

/-- As many steps as turns wait first at the ports are those turns. -/
theorem steps_turns (rest : List Msg) :
    ∀ (n : Nat) (s : State), s.inbox = List.replicate n .turn ++ rest →
      steps n s = .next { State.turns n s with inbox := rest } := by
  intro n
  induction n with
  | zero => intro s h; simp at h; simp [steps, State.turns, ← h]
  | succ n ih =>
    intro s h
    rw [List.replicate_succ, List.cons_append] at h
    rw [steps, step_turn h, turn_inbox]
    dsimp only
    rw [ih _ rfl, turns_inbox, State.turns]

end Sys2Proof.Machine
end

