-- ==== Sys2Proof/Laws/Dispatcher.lean ====
section
/-! SUPPORT. Everything each of the Dispatcher's actions can do, once: every way it ends, with what it asks and what it leaves
(R131-R135). -/

namespace Sys2Proof.Machine

/-- A written register is what a write of its value leaves. -/
theorem Reg.eq_of_written {α : Type} {r : Reg α} (h : r.written = true) : r = Reg.of r.val := by
  cases r
  simp only at h
  simp [Reg.of, h]

/-- `finish()` (R132). -/
theorem finish_cases (p : Params) (x : Inst) :
    (x.repStart.written = false ∧ finish p x = { x with fault := some (.unwrittenRead .repStart) }) ∨
    (x.repStart = Reg.of true ∧
      finish p x = { x with lastStatus := Reg.of p.success, hw := x.hw.launch .start }) ∨
    (x.repStart = Reg.of false ∧
      finish p x = { x with mode := Reg.of .ready, lastStatus := Reg.of p.success, hw := x.hw.halt }) := by
  cases hw : x.repStart.written with
  | false => exact .inl ⟨rfl, by rw [finish, Reg.read_of_unwritten hw]; rfl⟩
  | true =>
    have he := Reg.eq_of_written hw
    rw [finish_of_written p hw]
    cases hv : x.repStart.val with
    | true => exact .inr (.inl ⟨by rw [he, hv], rfl⟩)
    | false => exact .inr (.inr ⟨by rw [he, hv], rfl⟩)

/-- `error_chain(s)` (R135). -/
theorem errorChain_cases (st : Byte) (x : Inst) :
    (x.repStart.written = false ∧
      errorChain st x = { x with lastStatus := Reg.of st, fault := some (.unwrittenRead .repStart) }) ∨
    (x.repStart = Reg.of true ∧ errorChain st x = { x with lastStatus := Reg.of st, hw := x.hw.launch .start }) ∨
    (x.repStart = Reg.of false ∧
      errorChain st x = { x with mode := Reg.of .ready, lastStatus := Reg.of st, hw := x.hw.halt }) := by
  cases hw : x.repStart.written with
  | false => exact .inl ⟨rfl, by rw [errorChain, Reg.read_of_unwritten hw]; rfl⟩
  | true =>
    have he := Reg.eq_of_written hw
    rw [errorChain_of_written hw]
    cases hv : x.repStart.val with
    | true => exact .inr (.inl ⟨by rw [he, hv], rfl⟩)
    | false => exact .inr (.inr ⟨by rw [he, hv], rfl⟩)

/-- `ack_decision()` (R133). -/
theorem ackDecision_cases (p : Params) (x : Inst) :
    (x.rxLen.written = false ∧
      ackDecision p x = { x with lastStatus := Reg.of p.noInfo, fault := some (.unwrittenRead .rxLen) }) ∨
    (x.rxCur.written = false ∧
      ackDecision p x = { x with lastStatus := Reg.of p.noInfo, fault := some (.unwrittenRead .rxCur) }) ∨
    (x.rxLen.written = true ∧ x.rxCur.written = true ∧
      ∃ op, (op = .ackNext ∨ op = .nackNext) ∧
        ackDecision p x = { x with lastStatus := Reg.of p.noInfo, hw := x.hw.launch op }) := by
  cases hl : x.rxLen.written with
  | false => exact .inl ⟨rfl, by rw [ackDecision, Reg.read_of_unwritten hl]; rfl⟩
  | true =>
    cases hc : x.rxCur.written with
    | false =>
      exact .inr (.inl ⟨rfl, by rw [ackDecision, Reg.read_of_written hl, Reg.read_of_unwritten hc]; rfl⟩)
    | true =>
      refine .inr (.inr ⟨rfl, rfl, ?_⟩)
      rw [ackDecision_of_written hl hc]
      split
      · exact ⟨.ackNext, .inl rfl, rfl⟩
      · exact ⟨.nackNext, .inr rfl, rfl⟩

/-- `load_or_finish()` (R131). -/
theorem loadOrFinish_cases (p : Params) {x : Inst} (hf : x.fault = none) :
    (∃ f, loadOrFinish p x = { x with fault := some f } ∧
      ((f = .unwrittenRead .txCur ∧ x.txCur.written = false) ∨ (f = .unwrittenRead .txLen ∧ x.txLen.written = false) ∨
        (f = .unwrittenRead (.txBuf x.txCur.val.toNat) ∧ x.txCur.val.toNat < x.txLen.val.toNat ∧ x.txLen.written = true ∧
          Memory.read x.txBuf x.txCur.val.toNat = none) ∨
        (f = .indexRange x.txCur.val.toNat ∧ x.txCur.val.toNat < x.txLen.val.toNat ∧ x.txLen.written = true ∧
          p.txCap ≤ x.txCur.val.toNat) ∨
        (∃ v, f = .dataWriteCollision v ∧ x.hw.pend = false))) ∨
    (x.txCur.written = true ∧ x.txLen.written = true ∧ x.txCur.val.toNat < x.txLen.val.toNat ∧
      x.txCur.val.toNat < p.txCap ∧ ∃ v, Memory.read x.txBuf x.txCur.val.toNat = some v ∧
        loadOrFinish p x =
          { x with
            txCur := Reg.of (x.txCur.val + 1)
            lastStatus := Reg.of p.noInfo
            hw := (x.hw.putData v).launch (.cont v) }) ∨
    (x.txCur.written = true ∧ x.txLen.written = true ∧ x.txLen.val.toNat ≤ x.txCur.val.toNat ∧
      loadOrFinish p x = finish p x) := by
  cases hc : x.txCur.written with
  | false => exact .inl ⟨_, by rw [loadOrFinish, Reg.read_of_unwritten hc]; rfl, .inl ⟨rfl, rfl⟩⟩
  | true =>
    cases hl : x.txLen.written with
    | false =>
      exact .inl ⟨_, by rw [loadOrFinish, Reg.read_of_written hc, Reg.read_of_unwritten hl]; rfl, .inr (.inl ⟨rfl, rfl⟩)⟩
    | true =>
      by_cases hlt : x.txCur.val.toNat < x.txLen.val.toNat
      · by_cases hcap : x.txCur.val.toNat < p.txCap
        · cases hr : Memory.read x.txBuf x.txCur.val.toNat with
          | none =>
            refine .inl ⟨_, ?_, .inr (.inr (.inl ⟨rfl, hlt, rfl, rfl⟩))⟩
            rw [loadOrFinish, Reg.read_of_written hc, Reg.read_of_written hl, if_pos hlt, Memory.load_of_unwritten hcap hr]
            rfl
          | some v =>
            cases hp : x.hw.pend with
            | true => exact .inr (.inl ⟨rfl, rfl, hlt, hcap, v, rfl, loadOrFinish_load hf hc hl hlt hcap hr hp⟩)
            | false =>
              refine .inl ⟨_, ?_, .inr (.inr (.inr (.inr ⟨v, rfl, rfl⟩)))⟩
              rw [loadOrFinish, Reg.read_of_written hc, Reg.read_of_written hl, if_pos hlt, Memory.load_of_read hcap hr,
                loadByte, Inst.writeData_of_no_pend v hp, Inst.andThen_of_fault rfl]
              rfl
        · refine .inl ⟨_, ?_, .inr (.inr (.inr (.inl ⟨rfl, hlt, rfl, by omega⟩)))⟩
          rw [loadOrFinish, Reg.read_of_written hc, Reg.read_of_written hl, if_pos hlt, Memory.load, if_neg hcap]
          rfl
      · exact .inr (.inr ⟨rfl, rfl, by omega, loadOrFinish_finish hc hl (by omega)⟩)

/-- `store()` (R134). -/
theorem store_cases (p : Params) (st : Byte) {x : Inst} (hf : x.fault = none) :
    (∃ f, store p st x = { x with fault := some f } ∧
      ((f = .unwrittenRead .rxCur ∧ x.rxCur.written = false) ∨ (f = .unwrittenRead .rxLen ∧ x.rxLen.written = false) ∨
        (f = .rxOverrun x.rxCur.val x.rxLen.val st ∧ x.rxLen.val.toNat ≤ x.rxCur.val.toNat) ∨
        (f = .unwrittenRead .hwData ∧ x.hw.data.written = false) ∨
        (f = .indexRange x.rxCur.val.toNat ∧ x.rxCur.val.toNat < x.rxLen.val.toNat ∧ x.rxLen.written = true ∧
          p.rxCap ≤ x.rxCur.val.toNat))) ∨
    (x.rxCur.written = true ∧ x.rxLen.written = true ∧ x.rxCur.val.toNat < x.rxLen.val.toNat ∧
      x.rxCur.val.toNat < p.rxCap ∧
      store p st x =
        { x with
          rxBuf := Memory.write x.rxBuf x.rxCur.val.toNat x.hw.data.val
          rxCur := Reg.of (x.rxCur.val + 1) }) := by
  cases hc : x.rxCur.written with
  | false => exact .inl ⟨_, by rw [store, Reg.read_of_unwritten hc]; rfl, .inl ⟨rfl, rfl⟩⟩
  | true =>
    cases hl : x.rxLen.written with
    | false => exact .inl ⟨_, by rw [store, Reg.read_of_written hc, Reg.read_of_unwritten hl]; rfl, .inr (.inl ⟨rfl, rfl⟩)⟩
    | true =>
      by_cases hlt : x.rxCur.val.toNat < x.rxLen.val.toNat
      · cases hd : x.hw.data.written with
        | false =>
          refine .inl ⟨_, ?_, .inr (.inr (.inr (.inl ⟨rfl, rfl⟩)))⟩
          rw [store, Reg.read_of_written hc, Reg.read_of_written hl, if_neg (by omega), Inst.readData,
            Reg.read_of_unwritten hd]
          rfl
        | true =>
          by_cases hcap : x.rxCur.val.toNat < p.rxCap
          · exact .inr ⟨rfl, rfl, hlt, hcap, store_of_room hf hc hl hd hlt hcap⟩
          · refine .inl ⟨_, ?_, .inr (.inr (.inr (.inr ⟨rfl, hlt, rfl, by omega⟩)))⟩
            rw [store, Reg.read_of_written hc, Reg.read_of_written hl, if_neg (by omega), Inst.readData,
              Reg.read_of_written hd, Inst.storeRx, if_neg hcap, Inst.andThen_of_fault rfl]
            rfl
      · exact .inl ⟨_, by rw [store_of_overrun hc hl (by omega)]; rfl, .inr (.inr (.inl ⟨rfl, by omega⟩))⟩

/-! ## An event of a class (R130, R181) -/

/-- An event is the delivery and its class's row, with the data byte for the two receive classes (R184). -/
theorem exec_event {c : StatusClass} (hc : c ≠ .noInfoClass) (k : Nat) (raw d : Byte) (s : State) :
    exec (c.event k raw d) s =
      event s.params k raw (if c = .mrDataAck ∨ c = .mrDataNack then some d else none) (rowOf c) s := by
  cases c <;> first | exact absurd rfl hc | rfl

/-- Everything an event can do (R181): it is refused, or the delivery and the row change its instance; nothing else changes
but the event port's answer. -/
theorem exec_event_cases {c : StatusClass} {k : Nat} {raw d : Byte} {s t : State}
    (h : exec (c.event k raw d) s = .next t) :
    ∃ x, s.insts[k]? = some x ∧
      ((∃ r, t = s.answerEvt r) ∨
        (c ≠ .noInfoClass ∧ x.deliveryEnabled = true ∧
          t = (s.setInst k (rowOf c s.params (raw &&& s.params.statusMask)
            (x.enterHandler raw (if c = .mrDataAck ∨ c = .mrDataNack then some d else none)))).answerEvt .delivered)) := by
  by_cases hc : c = .noInfoClass
  · subst hc
    simp only [StatusClass.event, exec, execEvtNoInfoClass] at h
    split at h
    · exact nomatch h
    · rename_i x hx
      injection h with h
      exact ⟨x, hx, .inl ⟨_, h.symm⟩⟩
  · rw [exec_event hc] at h
    obtain ⟨x, hx, h | h⟩ := event_next h
    · exact ⟨x, hx, .inr ⟨hc, h⟩⟩
    · exact ⟨x, hx, .inl ⟨_, h.2⟩⟩

/-- Everything a message at an event port can do: it is refused, or it is the event its status spells (R79, R181). -/
theorem runMsg_evt (k : Nat) (raw d : Byte) (s : State) :
    (∃ why, runMsg (.evt k raw d) s = .next (s.answerEvt (.refused why))) ∨
      runMsg (.evt k raw d) s = exec ((classify s.params.codes (raw &&& s.params.statusMask)).event k raw d) s := by
  simp only [runMsg, decodeEvt]
  split
  · rename_i why _
    exact .inl ⟨why, rfl⟩
  · rename_i i hi
    split at hi
    · injection hi with hi
      exact .inr (by rw [← hi])
    · exact nomatch hi

end Sys2Proof.Machine
end

