-- ==== Sys2Proof/Laws/Cursors.lean ====
section
/-! SUPPORT. R33 with either value of REDISPATCH: "`0 ≤ cursor ≤ length ≤ capacity` at all times". It holds at power-on, and
every step keeps it. -/

namespace Sys2Proof.Machine

/-! ## The Dispatcher -/

theorem toNat_succ {a b : Byte} (h : a.toNat < b.toNat) : (a + 1).toNat = a.toNat + 1 := by
  rw [BitVec.toNat_add]
  simp
  omega

/-- What a row keeps: both lengths, INITD, and R33. -/
abbrev RowKeeps (p : Params) (x y : Inst) : Prop :=
  y.txLen = x.txLen ∧ y.initd = x.initd ∧ (x.CursorsOk p → y.CursorsOk p)

theorem RowKeeps.trans {p : Params} {x y z : Inst} (h : RowKeeps p x y) (h' : RowKeeps p y z) : RowKeeps p x z :=
  ⟨h'.1.trans h.1, h'.2.1.trans h.2.1, fun hx => h'.2.2 (h.2.2 hx)⟩

theorem finish_rowKeeps (p : Params) (x : Inst) : RowKeeps p x (finish p x) := by
  rcases finish_cases p x with ⟨-, e⟩ | ⟨-, e⟩ | ⟨-, e⟩ <;> rw [e] <;> exact ⟨rfl, rfl, id⟩

theorem errorChain_rowKeeps (p : Params) (st : Byte) (x : Inst) : RowKeeps p x (errorChain st x) := by
  rcases errorChain_cases st x with ⟨-, e⟩ | ⟨-, e⟩ | ⟨-, e⟩ <;> rw [e] <;> exact ⟨rfl, rfl, id⟩

theorem ackDecision_rowKeeps (p : Params) (x : Inst) : RowKeeps p x (ackDecision p x) := by
  rcases ackDecision_cases p x with ⟨-, e⟩ | ⟨-, e⟩ | ⟨-, -, op, -, e⟩ <;> rw [e] <;> exact ⟨rfl, rfl, id⟩

/-- Load-or-finish "increments `TX_CUR` only when `TX_CUR < TX_LEN`" (R33). -/
theorem loadOrFinish_rowKeeps (p : Params) {x : Inst} (hf : x.fault = none) : RowKeeps p x (loadOrFinish p x) := by
  rcases loadOrFinish_cases p hf with ⟨f, e, -⟩ | ⟨-, -, hlt, -, v, -, e⟩ | ⟨-, -, -, e⟩ <;> rw [e]
  · exact ⟨rfl, rfl, id⟩
  · refine ⟨rfl, rfl, fun h => ⟨fun hl => ⟨rfl, ?_, (h.1 hl).2.2⟩, h.2⟩⟩
    simp only [Reg.of_val, toNat_succ hlt]
    omega
  · exact finish_rowKeeps p x

/-- "Store faults with `RX_OVERRUN` instead of writing when `RX_CUR >= RX_LEN`" (R33). -/
theorem store_rowKeeps (p : Params) (st : Byte) {x : Inst} (hf : x.fault = none) : RowKeeps p x (store p st x) := by
  rcases store_cases p st hf with ⟨f, e, -⟩ | ⟨-, -, hlt, -, e⟩ <;> rw [e]
  · exact ⟨rfl, rfl, id⟩
  · refine ⟨rfl, rfl, fun h => ⟨h.1, fun hl => ⟨rfl, ?_, (h.2 hl).2.2⟩⟩⟩
    simp only [Reg.of_val, toNat_succ hlt]
    omega

theorem andThen_rowKeeps {p : Params} {x y : Inst} {f : Inst → Inst} (h : RowKeeps p x y)
    (hf : ∀ z, RowKeeps p z (f z)) : RowKeeps p x (y.andThen f) := by
  unfold Inst.andThen
  split
  · exact h.trans (hf y)
  · exact h

theorem rowOf_rowKeeps (c : StatusClass) (p : Params) (st : Byte) {x : Inst} (hf : x.fault = none) :
    RowKeeps p x (rowOf c p st x) := by
  cases c with
  | startSent => exact loadOrFinish_rowKeeps p hf
  | repStartSent => exact ⟨rfl, rfl, id⟩
  | mtSlawAck => exact RowKeeps.trans ⟨rfl, rfl, id⟩ (loadOrFinish_rowKeeps p (x := x.setMode .masterTransmitter) hf)
  | mtSlawNack => exact errorChain_rowKeeps p st x
  | mtDataAck => exact loadOrFinish_rowKeeps p hf
  | mtDataNack => exact errorChain_rowKeeps p st x
  | arbLost => exact errorChain_rowKeeps p st x
  | mrSlarAck => exact RowKeeps.trans ⟨rfl, rfl, id⟩ (ackDecision_rowKeeps p (x.setMode .masterReceiver))
  | mrSlarNack => exact errorChain_rowKeeps p st x
  | mrDataAck => exact andThen_rowKeeps (store_rowKeeps p st hf) (ackDecision_rowKeeps p)
  | mrDataNack => exact andThen_rowKeeps (store_rowKeeps p st hf) (finish_rowKeeps p)
  | illegalStartStop => exact ⟨rfl, rfl, id⟩
  | noInfoClass => exact ⟨rfl, rfl, id⟩
  | unhandled => exact ⟨rfl, rfl, id⟩

theorem dispatch_rowKeeps (p : Params) {x : Inst} (hf : x.fault = none) : RowKeeps p x (dispatch p x) := by
  unfold dispatch Inst.readStatus Reg.read
  split
  · exact rowOf_rowKeeps _ p _ hf
  · exact ⟨rfl, rfl, id⟩

/-! ## The acceptance -/

/-- A step of an acceptance that is safe keeps R33, and leaves the rest of the acceptance safe unless it faults. -/
theorem apply_cursors {p : Params} {a : AcceptStep} {todo : List AcceptStep} {x : Inst} (h : x.CursorsOk p)
    (hs : acceptSafe p x.txLen.val (a :: todo) = true) :
    (a.apply p x).CursorsOk p ∧
      ((a.apply p x).fault = none → acceptSafe p (a.apply p x).txLen.val (a.after x todo) = true) := by
  cases a with
  | rxStart count =>
    simp only [acceptSafe, Bool.and_eq_true, decide_eq_true_eq] at hs
    exact ⟨⟨h.1, fun _ => ⟨rfl, by simp [AcceptStep.apply], hs.1⟩⟩, fun _ => hs.2⟩
  | txStart len =>
    simp only [acceptSafe, Bool.and_eq_true, decide_eq_true_eq] at hs
    exact ⟨⟨fun _ => ⟨rfl, by simp [AcceptStep.apply], hs.1⟩, h.2⟩, fun _ => hs.2⟩
  | firstSent =>
    simp only [acceptSafe, Bool.and_eq_true, decide_eq_true_eq] at hs
    exact ⟨⟨fun hl => ⟨rfl, hs.1, (h.1 hl).2.2⟩, h.2⟩, fun _ => hs.2⟩
  | notEmpty len =>
    simp only [acceptSafe, Bool.and_eq_true, decide_eq_true_eq, Bool.or_eq_true] at hs
    simp only [AcceptStep.apply]
    split
    · exact ⟨h, nofun⟩
    · rename_i hl
      exact ⟨h, fun _ => hs.2.resolve_left hl⟩
  | path len =>
    simp only [acceptSafe, Bool.and_eq_true, decide_eq_true_eq] at hs
    refine ⟨h, fun _ => ?_⟩
    simp only [AcceptStep.after, AcceptStep.apply, launchSteps]
    split
    · simp only [List.cons_append, List.nil_append, acceptSafe, hs.1, decide_true, Bool.true_and]
      rw [hs.1] at hs
      by_cases hl : len = 0#8
      · simp [hl]
      · have : 1 ≤ len.toNat := by
          rcases Nat.eq_zero_or_pos len.toNat with h0 | h0
          · exact absurd (BitVec.eq_of_toNat_eq (by simpa using h0)) hl
          · exact h0
        simp [this, hs.2]
    · simpa [acceptSafe] using hs.2
  | wait => exact ⟨h, fun _ => hs⟩
  | repStart rs => exact ⟨h, fun _ => hs⟩
  | modeInitializing => exact ⟨h, fun _ => hs⟩
  | issueStart => exact ⟨h, fun _ => hs⟩
  | copy i v =>
    simp only [AcceptStep.apply, Inst.storeTx]
    split <;> exact ⟨h, fun _ => hs⟩
  | loadFirst =>
    simp only [AcceptStep.apply, Memory.load, Inst.writeData]
    (repeat' split) <;> exact ⟨h, fun _ => hs⟩
  | continueTx =>
    simp only [AcceptStep.apply, Inst.continueTx, Reg.read]
    split <;> exact ⟨h, fun _ => hs⟩

/-- Safe steps taken together keep R33. -/
theorem runSteps_cursors {p : Params} :
    ∀ (as : List AcceptStep) {x : Inst}, x.CursorsOk p → as.all AcceptStep.plain = true →
      acceptSafe p x.txLen.val as = true → (runSteps p as x).CursorsOk p := by
  intro as
  induction as with
  | nil => intro x h _ _; exact h
  | cons a as ih =>
    intro x h hp hs
    simp only [List.all_cons, Bool.and_eq_true] at hp
    obtain ⟨h1, h2⟩ := apply_cursors h hs
    cases ha : (a.apply p x).fault with
    | some c => rw [runSteps, Inst.andThen_of_fault ha]; exact h1
    | none =>
      have hafter : a.after x as = as := by cases a <;> simp [AcceptStep.plain, AcceptStep.after] at hp ⊢
      rw [runSteps_cons as ha]
      exact ih h1 hp.2 (hafter ▸ h2 ha)

theorem copySteps_safe {p : Params} (data : List Byte) :
    ∀ (i : Nat) (n : Byte) (todo : List AcceptStep), acceptSafe p n (copySteps i data ++ todo) = acceptSafe p n todo := by
  induction data with
  | nil => intro i n todo; rfl
  | cons v vs ih => intro i n todo; rw [copySteps, List.cons_append, acceptSafe, ih]

/-- "TRANSMIT checks `length <= TX_CAP`" (R33). -/
theorem transmitSteps_safe {p : Params} {rs : Bool} {len : Byte} (data : List Byte) (n : Byte) (h : len.toNat ≤ p.txCap) :
    acceptSafe p n (transmitSteps rs len data) = true := by
  simp [transmitSteps, acceptSteps, acceptSafe, copySteps_safe, h]

/-- "READ checks `byteCount < RX_CAP`" (R33). -/
theorem readSteps_safe {p : Params} {rs : Bool} {addr count : Byte} (n : Byte) (h : count.toNat < p.rxCap)
    (hc : 1 ≤ p.txCap) : acceptSafe p n (readSteps rs addr count) = true := by
  simp only [readSteps, acceptSafe, h, decide_true, Bool.true_and]
  exact transmitSteps_safe _ _ (by simpa using hc)

theorem acceptTransmit_cursors {p : Params} {rs : Bool} {len : Byte} {data : List Byte} {x : Inst} (hf : x.fault = none)
    (h : x.CursorsOk p) (hd : data.length = len.toNat) (hl : len.toNat ≤ p.txCap) :
    (acceptTransmit p rs len data x).CursorsOk p := by
  have hs := transmitSteps_safe (p := p) (rs := rs) data x.txLen.val hl
  rw [acceptTransmit_eq rs len data hf (by omega)]
  refine runSteps_cursors _ ⟨fun _ => ⟨rfl, by simp, hl⟩, h.2⟩ (launchSteps_plain len x) ?_
  have := (apply_cursors (p := p) (a := .path len) (todo := [])
    (x := { x with repStart := Reg.of rs, txBuf := Memory.writeFrom x.txBuf 0 data, txCur := Reg.of 0, txLen := Reg.of len })
    ⟨fun _ => ⟨rfl, by simp, hl⟩, h.2⟩ (by simp [acceptSafe])).2 hf
  simpa [AcceptStep.after, AcceptStep.apply, launchSteps] using this

theorem acceptRead_cursors {p : Params} {rs : Bool} {addr count : Byte} {x : Inst} (hf : x.fault = none)
    (h : x.CursorsOk p) (hl : count.toNat < p.rxCap) (hc : 1 ≤ p.txCap) :
    (acceptRead p rs addr count x).CursorsOk p := by
  rw [acceptRead_eq hf]
  exact acceptTransmit_cursors hf ⟨h.1, fun _ => ⟨rfl, by simp, hl⟩⟩ rfl (by simpa using hc)

/-! ## The system -/

/-- The invariant looks at the parameters, the instances and the Foreground's place only. -/
theorem CursorInv.congr {s t : State} (h : s.CursorInv) (hp : t.params = s.params) (hi : t.insts = s.insts)
    (hfg : t.fg = s.fg) : t.CursorInv := by
  obtain ⟨p, is, f, r, e, w, b, d⟩ := s
  obtain ⟨p', is', f', r', e', w', b', d'⟩ := t
  cases hp
  cases hi
  cases hfg
  exact h

/-- The instances after one of them has changed. -/
theorem cursors_set {s : State} {k : Nat} {y : Inst} (h : ∀ x ∈ s.insts, x.CursorsOk s.params)
    (hy : y.CursorsOk s.params) : ∀ x ∈ s.insts.set k y, x.CursorsOk s.params := by
  intro x hx
  rcases List.mem_or_eq_of_mem_set hx with hx | rfl
  · exact h x hx
  · exact hy

/-- The Foreground's command stays as it should be when an instance that is not faulted takes a Dispatcher's step. -/
theorem heldOk_set {s : State} {k : Nat} {x y : Inst} (hx : s.insts[k]? = some x) (hf : x.fault = none)
    (h : RowKeeps s.params x y) (hok : s.heldOk = true) : (s.setInst k y).heldOk = true := by
  have hk := (List.getElem?_eq_some_iff.mp hx).1
  have hget : ∀ j, (s.setInst k y).insts[j]? = if j = k then some y else s.insts[j]? := by
    intro j
    by_cases hj : j = k
    · subst hj; simp [State.setInst, hk]
    · rw [if_neg hj]; simp [State.setInst, List.getElem?_set_ne (Ne.symm hj)]
  have hfg : (s.setInst k y).fg = s.fg := rfl
  have hp : (s.setInst k y).params = s.params := rfl
  unfold State.heldOk at hok ⊢
  rw [hfg, hp]
  split at hok <;> try exact hok
  iterate 2
    · rw [hget]
      split
      · rfl
      · rename_i z hz
        split at hz
        · rename_i hkk
          cases hz
          rw [hkk, hx] at hok
          simp only [hf, Option.isSome_none, Bool.false_or] at hok
          rw [h.2.1, hok, Bool.or_true]
        · rw [hz] at hok; exact hok
  · rename_i i todo _
    cases hc : callOf i with
    | none => rw [hc] at hok; exact hok
    | some kf =>
      rw [hc] at hok
      simp only [Bool.and_eq_true] at hok ⊢
      refine ⟨hok.1, ?_⟩
      rw [hget]
      split
      · rfl
      · rename_i z hz
        split at hz
        · rename_i hkk
          cases hz
          have := hok.2
          rw [hkk, hx] at this
          simp only [hf, Option.isSome_none, Bool.false_or] at this
          rw [h.1, this, Bool.or_true]
        · have := hok.2
          rw [hz] at this
          exact this

/-- An instance that is not faulted takes a Dispatcher's step. -/
theorem CursorInv.setInst {s : State} {k : Nat} {x y : Inst} (hs : s.CursorInv) (hx : s.insts[k]? = some x)
    (hf : x.fault = none) (h : RowKeeps s.params x y) : (s.setInst k y).CursorInv :=
  ⟨hs.1, cursors_set hs.2.1 (h.2.2 (hs.2.1 x (List.mem_of_getElem? hx))), heldOk_set hx hf h hs.2.2⟩

/-- A command that runs to its end: what it leaves, or its fault, which holds the Foreground at a faulted instance. -/
theorem CursorInv.complete {s : State} {i : Instr} {k : Nat} {y : Inst} {r : Reply} (hs : s.CursorInv)
    (hk : ∀ j, target i = some j → j = k) (hy : y.CursorsOk s.params) : (s.complete i k y r).CursorInv := by
  refine ⟨hs.1, cursors_set hs.2.1 hy, ?_⟩
  cases hf : y.fault with
  | none => rw [State.complete_of_no_fault _ _ _ _ _ hf]; rfl
  | some c =>
    rw [State.complete_of_fault _ _ _ _ _ c hf]
    unfold State.heldOk
    split
    iterate 2
      · rename_i b _ _ _ he
        cases he
        rw [hk _ rfl]
        simp only
        split
        · rfl
        · rename_i z hz
          rw [List.getElem?_set] at hz
          simp only [if_true] at hz
          split at hz
          · cases hz; simp [hf]
          · exact nomatch hz
    · rfl
    · rename_i he; exact nomatch he
    · rfl

theorem CursorInv.acceptTransmit {s : State} {k : InstField} {rs : Bool} {len : Byte} {data : List Byte} {x : Inst}
    (hs : s.CursorInv) (hx : s.insts[k.toNat]? = some x) (hf : x.fault = none) (hd : data.length = len.toNat)
    (hl : len.toNat ≤ s.params.txCap) : (s.acceptTransmit k rs len data x).CursorInv := by
  unfold State.acceptTransmit State.accept
  split
  · rename_i hr
    refine ⟨hs.1, hs.2.1, ?_⟩
    simp [State.heldOk, hr, callOf, hx, transmitSteps_safe data _ hl]
  · exact CursorInv.complete hs (fun j hj => by cases hj; rfl)
      (acceptTransmit_cursors hf (hs.2.1 x (List.mem_of_getElem? hx)) hd hl)

theorem CursorInv.acceptRead {s : State} {k : InstField} {rs : Bool} {addr count : Byte} {x : Inst} (hs : s.CursorInv)
    (hx : s.insts[k.toNat]? = some x) (hf : x.fault = none) (hl : count.toNat < s.params.rxCap) :
    (s.acceptRead k rs addr count x).CursorInv := by
  have hc : 1 ≤ s.params.txCap := by
    have := hs.1
    simp only [Params.wf, Bool.and_eq_true, decide_eq_true_eq] at this
    omega
  unfold State.acceptRead State.accept
  split
  · rename_i hr
    refine ⟨hs.1, hs.2.1, ?_⟩
    simp [State.heldOk, hr, callOf, hx, readSteps_safe _ hl hc]
  · exact CursorInv.complete hs (fun j hj => by cases hj; rfl)
      (acceptRead_cursors hf (hs.2.1 x (List.mem_of_getElem? hx)) hl hc)

/-- A turn of the Foreground keeps R33. -/
theorem CursorInv.turn {s : State} (hs : s.CursorInv) : s.turn.CursorInv := by
  rcases turn_cases s with h | ⟨i, k, f, x, hi, hc, hx, hf, -, h⟩ <;> rw [h]
  · exact hs
  · have hok := hs.2.2
    unfold State.heldOk at hok
    unfold State.advance
    split
    · exact hs
    · rename_i j hfg
      rw [hfg] at hi hok
      cases hi
      unfold State.resume
      split
      · cases hc
        simp only [hx, hf, Option.isSome_none, Bool.false_or, Bool.and_eq_true, decide_eq_true_eq] at hok
        exact CursorInv.acceptTransmit hs hx hf hok.1.2 hok.2
      · cases hc
        simp only [hx, hf, Option.isSome_none, Bool.false_or, Bool.and_eq_true, decide_eq_true_eq] at hok
        exact CursorInv.acceptRead hs hx hf hok.2
      · exact hs
    · exact ⟨hs.1, hs.2.1, rfl⟩
    · rename_i j a todo hfg
      rw [hfg] at hi hok
      cases hi
      simp only [hc, hx, hf, Option.isSome_none, Bool.false_or, Bool.and_eq_true] at hok
      obtain ⟨h1, h2⟩ := apply_cursors (hs.2.1 x (List.mem_of_getElem? hx)) hok.2
      have hk := (List.getElem?_eq_some_iff.mp hx).1
      cases ha : (a.apply s.params x).fault with
      | none =>
        refine ⟨hs.1, cursors_set hs.2.1 h1, ?_⟩
        simp [State.heldOk, State.acceptStep, State.setInst, ha, hc, hok.1, hk, h2 ha]
      | some c =>
        refine CursorInv.congr (CursorInv.complete (k := k) (i := i) (r := .noReply) hs ?_ h1) rfl rfl ?_
        · intro j hj
          cases i <;> simp only [callOf, reduceCtorEq, Option.some.injEq, Prod.mk.injEq] at hc <;>
            simp only [target, Option.some.injEq] at hj <;> omega
        · simp [State.acceptStep, State.complete, ha]

/-! ## The messages -/

/-- What a command's frame keeps, where its own effect does (R113). -/
theorem CursorInv.command {i : Instr} {k : Nat} {refusal : Inst → Option RefuseReason} {body : Inst → State} {s t : State}
    (hs : s.CursorInv) (h : command i k refusal body s = .next t) (hk : target i = some k)
    (hb : ∀ x, s.insts[k]? = some x → refusal x = none → x.fault = none → (body x).CursorInv) : t.CursorInv := by
  obtain ⟨hfg, ⟨-, rfl⟩ | ⟨x, hx, ⟨why, -, rfl⟩ | ⟨-, hf, rfl⟩ | ⟨hr, hf, rfl⟩⟩⟩ := command_next h
  · exact CursorInv.congr hs rfl rfl rfl
  · exact CursorInv.congr hs rfl rfl rfl
  · refine ⟨hs.1, hs.2.1, ?_⟩
    obtain ⟨c, hc⟩ := Option.ne_none_iff_exists'.mp hf
    unfold State.heldOk
    split
    iterate 2
      · rename_i he
        cases he
        cases hk
        simp [hx, hc]
    · rfl
    · rename_i he; exact nomatch he
    · rfl
  · exact hb x hx hr hf

/-- A command keeps R33. -/
theorem exec_command_cursors {w : CmdWord} {payload : List Byte} {s t : State} (hs : s.CursorInv)
    (h : exec (w.command payload) s = .next t) : t.CursorInv := by
  have hcur : ∀ {k : Nat} {x : Inst}, s.insts[k]? = some x → x.CursorsOk s.params :=
    fun hx => hs.2.1 _ (List.mem_of_getElem? hx)
  have hself : ∀ {i : Instr} {k : Nat} {x y : Inst} {r : Reply}, s.insts[k]? = some x → target i = some k →
      (y.CursorsOk s.params ↔ x.CursorsOk s.params) → (s.complete i k y r).CursorInv := by
    intro i k x y r hx hk hy
    exact CursorInv.complete hs (fun j hj => by rw [hk] at hj; cases hj; rfl) (hy.mpr (hcur hx))
  unfold CmdWord.command at h
  (repeat' split at h) <;> simp only [exec] at h
  · refine CursorInv.command hs h rfl fun x hx _ hf => hself hx rfl ?_
    simp only [initInst, Reg.read]
    (repeat' split) <;> rfl
  · refine CursorInv.command hs h rfl fun x hx _ hf => hself hx rfl ?_
    unfold Reg.read
    (repeat' split) <;> rfl
  · refine CursorInv.command hs h rfl fun x hx hr hf => ?_
    have hd : payload.length = w.a.toNat := by
      by_contra hd
      simp [hd] at hr
    split
    · rename_i hi
      split
      · exact hself hx rfl Iff.rfl
      · rename_i hl
        split
        · split
          · exact CursorInv.acceptTransmit hs hx hf hd (by omega)
          · refine ⟨hs.1, hs.2.1, ?_⟩
            have : w.a.toNat ≤ s.params.txCap := by omega
            simp [State.heldOk, State.hold, hx, hi, hd, this]
        · exact hself hx rfl Iff.rfl
    · exact hself hx rfl Iff.rfl
  · refine CursorInv.command hs h rfl fun x hx _ hf => ?_
    split
    · rename_i hi
      split
      · exact hself hx rfl Iff.rfl
      · rename_i hl
        split
        · split
          · exact CursorInv.acceptRead hs hx hf (by omega)
          · refine ⟨hs.1, hs.2.1, ?_⟩
            have : w.b.toNat < s.params.rxCap := by omega
            simp [State.heldOk, State.hold, hx, hi, this]
        · exact hself hx rfl Iff.rfl
    · exact hself hx rfl Iff.rfl
  · refine CursorInv.command hs h rfl fun x hx _ hf => hself hx rfl ?_
    unfold Reg.read
    (repeat' split) <;> rfl
  · refine CursorInv.command hs h rfl fun x hx _ hf => hself hx rfl ?_
    unfold Memory.load
    (repeat' split) <;> rfl
  · unfold execReservedOp6 at h
    split at h
    · exact nomatch h
    · exact nomatch h
    · injection h with h
      subst h
      exact CursorInv.congr hs rfl rfl rfl
  · unfold execReservedOp7 at h
    split at h
    · exact nomatch h
    · exact nomatch h
    · injection h with h
      subst h
      exact CursorInv.congr hs rfl rfl rfl

/-- Every message keeps R33. -/
theorem runMsg_cursors {m : Msg} {s t : State} (hs : s.CursorInv) (h : runMsg m s = .next t) : t.CursorInv := by
  cases m with
  | cmd w payload =>
    simp only [runMsg] at h
    split at h
    · injection h with h
      subst h
      exact CursorInv.congr hs rfl rfl rfl
    · rename_i i hi
      unfold decodeCmd at hi
      split at hi
      · cases hi
        exact exec_command_cursors hs h
      · obtain ⟨-, rfl⟩ := firstRefusal_ok.mp hi
        exact exec_command_cursors hs h
  | evt k raw d =>
    rcases runMsg_evt k raw d s with ⟨why, h'⟩ | h' <;> rw [h'] at h
    · injection h with h
      subst h
      exact CursorInv.congr hs rfl rfl rfl
    · obtain ⟨x, hx, ⟨r, rfl⟩ | ⟨-, he, rfl⟩⟩ := exec_event_cases h
      · exact CursorInv.congr hs rfl rfl rfl
      · have hf : x.fault = none := by
          simp only [Inst.deliveryEnabled, Bool.and_eq_true, Option.isNone_iff_eq_none] at he
          exact he.1.1.1
        refine CursorInv.congr (CursorInv.setInst hs hx hf ?_) rfl rfl rfl
        exact RowKeeps.trans ⟨rfl, rfl, id⟩ (rowOf_rowKeeps _ _ _ (x := x.enterHandler raw _) hf)
  | redispatch k =>
    simp only [runMsg, State.redispatch] at h
    injection h with h
    subst h
    split
    · exact CursorInv.congr hs rfl rfl rfl
    · rename_i x hx
      split
      · rename_i he
        have hf : x.fault = none := by
          simp only [Inst.redispatchEnabled, Bool.and_eq_true, Option.isNone_iff_eq_none] at he
          exact he.1.1.1.1.2
        exact CursorInv.congr (CursorInv.setInst hs hx hf (dispatch_rowKeeps _ hf)) rfl rfl rfl
      · exact CursorInv.congr hs rfl rfl rfl
  | turn =>
    simp only [runMsg] at h
    injection h with h
    subst h
    exact CursorInv.turn hs

/-! ## R33 -/

/-- R33 at power-on, with either value of REDISPATCH. -/
theorem powerOn_cursors {p : Params} (h : p.wf = true) : (State.powerOn p).CursorInv := by
  refine ⟨h, fun x hx => ?_, rfl⟩
  obtain ⟨-, rfl⟩ := List.mem_replicate.mp hx
  exact ⟨nofun, nofun⟩

/-- R33: every step keeps it, whatever comes next and with either value of REDISPATCH. -/
theorem step_cursors {s t : State} (hs : s.CursorInv) (h : step s = .next t) : t.CursorInv := by
  rcases step_cases s with ⟨m, rest, -, h'⟩ | ⟨-, h'⟩ <;> rw [h'] at h
  · exact runMsg_cursors (s := { s with inbox := rest }) (CursorInv.congr hs rfl rfl rfl) h
  · injection h with h
    subst h
    exact CursorInv.congr hs rfl rfl rfl

end Sys2Proof.Machine
end

