-- ==== Sys2Proof/Laws/PerInstr.lean ====
section
/-! SUPPORT. Per instruction: what the encoder writes is a word of the instruction's own row of spec/opcode_table.json. -/

namespace Sys2Proof.Laws.TableRow

/-- A row of the opcode table: the mask and the pattern of a command word (R71, R72); the mask and the code of a status byte
(R78); the status bytes left to UNHANDLED (R80); no encoding (R85). -/
inductive Row where
  | word (mask pattern : CmdWord)
  | status (mask code : Byte)
  | otherStatus
  | noEncoding
  deriving DecidableEq, Repr

/-- The row of each instruction, as spec/opcode_table.json gives its mask and its match. -/
def row : Instr → Row
  | .init _ => .word 0xFFFF8F 0x000000
  | .isReady _ => .word 0xFFFF8F 0x000001
  | .transmit _ _ _ _ => .word 0xFF0087 0x000002
  | .read _ _ _ _ => .word 0x000087 0x000003
  | .getStatus _ => .word 0xFFFF8F 0x000004
  | .getRxByte _ _ => .word 0xFF008F 0x000005
  | .reservedOp6 _ => .word 0x000007 0x000006
  | .reservedOp7 _ => .word 0x000007 0x000007
  | .evtIllegalStartStop _ _ => .status 0xF8 0x00
  | .evtStartSent _ _ => .status 0xF8 0x08
  | .evtRepStartSent _ _ => .status 0xF8 0x10
  | .evtMtSlawAck _ _ => .status 0xF8 0x18
  | .evtMtSlawNack _ _ => .status 0xF8 0x20
  | .evtMtDataAck _ _ => .status 0xF8 0x28
  | .evtMtDataNack _ _ => .status 0xF8 0x30
  | .evtArbLost _ _ => .status 0xF8 0x38
  | .evtMrSlarAck _ _ => .status 0xF8 0x40
  | .evtMrSlarNack _ _ => .status 0xF8 0x48
  | .evtMrDataAck _ _ _ => .status 0xF8 0x50
  | .evtMrDataNack _ _ _ => .status 0xF8 0x58
  | .evtNoInfoClass _ _ => .status 0xF8 0xF8
  | .evtUnhandled _ _ => .otherStatus
  | .issueStart _ => .noEncoding
  | .issueStop _ => .noEncoding
  | .continueTx _ => .noEncoding
  | .ackNext _ => .noEncoding
  | .nackNext _ => .noEncoding
  | .writeData _ _ => .noEncoding
  | .readData _ => .noEncoding
  | .readStatus _ => .noEncoding
  | .setDivisor _ _ => .noEncoding
  | .enable _ => .noEncoding

/-- The codes of the thirteen rows with one, under the table's default column. -/
def defaultCodes : List Byte := [0x00, 0x08, 0x10, 0x18, 0x20, 0x28, 0x30, 0x38, 0x40, 0x48, 0x50, 0x58, 0xF8]

/-- The encoder's message for the instruction is a word of its row; for an event, of the status it is well formed with under
the default parameters. -/
def Statement (i : Instr) : Prop :=
  match row i with
  | .word mask pattern => ∃ w payload, encode i = some (.cmd w payload) ∧ w &&& mask = pattern
  | .status mask code =>
    ∃ k raw d, encode i = some (.evt k raw d) ∧ (i.wf Params.default = true → raw &&& mask = code)
  | .otherStatus =>
    ∃ k raw d, encode i = some (.evt k raw d) ∧ (i.wf Params.default = true → raw &&& 0xF8 ∉ defaultCodes)
  | .noEncoding => encode i = none

/-- An event's status spells its code. -/
theorem spells_of_wf {k : Nat} {raw code : Byte}
    (h : (decide (k < Params.default.nInst) && Params.default.spells raw code) = true) : raw &&& 0xF8 = code := by
  simp only [Bool.and_eq_true, Params.spells, decide_eq_true_eq] at h
  exact h.2

theorem init (k : InstField) : Statement (.init k) := ⟨_, _, rfl, by revert k; decide⟩
theorem isReady (k : InstField) : Statement (.isReady k) := ⟨_, _, rfl, by revert k; decide⟩
theorem transmit (k : InstField) (rs : Bool) (len : Byte) (data : List Byte) : Statement (.transmit k rs len data) := by
  refine ⟨_, _, rfl, ?_⟩
  apply BitVec.eq_of_getLsbD_eq
  intro i hi
  interval_cases i <;> simp [cmdWord]
theorem read (k : InstField) (rs : Bool) (addr count : Byte) : Statement (.read k rs addr count) := by
  refine ⟨_, _, rfl, ?_⟩
  apply BitVec.eq_of_getLsbD_eq
  intro i hi
  interval_cases i <;> simp [cmdWord]
theorem getStatus (k : InstField) : Statement (.getStatus k) := ⟨_, _, rfl, by revert k; decide⟩
theorem getRxByte (k : InstField) (index : Byte) : Statement (.getRxByte k index) := by
  refine ⟨_, _, rfl, ?_⟩
  apply BitVec.eq_of_getLsbD_eq
  intro i hi
  interval_cases i <;> simp [cmdWord]
theorem reservedOp6 (rest : BitVec 21) : Statement (.reservedOp6 rest) := by
  refine ⟨_, _, rfl, ?_⟩
  apply BitVec.eq_of_getLsbD_eq
  intro i hi
  interval_cases i <;> simp [reservedWord]
theorem reservedOp7 (rest : BitVec 21) : Statement (.reservedOp7 rest) := by
  refine ⟨_, _, rfl, ?_⟩
  apply BitVec.eq_of_getLsbD_eq
  intro i hi
  interval_cases i <;> simp [reservedWord]
theorem evtIllegalStartStop (k : Nat) (raw : Byte) : Statement (.evtIllegalStartStop k raw) := ⟨_, _, _, rfl, spells_of_wf⟩
theorem evtStartSent (k : Nat) (raw : Byte) : Statement (.evtStartSent k raw) := ⟨_, _, _, rfl, spells_of_wf⟩
theorem evtRepStartSent (k : Nat) (raw : Byte) : Statement (.evtRepStartSent k raw) := ⟨_, _, _, rfl, spells_of_wf⟩
theorem evtMtSlawAck (k : Nat) (raw : Byte) : Statement (.evtMtSlawAck k raw) := ⟨_, _, _, rfl, spells_of_wf⟩
theorem evtMtSlawNack (k : Nat) (raw : Byte) : Statement (.evtMtSlawNack k raw) := ⟨_, _, _, rfl, spells_of_wf⟩
theorem evtMtDataAck (k : Nat) (raw : Byte) : Statement (.evtMtDataAck k raw) := ⟨_, _, _, rfl, spells_of_wf⟩
theorem evtMtDataNack (k : Nat) (raw : Byte) : Statement (.evtMtDataNack k raw) := ⟨_, _, _, rfl, spells_of_wf⟩
theorem evtArbLost (k : Nat) (raw : Byte) : Statement (.evtArbLost k raw) := ⟨_, _, _, rfl, spells_of_wf⟩
theorem evtMrSlarAck (k : Nat) (raw : Byte) : Statement (.evtMrSlarAck k raw) := ⟨_, _, _, rfl, spells_of_wf⟩
theorem evtMrSlarNack (k : Nat) (raw : Byte) : Statement (.evtMrSlarNack k raw) := ⟨_, _, _, rfl, spells_of_wf⟩
theorem evtMrDataAck (k : Nat) (raw d : Byte) : Statement (.evtMrDataAck k raw d) := ⟨_, _, _, rfl, spells_of_wf⟩
theorem evtMrDataNack (k : Nat) (raw d : Byte) : Statement (.evtMrDataNack k raw d) := ⟨_, _, _, rfl, spells_of_wf⟩
theorem evtNoInfoClass (k : Nat) (raw : Byte) : Statement (.evtNoInfoClass k raw) := ⟨_, _, _, rfl, spells_of_wf⟩
theorem evtUnhandled (k : Nat) (raw : Byte) : Statement (.evtUnhandled k raw) := by
  refine ⟨_, _, _, rfl, fun h => ?_⟩
  simp only [Instr.wf, Bool.and_eq_true, List.all_eq_true] at h
  intro hm
  have := h.2 _ hm
  simp [Params.spells, Params.default] at this
theorem issueStart (k : Nat) : Statement (.issueStart k) := rfl
theorem issueStop (k : Nat) : Statement (.issueStop k) := rfl
theorem continueTx (k : Nat) : Statement (.continueTx k) := rfl
theorem ackNext (k : Nat) : Statement (.ackNext k) := rfl
theorem nackNext (k : Nat) : Statement (.nackNext k) := rfl
theorem writeData (k : Nat) (v : Byte) : Statement (.writeData k v) := rfl
theorem readData (k : Nat) : Statement (.readData k) := rfl
theorem readStatus (k : Nat) : Statement (.readStatus k) := rfl
theorem setDivisor (k x : Nat) : Statement (.setDivisor k x) := rfl
theorem enable (k : Nat) : Statement (.enable k) := rfl

end Sys2Proof.Laws.TableRow
end

