-- ==== Sys2Proof/Machine/Asm.lean ====
section
/-! DEFINITION. The assembler text of commands and events (R75, R82), as lists of characters: bytes in hexadecimal, counts and
indices in decimal. The suffix for the bus instance is left out for 0, its default. -/

namespace Sys2Proof.Machine

/-- The character of a number below 16. -/
def hexDigit (n : Nat) : Char := if n < 10 then Char.ofNat (48 + n) else Char.ofNat (55 + n)

/-- A byte with a `0x` prefix (R75). -/
def hexByte (b : Byte) : List Char := ['0', 'x', hexDigit (b.toNat / 16), hexDigit (b.toNat % 16)]

/-- A number below 1000 in decimal (R75: every operand is a byte). -/
def decByte (n : Nat) : List Char :=
  (if 100 ≤ n then [hexDigit (n / 100 % 10)] else []) ++
  (if 10 ≤ n then [hexDigit (n / 10 % 10)] else []) ++ [hexDigit (n % 10)]

/-- The suffix `@k`, which defaults to `@0` (R75). -/
def atSuffix (k : Nat) : List Char := if k = 0 then [] else '@' :: decByte k

def bit (b : Bool) : List Char := if b then ['1'] else ['0']

/-- Bytes separated by a comma and a space. -/
def commaBytes : List Byte → List Char
  | [] => []
  | [v] => hexByte v
  | v :: w :: vs => hexByte v ++ [',', ' '] ++ commaBytes (w :: vs)

/-- A payload in braces, the characters 123 and 125 (R75). -/
def braced (data : List Byte) : List Char := [Char.ofNat 123] ++ commaBytes data ++ [Char.ofNat 125]

/-- `EVT[@k] CLASS` (R82): the class by its name in R78. -/
def evtText (k : Nat) (name : List Char) : List Char := ['E', 'V', 'T'] ++ atSuffix k ++ [' '] ++ name

/-- `EVT[@k] CLASS, d` (R82). -/
def evtTextData (k : Nat) (name : List Char) (d : Byte) : List Char := evtText k name ++ [',', ' '] ++ hexByte d

/-- The assembler text of a command (R75) or an event (R82). What has no syntax there, a reserved selector or a hardware
operation, has none; an UNHANDLED event is written with its status byte. -/
def asm : Instr → Option (List Char)
  | .init k => some ("INIT".toList ++ atSuffix k.toNat)
  | .isReady k => some ("IS_READY".toList ++ atSuffix k.toNat)
  | .transmit k rs _ data =>
    some ("TRANSMIT".toList ++ atSuffix k.toNat ++ [' '] ++ braced data ++ [',', ' '] ++ bit rs)
  | .read k rs addr count =>
    some ("READ".toList ++ atSuffix k.toNat ++ [' '] ++ hexByte addr ++ [',', ' '] ++ decByte count.toNat ++ [',', ' ']
      ++ bit rs)
  | .getStatus k => some ("GET_STATUS".toList ++ atSuffix k.toNat)
  | .getRxByte k index => some ("GET_RX_BYTE".toList ++ atSuffix k.toNat ++ [' '] ++ decByte index.toNat)
  | .reservedOp6 _ => none
  | .reservedOp7 _ => none
  | .evtIllegalStartStop k _ => some (evtText k "ILLEGAL_START_STOP".toList)
  | .evtStartSent k _ => some (evtText k "START_SENT".toList)
  | .evtRepStartSent k _ => some (evtText k "REP_START_SENT".toList)
  | .evtMtSlawAck k _ => some (evtText k "MT_SLAW_ACK".toList)
  | .evtMtSlawNack k _ => some (evtText k "MT_SLAW_NACK".toList)
  | .evtMtDataAck k _ => some (evtText k "MT_DATA_ACK".toList)
  | .evtMtDataNack k _ => some (evtText k "MT_DATA_NACK".toList)
  | .evtArbLost k _ => some (evtText k "ARB_LOST".toList)
  | .evtMrSlarAck k _ => some (evtText k "MR_SLAR_ACK".toList)
  | .evtMrSlarNack k _ => some (evtText k "MR_SLAR_NACK".toList)
  | .evtMrDataAck k _ d => some (evtTextData k "MR_DATA_ACK".toList d)
  | .evtMrDataNack k _ d => some (evtTextData k "MR_DATA_NACK".toList d)
  | .evtNoInfoClass k _ => some (evtText k "NO_INFO_CLASS".toList)
  | .evtUnhandled k raw => some (evtText k (hexByte raw))
  | .issueStart _ => none
  | .issueStop _ => none
  | .continueTx _ => none
  | .ackNext _ => none
  | .nackNext _ => none
  | .writeData _ _ => none
  | .readData _ => none
  | .readStatus _ => none
  | .setDivisor _ _ => none
  | .enable _ => none

end Sys2Proof.Machine
end

