-- ==== Sys2Proof/Tests/Slice0.lean ====
section
/-! SUPPORT. Tests of single steps against 95_test_vectors.md, refused terms for each check of WellFormed.lean, and for each
obligation with hypotheses a state and operands that meet them (`witness_<Name>`). -/

namespace Sys2Proof.Tests

open Sys2Proof Sys2Proof.Machine

/-! ## Small states -/

/-- The parameters of 95_test_vectors.md: one bus. -/
def p1 : Params := { Params.default with nInst := 1 }

/-- The same with REDISPATCH. -/
def p1r : Params := { p1 with redispatch := true }

/-- One instance, the Foreground free. -/
def sys (x : Inst) : State := { State.powerOn p1 with insts := [x] }

/-- The same with REDISPATCH. -/
def sysR (x : Inst) : State := { State.powerOn p1r with insts := [x] }

/-- After INIT (V-IN-1), with the sentinel SUCCESS. -/
def up : Inst :=
  { Inst.powerOn with
    mode := Reg.of .ready
    lastStatus := Reg.of 0xFF
    repStart := Reg.of false
    hw := { Hw.powerOn with en := true, ie := true, div := Reg.of 0 }
    initd := true }

/-- In flight with `TX_BUF = [A0, 10, 20]`. -/
def sending (m : Mode) (cur len : Byte) (rs : Bool) : Inst :=
  { up with
    mode := Reg.of m
    repStart := Reg.of rs
    txBuf := [(0, 0xA0), (1, 0x10), (2, 0x20)]
    txLen := Reg.of len
    txCur := Reg.of cur
    hw := { up.hw with busy := true } }

/-- In flight, receiving, with the elements below the cursor stored. -/
def receiving (cur len : Byte) (rs : Bool) : Inst :=
  { sending .masterReceiver 1 1 rs with
    rxBuf := (List.range cur.toNat).map (fun i => (i, 0x11))
    rxLen := Reg.of len
    rxCur := Reg.of cur }

/-- A repeated START is held (V-TX-8). -/
def holding : Inst :=
  { sending .repeatedStartSent 2 2 true with
    hw := { up.hw with pend := true, busy := false, status := Reg.of 0x10, data := Reg.of 0x10 } }

/-- R233's race: `RepeatedStartSent` while the CONTINUE of the one byte sent is outstanding. -/
def raced : Inst :=
  { sending .repeatedStartSent 1 1 true with
    hw := { up.hw with busy := true, status := Reg.of 0x10, data := Reg.of 0xA0, trace := [.cont 0xA0] } }

/-- With REDISPATCH, inside the acceptance of a TRANSMIT of one byte. -/
def inside (x : Inst) (todo : List AcceptStep) : State :=
  { sysR x with fg := .accepting (.transmit 0 false 1 [0xB0]) todo }

/-- The steps of the repeated-start path from WRITE_DATA on. -/
def fromLoad : List AcceptStep := [.loadFirst, .firstSent, .continueTx]

/-- A faulted instance. -/
def broken : Inst := { up with fault := some .txEmptyAfterRs }

/-- The state after one step on one message. -/
def after (m : Msg) (s : State) : Option State :=
  match step { s with inbox := [m] } with
  | .next t => some t
  | .fault _ => none
  | .refused _ => none

/-- What one step on one message makes of the instance. -/
def run (m : Msg) (x : Inst) : Option Inst := (after m (sys x)).bind (fun t => t.insts[0]?)

/-- What the command port answers. -/
def answer (m : Msg) (x : Inst) : Option Reply := (after m (sys x)).map (fun t => t.reply)

/-- What a hardware operation makes of the instance. -/
def op (i : Instr) (x : Inst) : Option Inst :=
  match exec i (sys x) with
  | .next t => t.insts[0]?
  | .fault _ => none
  | .refused _ => none

/-- `MODE`, `LAST_STATUS` and the trace. -/
def seen (x : Inst) : Mode × Byte × List TraceOp := (x.mode.val, x.lastStatus.val, x.hw.trace)

/-- The two cursors, `busy` and `pend`. -/
def marks (x : Inst) : Byte × Byte × Bool × Bool := (x.txCur.val, x.rxCur.val, x.hw.busy, x.hw.pend)

/-! ## The checks of WellFormed.lean, each with a term it refuses -/

theorem test_params_wf : p1.wf = true := by decide
theorem test_params_wf_default : Params.default.wf = true := by decide
theorem test_params_txCap : Params.wf { p1 with txCap := 0 } = false := by decide
theorem test_params_rxCap : Params.wf { p1 with rxCap := 0 } = false := by decide
theorem test_params_nInst : Params.wf { p1 with nInst := 0 } = false := by decide
theorem test_params_distinct : Params.wf { p1 with codes := { Codes.default with arbLost := 0x30 } } = false := by decide
theorem test_params_masked : Params.wf { p1 with codes := { Codes.default with arbLost := 0x39 } } = false := by decide
theorem test_params_sentinels : Params.wf { p1 with success := 0xF8 } = false := by decide
theorem test_params_success_unreadable : Params.wf { p1 with success := 0x60 } = false := by decide
theorem test_params_noInfo_code : Params.wf { p1 with noInfo := 0xF9 } = false := by decide

theorem test_wf_no_such_bus :
    Instr.wf p1 (.init 1) = false ∧ Instr.wf p1 (.isReady 1) = false ∧ Instr.wf p1 (.transmit 1 false 0 []) = false ∧
    Instr.wf p1 (.read 1 false 0 0) = false ∧ Instr.wf p1 (.getStatus 1) = false ∧ Instr.wf p1 (.getRxByte 1 0) = false ∧
    Instr.wf p1 (.init 0) = true := by decide
theorem test_wf_payload : Instr.wf p1 (.transmit 0 false 2 [0xA0]) = false := by decide
theorem test_wf_index : Instr.wf p1 (.getRxByte 0 16) = false ∧ Instr.wf p1 (.getRxByte 0 15) = true := by decide
theorem test_wf_event_bus : Instr.wf p1 (.evtStartSent 1 0x08) = false ∧ Instr.wf p1 (.evtUnhandled 1 0x60) = false := by
  decide
theorem test_wf_event_status :
    Instr.wf p1 (.evtIllegalStartStop 0 0x08) = false ∧ Instr.wf p1 (.evtStartSent 0 0x10) = false ∧
    Instr.wf p1 (.evtRepStartSent 0 0x08) = false ∧ Instr.wf p1 (.evtMtSlawAck 0 0x20) = false ∧
    Instr.wf p1 (.evtMtSlawNack 0 0x18) = false ∧ Instr.wf p1 (.evtMtDataAck 0 0x30) = false ∧
    Instr.wf p1 (.evtMtDataNack 0 0x28) = false ∧ Instr.wf p1 (.evtArbLost 0 0x00) = false ∧
    Instr.wf p1 (.evtMrSlarAck 0 0x48) = false ∧ Instr.wf p1 (.evtMrSlarNack 0 0x40) = false ∧
    Instr.wf p1 (.evtMrDataAck 0 0x58 0) = false ∧ Instr.wf p1 (.evtMrDataNack 0 0x50 0) = false ∧
    Instr.wf p1 (.evtNoInfoClass 0 0xFF) = true ∧ Instr.wf p1 (.evtNoInfoClass 0 0xF0) = false ∧
    Instr.wf p1 (.evtUnhandled 0 0x07) = false := by decide
theorem test_wf_hwop_bus :
    Instr.wf p1 (.issueStart 1) = false ∧ Instr.wf p1 (.issueStop 1) = false ∧ Instr.wf p1 (.continueTx 1) = false ∧
    Instr.wf p1 (.ackNext 1) = false ∧ Instr.wf p1 (.nackNext 1) = false ∧ Instr.wf p1 (.writeData 1 0) = false ∧
    Instr.wf p1 (.readData 1) = false ∧ Instr.wf p1 (.readStatus 1) = false ∧ Instr.wf p1 (.setDivisor 1 0) = false ∧
    Instr.wf p1 (.enable 1) = false ∧ Instr.wf p1 (.enable 0) = true := by decide

/-! ## Decoding: words written out from R71, R72, R78 (95_test_vectors.md 2.1, 2.2) -/

theorem test_decode_init : decodeTableWord 24 0b00000000_00000000_0_000_0_000 = some (.init 0) := by decide
theorem test_decode_isReady : decodeTableWord 24 0b00000000_00000000_0_010_0_001 = some (.isReady 2) := by decide
theorem test_decode_transmit :
    decodeCmd { p1 with nInst := 2 } 0b00000000_00000010_0_001_0_010 [0xA0, 0x10] = .ok (.transmit 1 false 2 [0xA0, 0x10]) := by
  rfl
theorem test_decode_transmit_rs : decodeCmd p1 0x00020A [0xA0, 0x05] = .ok (.transmit 0 true 2 [0xA0, 0x05]) := by rfl
theorem test_decode_read : decodeTableWord 24 0b00000010_01010000_0_000_0_011 = some (.read 0 false 0x50 2) := by decide
theorem test_decode_read_rs : decodeTableWord 24 0x02500B = some (.read 0 true 0x50 2) := by decide
theorem test_decode_getStatus : decodeTableWord 24 0b00000000_00000000_0_000_0_100 = some (.getStatus 0) := by decide
theorem test_decode_getRxByte : decodeTableWord 24 0b00000000_00001111_0_000_0_101 = some (.getRxByte 0 15) := by decide
theorem test_decode_reserved :
    decodeTableWord 24 0x000006 = some (.reservedOp6 0) ∧ decodeTableWord 24 0xFFFFFF = some (.reservedOp7 0x1FFFFF) := by
  decide
theorem test_decode_events :
    decodeTableWord 8 0x07 = some (.evtIllegalStartStop 0 0x07) ∧ decodeTableWord 8 0x0B = some (.evtStartSent 0 0x0B) ∧
    decodeTableWord 8 0x10 = some (.evtRepStartSent 0 0x10) ∧ decodeTableWord 8 0x18 = some (.evtMtSlawAck 0 0x18) ∧
    decodeTableWord 8 0x20 = some (.evtMtSlawNack 0 0x20) ∧ decodeTableWord 8 0x28 = some (.evtMtDataAck 0 0x28) ∧
    decodeTableWord 8 0x30 = some (.evtMtDataNack 0 0x30) ∧ decodeTableWord 8 0x38 = some (.evtArbLost 0 0x38) := by
  decide
theorem test_decode_events_receive :
    decodeTableWord 8 0x40 = some (.evtMrSlarAck 0 0x40) ∧ decodeTableWord 8 0x48 = some (.evtMrSlarNack 0 0x48) ∧
    decodeTableWord 8 0x50 = some (.evtMrDataAck 0 0x50 0) ∧ decodeTableWord 8 0x5F = some (.evtMrDataNack 0 0x5F 0) ∧
    decodeTableWord 8 0xFB = some (.evtNoInfoClass 0 0xFB) ∧ decodeTableWord 8 0x60 = some (.evtUnhandled 0 0x60) ∧
    decodeTableWord 8 0xF0 = some (.evtUnhandled 0 0xF0) := by
  decide
/-- V-EN-14 to V-EN-20, by name. -/
theorem test_decode_refusals :
    decodeCmd p1 0x000080 [] = .error .reservedBit ∧ decodeCmd p1 0x000008 [] = .error .rsNotAllowed ∧
    decodeCmd p1 0x000100 [] = .error .aNotZero ∧ decodeCmd p1 0x010002 [] = .error .bNotZero ∧
    decodeCmd p1 0x000010 [] = .error .noSuchInstance ∧ decodeCmd p1 0x000202 [0xA0] = .error .payloadCount ∧
    decodeCmd p1 0x001005 [] = .error .indexPastRxCap := by
  refine ⟨rfl, rfl, rfl, rfl, rfl, rfl, rfl⟩
/-- V-EN-21: an oversized length is no refusal. -/
theorem test_decode_oversized :
    decodeCmd p1 0x001102 (List.replicate 17 0) = .ok (.transmit 0 false 17 (List.replicate 17 0)) := by rfl
/-- R75's examples, encoded. -/
theorem test_encode_examples :
    encode (.transmit 1 false 2 [0xA0, 0x10]) = some (.cmd 0x000212 [0xA0, 0x10]) ∧
    encode (.read 0 true 0x50 2) = some (.cmd 0x02500B []) := by decide
/-- R76: REG_READ 0x50, 0x05, 1 is P3's two commands. -/
theorem test_pseudo_regRead :
    (Pseudo.regRead 0 0x50 0x05 1).expand = [.transmit 0 true 2 [0xA0, 0x05], .read 0 false 0x50 1] := by decide
/-- R75's example text. -/
theorem test_asm_read : asm (.read 0 true 0x50 2) = some "READ 0x50, 2, 1".toList := by rfl

/-! ## Foreground commands (2.3) -/

/-- V-IN-1. -/
theorem test_init :
    (run (.cmd 0x000000 []) Inst.powerOn).map (fun y => (y.mode, y.repStart, y.hw.en, y.hw.ie, y.initd, y.txLen.written)) =
      some (Reg.of .ready, Reg.of false, true, true, true, false) := by decide
/-- V-IN-4. -/
theorem test_init_busy :
    (run (.cmd 0x000000 []) holding).map (fun y => y.fault) = some (some (.initWhileBusy .repeatedStartSent)) := by decide
/-- V-IR-1. -/
theorem test_isReady_early :
    (run (.cmd 0x000001 []) Inst.powerOn).map (fun y => y.fault) = some (some (.notInitialised .isReady)) := by decide
/-- V-IR-2, V-IR-3, V-IR-4. -/
theorem test_isReady :
    answer (.cmd 0x000001 []) up = some (.ready true) ∧ answer (.cmd 0x000001 []) holding = some (.ready true) ∧
    answer (.cmd 0x000001 []) (receiving 0 2 false) = some (.ready false) := by decide
/-- V-TX-1. -/
theorem test_transmit :
    (run (.cmd 0x000202 [0xA0, 0x10]) up).map (fun y => (seen y, y.txCur, y.txBuf)) =
      some ((.initializing, 0xFF, [.start]), Reg.of 0, [(0, 0xA0), (1, 0x10)]) := by decide
/-- V-TX-8. -/
theorem test_transmit_repeated :
    (run (.cmd 0x000202 [0xA0, 0x10]) holding).map (fun y => (seen y, y.txCur, y.hw.data)) =
      some ((.initializing, 0xFF, [.cont 0xA0]), Reg.of 1, Reg.of 0xA0) := by decide
/-- V-TX-7. -/
theorem test_transmit_empty :
    (run (.cmd 0x000002 []) holding).map (fun y => (y.fault, y.repStart, y.txLen, y.txCur, y.mode.val)) =
      some (some .txEmptyAfterRs, Reg.of false, Reg.of 0, Reg.of 0, .repeatedStartSent) := by decide
/-- V-TX-4, V-RD-2: the overflow test comes before the wait. -/
theorem test_overflow :
    answer (.cmd 0x001102 (List.replicate 17 0)) (sending .initializing 0 2 false) = some (.api .transmit .overflow) ∧
    answer (.cmd 0x105003 []) up = some (.api .read .overflow) := by decide
/-- V-TX-5: in flight, TRANSMIT holds the Foreground. -/
theorem test_transmit_holds :
    (after (.cmd 0x000102 [0xA0]) (sys (sending .initializing 0 2 false))).map (fun t => t.fg) =
      some (.held (.transmit 0 false 1 [0xA0])) := by decide
/-- V-RD-1. -/
theorem test_read :
    (run (.cmd 0x0F5003 []) up).map (fun y => (y.rxLen, y.rxCur, y.hw.trace)) =
      some (Reg.of 15, Reg.of 0, [.start]) ∧
    (run (.cmd 0x0F5003 []) up).map (fun y => y.txBuf) = some [(0, 0xA1)] := by decide
/-- V-RD-5. -/
theorem test_read_repeated :
    (run (.cmd 0x015003 []) holding).map (fun y => (marks y, y.rxLen, y.hw.data, y.hw.trace)) =
      some ((1, 0, true, false), Reg.of 1, Reg.of 0xA1, [.cont 0xA1]) := by decide
/-- V-GS-1. -/
theorem test_getStatus : answer (.cmd 0x000004 []) { up with lastStatus := Reg.of 0x20 } = some (.byte 0x20) := by decide
/-- V-GR-1. -/
theorem test_getRxByte : answer (.cmd 0x000005 []) { up with rxBuf := [(0, 0x11), (1, 0x22)] } = some (.byte 0x11) := by
  decide
/-- V-GR-2. -/
theorem test_getRxByte_unwritten :
    (run (.cmd 0x000205 []) { up with rxBuf := [(0, 0x11), (1, 0x22)] }).map (fun y => y.fault) =
      some (some (.unwrittenRead (.rxBuf 2))) := by decide
/-- V-EN-12, V-EN-13. -/
theorem test_reserved :
    answer (.cmd 0x000006 []) up = some (.refused .reservedSelector) ∧
    answer (.cmd 0x000007 []) up = some (.refused .reservedSelector) := by decide
/-- The frames of R107. -/
theorem test_readFrame :
    readFrame 0x50 = 0xA1 ∧ readFrame 0x7F = 0xFF ∧ readFrame 0x00 = 0x01 ∧ readFrame 0x80 = 0x01 ∧
    readFrame 0xFF = 0xFF ∧ readFrame 0x08 = 0x11 ∧ readFrame 0x3C = 0x79 := by decide

/-! ## The acceptance with REDISPATCH, and what may come between its steps (R63, R112, R198, R233) -/

/-- The command enters its acceptance and writes nothing yet. -/
theorem test_enters_acceptance :
    (after (.cmd 0x000102 [0xB0]) (sysR holding)).map (fun t => (t.fg, t.insts, t.reply)) =
      some (.accepting (.transmit 0 false 1 [0xB0])
        [.repStart false, .copy 0 0xB0, .txStart 1, .path 1], [holding], .noReply) := by decide
/-- A turn takes one step; the last one returns. -/
theorem test_turn :
    (after .turn (inside holding (.modeInitializing :: fromLoad))).map (fun t => (t.fg, t.insts)) =
      some (.accepting (.transmit 0 false 1 [0xB0]) fromLoad, [{ holding with mode := Reg.of .initializing }]) ∧
    (after .turn (inside raced [])).map (fun t => (t.fg, t.reply, t.insts)) =
      some (.idle, .api .transmit .ok, [raced]) := by decide
/-- R233: a redispatch between `MODE <- Initializing` and the CONTINUE. -/
theorem test_redispatch_inside :
    (after (.redispatch 0) (inside { holding with mode := Reg.of .initializing } fromLoad)).map (fun t => (t.fg, t.insts)) =
      some (.accepting (.transmit 0 false 1 [0xB0]) fromLoad, [holding]) := by decide
/-- R233: the second TRANSMIT is accepted mid-transfer, and a delivery may land inside its acceptance (R181, R198). -/
theorem test_event_inside :
    (after (.cmd 0x000102 [0xB0]) (sysR raced)).map (fun t => t.fg) =
      some (.accepting (.transmit 0 false 1 [0xB0]) [.repStart false, .copy 0 0xB0, .txStart 1, .path 1]) ∧
    (after (.evt 0 0x10 0) (inside { raced with mode := Reg.of .initializing } fromLoad)).map
        (fun t => (t.evtReply, t.fg, t.insts.map (fun y => (y.mode.val, y.hw.busy, y.hw.pend)))) =
      some (.delivered, .accepting (.transmit 0 false 1 [0xB0]) fromLoad, [(.repeatedStartSent, false, true)]) := by decide
/-- R176: WRITE_DATA collides while the CONTINUE is outstanding, and does not after the delivery. -/
theorem test_load_inside :
    (after .turn (inside { raced with mode := Reg.of .initializing } fromLoad)).map (fun t => t.insts.map (fun y => y.fault)) =
      some [some (.dataWriteCollision 0xA0)] ∧
    (after .turn (inside holding fromLoad)).map (fun t => (t.fg, t.insts.map (fun y => y.hw.data))) =
      some (.accepting (.transmit 0 false 1 [0xB0]) [.firstSent, .continueTx], [Reg.of 0xA0]) := by decide
/-- The path of T6 is chosen by the `MODE` that then stands. -/
theorem test_path_inside :
    (after .turn (inside holding [.path 1])).map (fun t => t.fg) =
      some (.accepting (.transmit 0 false 1 [0xB0]) (.notEmpty 1 :: .modeInitializing :: fromLoad)) ∧
    (after .turn (inside { raced with mode := Reg.of .masterTransmitter } [.path 1])).map (fun t => t.fg) =
      some (.accepting (.transmit 0 false 1 [0xB0]) [.modeInitializing, .issueStart]) := by decide
/-- R33: T5 and Q3 write the cursor and the length in one step, also where a transfer is in flight. -/
theorem test_start_inside :
    (after .turn (inside raced [.txStart 0])).map (fun t => t.insts.map (fun y => (y.txCur, y.txLen))) =
      some [(Reg.of 0, Reg.of 0)] ∧
    (after .turn (inside (receiving 2 3 true) [.rxStart 1])).map (fun t => t.insts.map (fun y => (y.rxCur, y.rxLen))) =
      some [(Reg.of 0, Reg.of 1)] := by decide
/-- The invariant of R33 inside a second acceptance, with the CONTINUE of the first outstanding. -/
theorem test_cursorInv :
    (inside raced (transmitSteps false 1 [0xB0])).CursorInv ∧ ¬ (inside raced [.txStart 17]).CursorInv := by decide
/-- R101: a turn at READ's inner wait does nothing while READY is false. -/
theorem test_wait_inside :
    (after .turn (inside (sending .initializing 0 1 true) [.wait])).map (fun t => t.fg) =
      some (.accepting (.transmit 0 false 1 [0xB0]) [.wait]) ∧
    (after .turn (inside up [.wait])).map (fun t => t.fg) = some (.accepting (.transmit 0 false 1 [0xB0]) []) := by decide

/-! ## Dispatcher rows (2.4, 2.5) -/

/-- V-LF-1 and the example of R136. -/
theorem test_startSent :
    (run (.evt 0 0x08 0) (sending .initializing 0 3 false)).map (fun y => (seen y, marks y)) =
      some ((.initializing, 0xF8, [.cont 0xA0]), (1, 0, true, false)) := by decide
/-- V-DR-2. -/
theorem test_repStartSent :
    (run (.evt 0 0x10 0) (sending .masterTransmitter 2 2 true)).map (fun y => (seen y, marks y)) =
      some ((.repeatedStartSent, 0xFF, []), (2, 0, false, true)) := by decide
/-- V-DR-3. -/
theorem test_mtSlawAck :
    (run (.evt 0 0x18 0) (sending .initializing 1 2 false)).map (fun y => (seen y, marks y)) =
      some ((.masterTransmitter, 0xF8, [.cont 0x10]), (2, 0, true, false)) := by decide
/-- V-DR-4. -/
theorem test_mtSlawAck_finish :
    (run (.evt 0 0x18 0) (sending .initializing 1 1 false)).map (fun y => (seen y, marks y)) =
      some ((.ready, 0xFF, [.stop]), (1, 0, false, false)) := by decide
/-- V-DR-5. -/
theorem test_mtSlawNack :
    (run (.evt 0 0x20 0) (sending .initializing 1 2 false)).map seen = some (.ready, 0x20, [.stop]) := by decide
/-- V-DR-6. -/
theorem test_mtSlawNack_chain :
    (run (.evt 0 0x20 0) (sending .initializing 1 2 true)).map seen = some (.initializing, 0x20, [.start]) := by decide
/-- V-DR-7. -/
theorem test_mtDataAck :
    (run (.evt 0 0x28 0) (sending .masterTransmitter 2 3 false)).map (fun y => (seen y, y.txCur)) =
      some ((.masterTransmitter, 0xF8, [.cont 0x20]), Reg.of 3) := by decide
/-- V-DR-8. -/
theorem test_mtDataAck_chain :
    (run (.evt 0 0x28 0) (sending .masterTransmitter 2 2 true)).map seen = some (.masterTransmitter, 0xFF, [.start]) := by
  decide
/-- V-DR-9. -/
theorem test_mtDataNack :
    (run (.evt 0 0x30 0) (sending .masterTransmitter 2 3 false)).map seen = some (.ready, 0x30, [.stop]) := by decide
/-- V-DR-10, V-DR-11. -/
theorem test_arbLost :
    (run (.evt 0 0x38 0) (sending .masterTransmitter 2 3 false)).map seen = some (.ready, 0x38, [.stop]) ∧
    (run (.evt 0 0x38 0) (sending .masterTransmitter 2 3 true)).map seen = some (.masterTransmitter, 0x38, [.start]) := by
  decide
/-- V-DR-12. -/
theorem test_mrSlarAck :
    (run (.evt 0 0x40 0) { receiving 0 3 false with mode := Reg.of .initializing }).map seen =
      some (.masterReceiver, 0xF8, [.ackNext]) := by decide
/-- V-DR-13. -/
theorem test_mrSlarAck_unwritten :
    (run (.evt 0 0x40 0) (sending .initializing 1 1 false)).map (fun y => (y.fault, seen y)) =
      some (some (.unwrittenRead .rxLen), (.masterReceiver, 0xF8, [])) := by decide
/-- V-DR-14. -/
theorem test_mrSlarNack :
    (run (.evt 0 0x48 0) (receiving 0 3 false)).map (fun y => (seen y, y.rxCur)) =
      some ((.ready, 0x48, [.stop]), Reg.of 0) := by decide
/-- V-DR-15. -/
theorem test_mrDataAck :
    (run (.evt 0 0x50 0x5A) (receiving 1 3 false)).map (fun y => (seen y, y.rxCur, y.rxBuf)) =
      some ((.masterReceiver, 0xF8, [.nackNext]), Reg.of 2, [(0, 0x11), (1, 0x5A)]) := by decide
/-- V-SR-3. -/
theorem test_mrDataAck_overrun :
    (run (.evt 0 0x50 0x5A) (receiving 2 2 false)).map (fun y => (y.fault, y.rxBuf)) =
      some (some (.rxOverrun 2 2 0x50), [(0, 0x11), (1, 0x11)]) := by decide
/-- V-DR-16. -/
theorem test_mrDataNack :
    (run (.evt 0 0x58 0x77) (receiving 2 3 false)).map (fun y => (seen y, y.rxCur, y.rxBuf)) =
      some ((.ready, 0xFF, [.stop]), Reg.of 3, [(0, 0x11), (1, 0x11), (2, 0x77)]) := by decide
/-- V-DR-17. -/
theorem test_mrDataNack_chain :
    (run (.evt 0 0x58 0x77) (receiving 2 3 true)).map seen = some (.masterReceiver, 0xFF, [.start]) := by decide
/-- V-DR-19. -/
theorem test_illegalStartStop :
    (run (.evt 0 0x00 0) (sending .masterTransmitter 1 2 true)).map (fun y => (seen y, y.repStart)) =
      some ((.ready, 0x00, [.stop]), Reg.of true) := by decide
/-- V-DR-20. -/
theorem test_unhandled :
    (run (.evt 0 0x60 0) (sending .initializing 1 2 true)).map (fun y => (y.fault, y.hw.trace)) =
      some (some (.unhandledStatus 0x60), []) := by decide
/-- V-ST-7: the event port refuses NO_INFO. -/
theorem test_noInfo :
    (after (.evt 0 0xFB 0) (sys (sending .initializing 1 2 true))).map (fun t => (t.evtReply, t.insts)) =
      some (.refused .noInfoStatus, [sending .initializing 1 2 true]) := by decide
/-- V-HW-7, V-HW-8. -/
theorem test_no_delivery :
    (after (.evt 0 0x08 0) (sys up)).map (fun t => (t.evtReply, t.insts)) = some (.refused .notEnabled, [up]) ∧
    (after (.evt 0 0x08 0) (sys Inst.powerOn)).map (fun t => t.insts) = some [Inst.powerOn] := by decide
/-- V-HW-9. -/
theorem test_redispatch :
    (after (.redispatch 0) (sysR { holding with mode := Reg.of .initializing })).map (fun t => t.insts) = some [holding] ∧
    (after (.redispatch 0) (sys holding)).map (fun t => t.insts) = some [holding] := by decide

/-! ## Hardware operations (2.6) -/

/-- V-HW-1, V-HW-2. -/
theorem test_issueStart_issueStop :
    (op (.issueStart 0) holding).map (fun y => (y.hw.busy, y.hw.pend, y.hw.trace)) = some (true, false, [.start]) ∧
    (op (.issueStop 0) holding).map (fun y => (y.hw.busy, y.hw.pend, y.hw.trace)) = some (false, false, [.stop]) := by decide
/-- V-HW-3. -/
theorem test_continueTx : (op (.continueTx 0) holding).map (fun y => y.hw.trace) = some [.cont 0x10] := by decide
/-- R174, R175: the two are told apart (R87). -/
theorem test_ackNext_nackNext :
    (op (.ackNext 0) holding).map (fun y => y.hw.trace) = some [.ackNext] ∧
    (op (.nackNext 0) holding).map (fun y => y.hw.trace) = some [.nackNext] := by decide
/-- V-HW-4, V-HW-5. -/
theorem test_writeData :
    (op (.writeData 0 0x42) holding).map (fun y => (y.hw.data, y.hw.trace)) = some (Reg.of 0x42, []) ∧
    (op (.writeData 0 0x10) up).map (fun y => y.fault) = some (some (.dataWriteCollision 0x10)) := by decide
/-- R177 and R178's example. -/
theorem test_readData_readStatus :
    (match exec (.readData 0) (sys holding) with | .next t => some t.hwReply | _ => none) = some (.byte 0x10) ∧
    (match exec (.readStatus 0) (sys { up with hw := { up.hw with status := Reg.of 0x0B } }) with
      | .next t => some t.hwReply
      | _ => none) = some (.byte 0x08) := by decide
/-- R179, and V-HW-6. -/
theorem test_setDivisor_enable :
    (op (.setDivisor 0 72) up).map (fun y => (y.hw.div, y.hw.trace)) = some (Reg.of 72, [.setDivisor 72]) ∧
    (op (.enable 0) Inst.powerOn).map (fun y => (y.hw.en, y.hw.ie, y.hw.busy, y.hw.trace)) =
      some (true, true, false, [.enable]) := by decide

/-- P7 step 6 and R230: after ARB_LOST the chaining START finds the bus free; while the bus is held it is a repeated START. -/
theorem test_busLegal :
    (Inst.busLegal p1 { up with
      hw := { up.hw with
        busy := true
        status := Reg.of 0x38
        trace := [.setDivisor 0, .enable, .start, .cont 0xA0, .cont 0x10, .start] } } .startSent = true) ∧
    (Inst.busLegal p1 { up with
      hw := { up.hw with
        busy := true
        status := Reg.of 0x20
        trace := [.setDivisor 0, .enable, .start, .cont 0xA0, .start] } } .startSent = false) := by decide

/-! ## The host's two entries -/

/-- A command word and a status byte placed at their ports run in the very next step. -/
theorem test_withFetchWord :
    (match step (State.reset.withFetchWord 24 0x000000) with
      | .next t => (t.insts[0]?).map (fun y => y.initd)
      | _ => none) = some true ∧
    (match step (State.reset.withFetchWord 8 0x10) with
      | .next t => (t.insts[0]?).map (fun y => y.mode)
      | _ => none) = some (Reg.of .repeatedStartSent) := by decide

/-! ## Witnesses: states and operands that meet each obligation's hypotheses, each clause's at a boundary -/

theorem witness_DecodeInvertsEncode :
    (p1.wf = true ∧ Instr.wf p1 (.transmit 0 true 0 []) = true ∧ encode (.transmit 0 true 0 []) = some (.cmd 0x00000A [])) ∧
    (p1.wf = true ∧ Instr.wf p1 (.getRxByte 0 15) = true ∧ encode (.getRxByte 0 15) = some (.cmd 0x000F05 [])) ∧
    (p1.wf = true ∧ Instr.wf p1 (.evtUnhandled 0 0xF7) = true ∧ encode (.evtUnhandled 0 0xF7) = some (.evt 0 0xF7 0)) := by
  decide

/-- One word for each of R74's eight cases, at its boundary, and one for none of them. -/
theorem witness_RefusedWordsChangeNothing :
    (sys up).fg = .idle ∧ CmdWord.op 0xFFFFFE = 6#3 ∧ CmdWord.op 0x000007 = 7#3 ∧ CmdWord.reserved 0x000080 = true ∧
    (CmdWord.rs 0x000008 = true ∧ CmdWord.op 0x000008 ≠ 2#3 ∧ CmdWord.op 0x000008 ≠ 3#3) ∧
    (CmdWord.a 0x000104 ≠ 0#8 ∧ CmdWord.op 0x000104 = 4#3) ∧ (CmdWord.b 0x010002 ≠ 0#8 ∧ CmdWord.op 0x010002 ≠ 3#3) ∧
    (sys up).params.nInst ≤ (CmdWord.instField 0x000010).toNat ∧
    (CmdWord.op 0x000102 = 2#3 ∧ ([] : List Byte).length ≠ (CmdWord.a 0x000102).toNat) ∧
    (CmdWord.op 0x001005 = 5#3 ∧ (sys up).params.rxCap ≤ (CmdWord.a 0x001005).toNat) := by
  decide
theorem witness_RefusedWordsChangeNothing_none :
    ¬ (CmdWord.op 0x000F05 = 6#3 ∨ CmdWord.op 0x000F05 = 7#3 ∨ CmdWord.reserved 0x000F05 = true ∨
      (CmdWord.rs 0x000F05 = true ∧ CmdWord.op 0x000F05 ≠ 2#3 ∧ CmdWord.op 0x000F05 ≠ 3#3) ∨
      (CmdWord.a 0x000F05 ≠ 0#8 ∧ (CmdWord.op 0x000F05 = 0#3 ∨ CmdWord.op 0x000F05 = 1#3 ∨ CmdWord.op 0x000F05 = 4#3)) ∨
      (CmdWord.b 0x000F05 ≠ 0#8 ∧ CmdWord.op 0x000F05 ≠ 3#3) ∨
      (sys up).params.nInst ≤ (CmdWord.instField 0x000F05).toNat ∨
      (CmdWord.op 0x000F05 = 2#3 ∧ ([] : List Byte).length ≠ (CmdWord.a 0x000F05).toNat) ∨
      (CmdWord.op 0x000F05 = 5#3 ∧ (sys up).params.rxCap ≤ (CmdWord.a 0x000F05).toNat)) ∧
    (CmdWord.op 0x000F05 ≠ 2#3 → ([] : List Byte) = []) := by
  decide

theorem witness_ClassificationIsExact :
    p1.wf = true ∧ (.illegalStartStop, 0x00) ∈ p1.codes.table ∧ (.noInfoClass, 0xF8) ∈ p1.codes.table ∧
    (∀ e ∈ p1.codes.table, e.2 ≠ 0x60) ∧ 0 < p1.nInst := by decide

theorem witness_PowerOnState : 0 < p1.nInst ∧ 7 < Params.default.nInst := by decide

/-- The four clauses: before the first INIT, `Ready`, another mode, and `Ready` with something outstanding. -/
theorem witness_InitResetsOrFaults :
    ((sys Inst.powerOn).fg = .idle ∧ (sys Inst.powerOn).insts[0]? = some Inst.powerOn ∧ Inst.powerOn.fault = none ∧
      Inst.powerOn.initd = false) ∧
    ((sys up).insts[0]? = some up ∧ up.fault = none ∧ up.mode = Reg.of .ready ∧ up.hw.busy = false ∧ up.hw.pend = false) ∧
    ((sys holding).insts[0]? = some holding ∧ holding.fault = none ∧ holding.initd = true ∧ holding.mode.written = true ∧
      holding.mode.val ≠ .ready) ∧
    ((sending .ready 0 0 false).initd = true ∧ (sending .ready 0 0 false).mode.written = true ∧
      (sending .ready 0 0 false).hw.busy = true) := by decide

theorem witness_InitTwiceIsInitOnce :
    (sys Inst.powerOn).fg = .idle ∧ (sys Inst.powerOn).insts[0]? = some Inst.powerOn ∧ Inst.powerOn.fault = none ∧
    Inst.powerOn.initd = false ∧ Inst.powerOn.hw.busy = false ∧ Inst.powerOn.hw.pend = false ∧
    up.fault = none ∧ up.mode = Reg.of .ready ∧ up.hw.busy = false ∧ up.hw.pend = false := by decide

/-- For `IsReadyAnswers` and `GetStatusAnswers`: a command to an instance in use. -/
theorem witness_IsReadyAnswers :
    (sys holding).fg = .idle ∧ (sys holding).insts[0]? = some holding ∧ holding.fault = none ∧ holding.initd = true ∧
    holding.mode.written = true := by decide
theorem witness_GetStatusAnswers :
    (sys up).fg = .idle ∧ (sys up).insts[0]? = some up ∧ up.fault = none ∧ up.initd = true ∧
    up.lastStatus.written = true := by decide

/-- The five commands; the highest index that is not refused. -/
theorem witness_NotInitialisedFaults :
    (sys Inst.powerOn).fg = .idle ∧ (sys Inst.powerOn).insts[0]? = some Inst.powerOn ∧ Inst.powerOn.fault = none ∧
    Inst.powerOn.initd = false ∧ ([] : List Byte).length = (0 : Byte).toNat ∧
    (15 : Byte).toNat < (sys Inst.powerOn).params.rxCap := by decide

/-- Payloads of 0 and of TX_CAP bytes. -/
theorem witness_TransmitOnReadyPath :
    (sys up).fg = .idle ∧ (sys up).insts[0]? = some up ∧ up.fault = none ∧ up.initd = true ∧ up.mode = Reg.of .ready ∧
    ([] : List Byte).length = (0 : Byte).toNat ∧ (List.replicate 16 (0 : Byte)).length = (16 : Byte).toNat ∧
    (16 : Byte).toNat ≤ (sys up).params.txCap ∧ (sys up).params.redispatch = false ∧
    (sysR up).fg = .idle ∧ (sysR up).insts[0]? = some up ∧ (16 : Byte).toNat ≤ (sysR up).params.txCap ∧
    (sysR up).params.redispatch = true := by decide

theorem witness_TransmitOnRepeatedStartPath :
    (sys holding).fg = .idle ∧ (sys holding).insts[0]? = some holding ∧ holding.fault = none ∧ holding.initd = true ∧
    holding.mode = Reg.of .repeatedStartSent ∧ holding.hw.pend = true ∧
    ((0xA0 : Byte) :: []).length = (1 : Byte).toNat ∧ (16 : Byte).toNat ≤ (sys holding).params.txCap ∧
    (sys holding).params.redispatch = false ∧
    (sysR holding).fg = .idle ∧ (sysR holding).insts[0]? = some holding ∧ (16 : Byte).toNat ≤ (sysR holding).params.txCap ∧
    (sysR holding).params.redispatch = true := by decide

/-- Both clauses: a payload of one byte and the greatest count, the redispatch at the first and at the last place before the
CONTINUE. -/
theorem witness_RedispatchRaceIsAdmitted :
    (sysR holding).params.wf = true ∧ (sysR holding).params.redispatch = true ∧ (sysR holding).fg = .idle ∧
    (sysR holding).insts[0]? = some holding ∧ holding.fault = none ∧ holding.initd = true ∧
    holding.mode = Reg.of .repeatedStartSent ∧ holding.hw.en = true ∧ holding.hw.ie = true ∧ holding.hw.busy = false ∧
    holding.hw.pend = true ∧ holding.hw.status.written = true ∧
    holding.hw.status.val &&& (sysR holding).params.statusMask = (sysR holding).params.codes.repStartSent ∧
    ((0xA0 : Byte) :: []).length = (1 : Byte).toNat ∧ (1 : Byte).toNat ≤ (sysR holding).params.txCap ∧
    0 < (1 : Byte).toNat + 8 ∧ 8 < (1 : Byte).toNat + 8 ∧ (15 : Byte).toNat < (sysR holding).params.rxCap := by decide
theorem witness_RedispatchRaceIsAdmitted_words :
    decode (sysR holding).params (.cmd 0x000102 [0xA0]) = .ok (.transmit 0 false 1 [0xA0]) ∧
    decode (sysR holding).params (.cmd 0x0F5003 []) = .ok (.read 0 false 0x50 15) := ⟨rfl, rfl⟩

theorem witness_EmptyTransmitAfterRepeatedStartFaults :
    (sys holding).fg = .idle ∧ (sys holding).insts[0]? = some holding ∧ holding.fault = none ∧ holding.initd = true ∧
    holding.mode = Reg.of .repeatedStartSent ∧ (sys holding).params.redispatch = false ∧
    (sysR holding).fg = .idle ∧ (sysR holding).insts[0]? = some holding ∧ (sysR holding).params.redispatch = true := by decide

/-- The least length and the least count that overflow; in flight too. -/
theorem witness_OverflowLeavesEverything :
    (sys (receiving 0 2 true)).fg = .idle ∧ (sys (receiving 0 2 true)).insts[0]? = some (receiving 0 2 true) ∧
    (receiving 0 2 true).fault = none ∧ (receiving 0 2 true).initd = true ∧
    (List.replicate 17 (0 : Byte)).length = (17 : Byte).toNat ∧
    (sys (receiving 0 2 true)).params.txCap < (17 : Byte).toNat ∧
    (sys (receiving 0 2 true)).params.rxCap ≤ (16 : Byte).toNat := by decide

/-- The greatest length and the greatest count that wait. -/
theorem witness_NotReadyHoldsForeground :
    (sys (receiving 0 2 true)).fg = .idle ∧ (sys (receiving 0 2 true)).insts[0]? = some (receiving 0 2 true) ∧
    (receiving 0 2 true).fault = none ∧ (receiving 0 2 true).initd = true ∧ (receiving 0 2 true).mode.written = true ∧
    (receiving 0 2 true).mode.val ≠ .ready ∧ (receiving 0 2 true).mode.val ≠ .repeatedStartSent ∧
    (List.replicate 16 (0 : Byte)).length = (16 : Byte).toNat ∧
    (16 : Byte).toNat ≤ (sys (receiving 0 2 true)).params.txCap ∧
    (15 : Byte).toNat < (sys (receiving 0 2 true)).params.rxCap := by decide

/-- A Foreground held in a READ, with a turn of it first at the ports. -/
def waiting (x : Inst) : State := { sys x with fg := .held (.read 0 false 0x50 2), inbox := [.turn] }

theorem witness_HoldEndsOnlyWhenReady :
    (waiting up).fg = .held (.read 0 false 0x50 2) ∧
    ∃ t, step (waiting up) = .next t ∧ t.fg ≠ .held (.read 0 false 0x50 2) :=
  ⟨by decide, _, rfl, by decide⟩

theorem witness_HeldCommandGoesOnAsIssuedNow :
    (waiting up).fg = .held (.read 0 false 0x50 2) ∧ (waiting up).inbox = [.turn] ∧
    (waiting up).foregroundEnabled = true ∧ (waiting up).heldOk = true := by decide

theorem witness_ReadOnReadyPath :
    (sys up).fg = .idle ∧ (sys up).insts[0]? = some up ∧ up.fault = none ∧ up.initd = true ∧ up.mode = Reg.of .ready ∧
    (15 : Byte).toNat < (sys up).params.rxCap ∧ (0 : Byte).toNat < (sys up).params.rxCap ∧ 1 ≤ (sys up).params.txCap ∧
    (sys up).params.redispatch = false ∧ (sysR up).fg = .idle ∧ (sysR up).insts[0]? = some up ∧
    (15 : Byte).toNat < (sysR up).params.rxCap ∧ 1 ≤ (sysR up).params.txCap ∧ (sysR up).params.redispatch = true := by decide

theorem witness_ReadOnRepeatedStartPath :
    (sys holding).fg = .idle ∧ (sys holding).insts[0]? = some holding ∧ holding.fault = none ∧ holding.initd = true ∧
    holding.mode = Reg.of .repeatedStartSent ∧ holding.hw.pend = true ∧ (15 : Byte).toNat < (sys holding).params.rxCap ∧
    1 ≤ (sys holding).params.txCap ∧ (sys holding).params.redispatch = false ∧
    (sysR holding).fg = .idle ∧ (sysR holding).insts[0]? = some holding ∧ (15 : Byte).toNat < (sysR holding).params.rxCap ∧
    1 ≤ (sysR holding).params.txCap ∧ (sysR holding).params.redispatch = true := by decide

/-- The three clauses: the last index, written; one past it; the last index, unwritten. -/
theorem witness_GetRxByteAnswers :
    (sys up).fg = .idle ∧ (sys up).insts[0]? = some up ∧ up.fault = none ∧ up.initd = true ∧
    (15 : Byte).toNat < (sys up).params.rxCap ∧ Memory.read [(15, 0x11)] (15 : Byte).toNat = some 0x11 ∧
    (sys up).params.rxCap ≤ (16 : Byte).toNat ∧ Memory.read up.rxBuf (15 : Byte).toNat = none := by decide

theorem witness_ReservedSelectorsAreRefused : (sys up).fg = .idle := by decide

theorem witness_CommandToFaultedInstanceIsHeld :
    (sys broken).fg = .idle ∧ (sys broken).insts[0]? = some broken ∧ broken.fault ≠ none ∧
    ([] : List Byte).length = (0 : Byte).toNat ∧ (15 : Byte).toNat < (sys broken).params.rxCap := by decide

/-- Both commands, and a turn that changes its instance. -/
theorem witness_AcceptanceLeavesStatusAndReceiveBuffer :
    (sys up).insts[0]? = some up ∧
    (∃ t, exec (.transmit 0 false 1 [0xA0]) (sys up) = .next t) ∧ (∃ t, exec (.read 0 false 0x50 2) (sys up) = .next t) ∧
    (inside holding fromLoad).insts[0]? = some holding ∧ (inside holding fromLoad).turn.insts ≠ [holding] :=
  ⟨by decide, ⟨_, rfl⟩, ⟨_, rfl⟩, by decide, by decide⟩

/-- Delivery is enabled in flight. -/
theorem witness_delivery (m : Mode) (cur len : Byte) (rs : Bool) :
    (sys (sending m cur len rs)).insts[0]? = some (sending m cur len rs) ∧ (sending m cur len rs).fault = none ∧
    (sending m cur len rs).hw.en = true ∧ (sending m cur len rs).hw.ie = true ∧ (sending m cur len rs).hw.busy = true ∧
    (sending m cur len rs).repStart.written = true := ⟨rfl, rfl, rfl, rfl, rfl, rfl⟩

/-- With `witness_delivery`: the first and the last byte. -/
theorem witness_TransmitEventsSendNextByte :
    (sending .initializing 0 3 false).txCur.written = true ∧ (sending .initializing 0 3 false).txLen.written = true ∧
    (sending .initializing 0 3 false).txCur.val.toNat < (sending .initializing 0 3 false).txLen.val.toNat ∧
    (sending .initializing 0 3 false).txLen.val.toNat ≤ (sys (sending .initializing 0 3 false)).params.txCap ∧
    Memory.read (sending .initializing 0 3 false).txBuf 0 = some 0xA0 ∧
    (sending .initializing 2 3 false).txCur.val.toNat < (sending .initializing 2 3 false).txLen.val.toNat ∧
    Memory.read (sending .initializing 2 3 false).txBuf 2 = some 0x20 := by decide

/-- With `witness_delivery`: all sent, and nothing to send, chaining and not. -/
theorem witness_TransmitEventsFinish :
    (sending .masterTransmitter 3 3 true).txCur.written = true ∧ (sending .masterTransmitter 3 3 true).txLen.written = true ∧
    (sending .masterTransmitter 3 3 true).txLen.val.toNat ≤ (sending .masterTransmitter 3 3 true).txCur.val.toNat ∧
    (sending .initializing 0 0 false).txLen.val.toNat ≤ (sending .initializing 0 0 false).txCur.val.toNat := by decide

/-- With `witness_delivery` for the second clause: a written receive side, and an unwritten one. -/
theorem witness_SlarAckDecidesAcknowledge :
    (sys (receiving 0 1 false)).insts[0]? = some (receiving 0 1 false) ∧ (receiving 0 1 false).fault = none ∧
    (receiving 0 1 false).hw.en = true ∧ (receiving 0 1 false).hw.ie = true ∧ (receiving 0 1 false).hw.busy = true ∧
    (receiving 0 1 false).rxLen.written = true ∧ (receiving 0 1 false).rxCur.written = true ∧
    (sending .initializing 1 1 false).rxLen.written = false := by decide

/-- For the two receive events: the last element that has room. -/
theorem witness_DataAckStoresAndDecides :
    (sys (receiving 14 15 true)).insts[0]? = some (receiving 14 15 true) ∧ (receiving 14 15 true).fault = none ∧
    (receiving 14 15 true).hw.en = true ∧ (receiving 14 15 true).hw.ie = true ∧ (receiving 14 15 true).hw.busy = true ∧
    (receiving 14 15 true).rxCur.written = true ∧ (receiving 14 15 true).rxLen.written = true ∧
    (receiving 14 15 true).rxCur.val.toNat < (receiving 14 15 true).rxLen.val.toNat ∧
    (receiving 14 15 true).rxLen.val.toNat < (sys (receiving 14 15 true)).params.rxCap := by decide
theorem witness_DataNackStoresAndFinishes : (receiving 14 15 true).repStart.written = true := by decide

theorem witness_ReceiveOverrunFaults :
    (sys (receiving 15 15 false)).insts[0]? = some (receiving 15 15 false) ∧ (receiving 15 15 false).fault = none ∧
    (receiving 15 15 false).hw.en = true ∧ (receiving 15 15 false).hw.ie = true ∧ (receiving 15 15 false).hw.busy = true ∧
    (receiving 15 15 false).rxCur.written = true ∧ (receiving 15 15 false).rxLen.written = true ∧
    (receiving 15 15 false).rxLen.val.toNat ≤ (receiving 15 15 false).rxCur.val.toNat := by decide

theorem witness_NoInfoChangesNothing : (sys up).insts[0]? = some up := by decide

/-- The four ways in which delivery is not enabled. -/
theorem witness_NoEventWhileNotEnabled :
    (sys up).insts[0]? = some up ∧ up.hw.busy = false ∧ broken.fault ≠ none ∧ Inst.powerOn.hw.en = false ∧
    Inst.powerOn.hw.ie = false ∧ StatusClass.startSent ≠ .noInfoClass := by decide

/-- An event that faults nothing, and an unhandled one. -/
theorem witness_OneControlOperationPerEvent :
    (∃ t y, exec (StatusClass.event .startSent 0 0x08 0) (sys (sending .initializing 0 3 false)) = .next t ∧
      t.insts[0]? = some y ∧ y.fault = none) ∧
    (∃ t y, exec (StatusClass.event .unhandled 0 0x60 0) (sys (sending .initializing 0 3 false)) = .next t ∧
      t.insts[0]? = some y) :=
  ⟨⟨_, _, rfl, rfl, rfl⟩, ⟨_, _, rfl, rfl⟩⟩

/-- For `DispatcherNeverReadsMode` and `EventFrame`. -/
theorem witness_EventFrame :
    ∃ t, exec (StatusClass.event .mrDataAck 0 0x50 0x5A) (sys (receiving 1 3 false)) = .next t := ⟨_, rfl⟩
theorem witness_DispatcherNeverReadsMode :
    ∃ t, exec (StatusClass.event .repStartSent 0 0x10 0) (sys (sending .masterTransmitter 2 2 true)) = .next t := ⟨_, rfl⟩

theorem witness_ChainIssuesNoStop :
    (sending .masterTransmitter 3 3 true).repStart = Reg.of true ∧ StatusClass.mtDataAck ≠ .illegalStartStop ∧
    ∃ t y, exec (StatusClass.event .mtDataAck 0 0x28 0) (sys (sending .masterTransmitter 3 3 true)) = .next t ∧
      t.insts[0]? = some y :=
  ⟨by decide, by decide, _, _, rfl, rfl⟩

/-- For the statements on hardware operations: both states of the wait condition, a written and an unwritten register. -/
theorem witness_ControlOperationsComplete : (sys holding).insts[0]? = some holding ∧ holding.fault = none := by decide
theorem witness_ContinueSendsDataRegister :
    (sys holding).insts[0]? = some holding ∧ holding.fault = none ∧ holding.hw.data.written = true ∧
    (sys up).insts[0]? = some up ∧ up.fault = none ∧ up.hw.data.written = false := by decide
theorem witness_WriteDataNeedsWaitCondition :
    (sys holding).insts[0]? = some holding ∧ holding.fault = none ∧ holding.hw.pend = true ∧
    (sys up).insts[0]? = some up ∧ up.fault = none ∧ up.hw.pend = false := by decide
theorem witness_HardwareReadsReturn :
    (sys holding).insts[0]? = some holding ∧ holding.fault = none ∧ holding.hw.data.written = true ∧
    holding.hw.status.written = true ∧
    (sys up).insts[0]? = some up ∧ up.fault = none ∧ up.hw.data.written = false ∧ up.hw.status.written = false := by decide
theorem witness_SetDivisorAndEnableComplete :
    (sys Inst.powerOn).insts[0]? = some Inst.powerOn ∧ Inst.powerOn.fault = none := by decide

/-- A command with the Foreground free, an event while it is held, and a turn. -/
theorem witness_StepRunsDecodedInstruction :
    ((sys up).fg = .idle ∧ decode (sys up).params (.cmd 0x000001 []) = .ok (.isReady 0)) ∧
    ((waiting (receiving 0 2 false)).fg ≠ .idle ∧ Msg.isCmd (.evt 0 0x50 0x11) = false ∧
      decode (sys up).params (.evt 0 0x50 0x11) = .ok (.evtMrDataAck 0 0x50 0x11)) ∧
    ((waiting up).inbox = [.turn] ∧ Msg.isCmd .turn = false) :=
  ⟨⟨by decide, rfl⟩, ⟨by decide, by decide, rfl⟩, by decide, by decide⟩

/-- For the turn: a command of instance 0, and instance 1. -/
theorem witness_OtherInstancesUntouched :
    (∃ t, exec (.init 1) State.reset = .next t ∧ target (.init 1) ≠ some 0) ∧
    (inside holding fromLoad).fg.command = some (.transmit 0 false 1 [0xB0]) ∧
    target (.transmit 0 false 1 [0xB0]) ≠ some 1 := ⟨⟨_, rfl, by decide⟩, by decide, by decide⟩

/-- For the turn: a held READ, and a copy under way. -/
theorem witness_TransmitBufferFrame :
    target (.transmit 0 false 1 [0xA1]) = some 0 ∧ (sys up).insts[0]? = some up ∧
    (∃ t, exec (.transmit 0 false 1 [0xA1]) (sys up) = .next t) ∧
    (waiting up).insts[0]? = some up ∧ (waiting up).turn.insts ≠ [up] ∧
    (inside up [.copy 0 0xB0]).insts[0]? = some up ∧ (inside up [.copy 0 0xB0]).turn.insts ≠ [up] :=
  ⟨by decide, by decide, ⟨_, rfl⟩, by decide, by decide, by decide, by decide⟩

theorem witness_FaultedInstanceIsFrozen :
    (sys broken).insts[0]? = some broken ∧ broken.fault ≠ none ∧
    ∃ t, step { sys broken with inbox := [.cmd 0x000000 []] } = .next t := ⟨by decide, by decide, _, rfl⟩

theorem witness_TraceOnlyGrows :
    (sys up).insts[0]? = some up ∧ ∃ t, step { sys up with inbox := [.cmd 0x000102 [0xA0]] } = .next t :=
  ⟨by decide, _, rfl⟩

theorem witness_PowerOnMeetsInvariant : p1.wf = true ∧ p1.redispatch = false := by decide

/-- The invariant holds before INIT, in `Ready`, in flight, with a repeated START held, and faulted; and a step runs. -/
theorem witness_StepKeepsInvariant :
    (sys Inst.powerOn).Inv ∧ (sys up).Inv ∧ (sys (receiving 1 3 true)).Inv ∧ (sys holding).Inv ∧ (sys broken).Inv := by
  refine ⟨?_, ?_, ?_, ?_, ?_⟩ <;> exact ⟨by decide, by decide, by decide, by decide, by decide⟩
theorem witness_StepKeepsInvariant_step :
    ∃ t, step { sys (receiving 1 3 true) with inbox := [.evt 0 0x50 0x5A] } = .next t := ⟨_, rfl⟩

theorem witness_StepKeepsBuffersCanonical :
    (sys (receiving 1 3 true)).memoriesWf = true ∧
    ∃ t, step { sys (receiving 1 3 true) with inbox := [.evt 0 0x50 0x5A] } = .next t := ⟨by decide, _, rfl⟩

theorem witness_LastStatusHoldsOnlyItsValues :
    (∀ x ∈ (sys up).insts, x.lastStatus.written = true → (sys up).params.statusValue x.lastStatus.val = true) ∧
    ∃ t, step { sys up with inbox := [.cmd 0x000102 [0xA0]] } = .next t := ⟨by decide, _, rfl⟩

/-- A step that raises a fault the statement allows. -/
theorem witness_UnreachableFaultsAreNotRaised :
    (sys up).Inv ∧ (sys up).insts[0]? = some up ∧ up.fault = none ∧
    ∃ t y, step { sys up with inbox := [.cmd 0x000005 []] } = .next t ∧ t.insts[0]? = some y ∧
      y.fault = some (.unwrittenRead (.rxBuf 0)) := ⟨by decide, by decide, by decide, _, _, rfl, rfl, rfl⟩

theorem witness_RedispatchSetsModeOnly :
    ((sys holding).insts[0]? = some holding ∧ (sys holding).params.redispatch = false) ∧
    ((sysR holding).insts[0]? = some holding ∧ (sysR holding).params.wf = true ∧ (sysR holding).params.redispatch = true ∧
      holding.fault = none ∧ holding.hw.en = true ∧ holding.hw.ie = true ∧ holding.hw.pend = true ∧
      holding.hw.busy = false ∧ holding.hw.status.written = true ∧
      holding.hw.status.val &&& (sysR holding).params.statusMask = (sysR holding).params.codes.repStartSent) := by decide

/-- Held, and inside an acceptance. -/
theorem witness_HeldForegroundTakesNoCommand :
    ((waiting up).fg.isIdle = false ∧
      ∃ t, step { waiting up with inbox := [.cmd 0x000001 [], .evt 0 0x50 0x11] } = .next t) ∧
    ((inside raced fromLoad).fg.isIdle = false ∧
      ∃ t, step { inside raced fromLoad with inbox := [.cmd 0x000001 [], .turn] } = .next t) :=
  ⟨⟨by decide, _, rfl⟩, by decide, _, rfl⟩

theorem witness_ZeroByteReadFaults :
    (sys (receiving 0 0 false)).insts[0]? = some (receiving 0 0 false) ∧ (receiving 0 0 false).fault = none ∧
    (receiving 0 0 false).hw.en = true ∧ (receiving 0 0 false).hw.ie = true ∧ (receiving 0 0 false).hw.busy = true ∧
    (receiving 0 0 false).rxLen = Reg.of 0 ∧ (receiving 0 0 false).rxCur = Reg.of 0 := by decide

theorem witness_ZeroLengthTransmitFinishesAtOnce :
    (sys up).fg = .idle ∧ (sys up).insts[0]? = some up ∧ up.fault = none ∧ up.initd = true ∧ up.mode = Reg.of .ready ∧
    up.hw.en = true ∧ up.hw.ie = true ∧ (sys up).params.redispatch = false ∧
    (sysR up).fg = .idle ∧ (sysR up).insts[0]? = some up ∧ (sysR up).params.redispatch = true := by decide

end Sys2Proof.Tests
end

section
/-! PROOFS. What a step can do to the system, said once; from it the frame of R47, the trace of R41, the canonical buffers of
R42, and the invariant of R45 and R33. -/

namespace Sys2Proof.Machine

/-! ## What every operation keeps -/

/-- What no operation undoes: `y` comes from `x` with the trace only appended to (R41), and with the canonical form and the
capacities of the buffers kept (R42, R51). -/
structure Inst.Grows (p : Params) (x y : Inst) : Prop where
  trace : ∃ ops, y.hw.trace = x.hw.trace ++ ops
  txWf : Memory.wf x.txBuf = true → Memory.wf y.txBuf = true
  rxWf : Memory.wf x.rxBuf = true → Memory.wf y.rxBuf = true
  txBelow : Memory.below p.txCap x.txBuf = true → Memory.below p.txCap y.txBuf = true
  rxBelow : Memory.below p.rxCap x.rxBuf = true → Memory.below p.rxCap y.rxBuf = true

theorem Inst.Grows.refl (p : Params) (x : Inst) : x.Grows p x :=
  ⟨⟨[], (List.append_nil _).symm⟩, id, id, id, id⟩

theorem Inst.Grows.trans {p : Params} {x y z : Inst} (h : x.Grows p y) (h' : y.Grows p z) : x.Grows p z := by
  obtain ⟨ops, ho⟩ := h.trace
  obtain ⟨ops', ho'⟩ := h'.trace
  exact ⟨⟨ops ++ ops', by rw [ho', ho, List.append_assoc]⟩, h'.txWf ∘ h.txWf, h'.rxWf ∘ h.rxWf,
    h'.txBelow ∘ h.txBelow, h'.rxBelow ∘ h.rxBelow⟩

/-- Writes outside the buffers and the trace. -/
theorem Inst.Grows.of_same {p : Params} {x y : Inst} (ht : y.txBuf = x.txBuf) (hr : y.rxBuf = x.rxBuf)
    (hh : y.hw.trace = x.hw.trace) : x.Grows p y :=
  ⟨⟨[], by rw [hh, List.append_nil]⟩, fun h => ht ▸ h, fun h => hr ▸ h, fun h => ht ▸ h, fun h => hr ▸ h⟩

/-- Writes outside the buffers with one traced operation. -/
theorem Inst.Grows.of_traced {p : Params} {x y : Inst} (op : TraceOp) (ht : y.txBuf = x.txBuf) (hr : y.rxBuf = x.rxBuf)
    (hh : y.hw.trace = x.hw.trace ++ [op]) : x.Grows p y :=
  ⟨⟨[op], hh⟩, fun h => ht ▸ h, fun h => hr ▸ h, fun h => ht ▸ h, fun h => hr ▸ h⟩

theorem Inst.Grows.raise (p : Params) (x : Inst) (f : FaultCode) : x.Grows p (x.raise f) := .of_same rfl rfl rfl

theorem Inst.Grows.andThen {p : Params} {x y : Inst} {f : Inst → Inst} (h : x.Grows p y)
    (hf : ∀ z : Inst, z.Grows p (f z)) : x.Grows p (y.andThen f) := by
  unfold Inst.andThen
  split
  · exact h.trans (hf y)
  · exact h

theorem Inst.Grows.buffersOk {p : Params} {x y : Inst} (h : x.Grows p y) (hx : x.BuffersOk p) : y.BuffersOk p := by
  obtain ⟨htw, hrw, htb, hrb⟩ := hx
  exact ⟨h.txWf htw, h.rxWf hrw, h.txBelow htb, h.rxBelow hrb⟩

/-! ### Hardware operations -/

theorem continueTx_grows (p : Params) (x : Inst) : x.Grows p x.continueTx := by
  unfold Inst.continueTx Reg.read
  split
  · exact .of_traced (.cont x.hw.data.val) rfl rfl rfl
  · exact .of_same rfl rfl rfl

theorem writeData_grows (p : Params) (v : Byte) (x : Inst) : x.Grows p (x.writeData v) := by
  unfold Inst.writeData
  split <;> exact .of_same rfl rfl rfl

/-- A read of a register whose continuation writes nothing. -/
theorem read_grows (p : Params) {α : Type} (r : Reg α) (name : RegName) (x : Inst) :
    x.Grows p (r.read name x (fun _ => x)) := by
  unfold Reg.read
  split
  · exact .refl p x
  · exact .raise p x _

/-! ### The Dispatcher -/

theorem finish_grows (p : Params) (x : Inst) : x.Grows p (finish p x) := by
  rcases finish_cases p x with ⟨-, e⟩ | ⟨-, e⟩ | ⟨-, e⟩ <;> rw [e]
  · exact .of_same rfl rfl rfl
  · exact .of_traced .start rfl rfl rfl
  · exact .of_traced .stop rfl rfl rfl

theorem errorChain_grows (p : Params) (st : Byte) (x : Inst) : x.Grows p (errorChain st x) := by
  rcases errorChain_cases st x with ⟨-, e⟩ | ⟨-, e⟩ | ⟨-, e⟩ <;> rw [e]
  · exact .of_same rfl rfl rfl
  · exact .of_traced .start rfl rfl rfl
  · exact .of_traced .stop rfl rfl rfl

theorem ackDecision_grows (p : Params) (x : Inst) : x.Grows p (ackDecision p x) := by
  rcases ackDecision_cases p x with ⟨-, e⟩ | ⟨-, e⟩ | ⟨-, -, op, -, e⟩ <;> rw [e]
  · exact .of_same rfl rfl rfl
  · exact .of_same rfl rfl rfl
  · exact .of_traced op rfl rfl rfl

theorem loadOrFinish_grows (p : Params) {x : Inst} (hf : x.fault = none) : x.Grows p (loadOrFinish p x) := by
  rcases loadOrFinish_cases p hf with ⟨f, e, -⟩ | ⟨-, -, -, -, v, -, e⟩ | ⟨-, -, -, e⟩ <;> rw [e]
  · exact .raise p x f
  · exact .of_traced (.cont v) rfl rfl rfl
  · exact finish_grows p x

theorem store_grows (p : Params) (st : Byte) {x : Inst} (hf : x.fault = none) : x.Grows p (store p st x) := by
  rcases store_cases p st hf with ⟨f, e, -⟩ | ⟨-, -, -, hcap, e⟩ <;> rw [e]
  · exact .raise p x f
  · exact ⟨⟨[], (List.append_nil _).symm⟩, id, Memory.write_wf _ _, id, fun h => Memory.write_below _ h hcap⟩

theorem rowOf_grows (c : StatusClass) (p : Params) (st : Byte) {x : Inst} (hf : x.fault = none) :
    x.Grows p (rowOf c p st x) := by
  cases c with
  | startSent => exact loadOrFinish_grows p hf
  | repStartSent => exact .of_same rfl rfl rfl
  | mtSlawAck => exact .trans (y := x.setMode .masterTransmitter) (.of_same rfl rfl rfl) (loadOrFinish_grows p hf)
  | mtSlawNack => exact errorChain_grows p st x
  | mtDataAck => exact loadOrFinish_grows p hf
  | mtDataNack => exact errorChain_grows p st x
  | arbLost => exact errorChain_grows p st x
  | mrSlarAck => exact .trans (y := x.setMode .masterReceiver) (.of_same rfl rfl rfl) (ackDecision_grows p _)
  | mrSlarNack => exact errorChain_grows p st x
  | mrDataAck => exact (store_grows p st hf).andThen (ackDecision_grows p)
  | mrDataNack => exact (store_grows p st hf).andThen (finish_grows p)
  | illegalStartStop => exact .of_traced .stop rfl rfl rfl
  | noInfoClass => exact .refl p x
  | unhandled => exact .raise p x _

/-- A delivery with its row (R181). -/
theorem delivery_grows (c : StatusClass) (p : Params) (st raw : Byte) (d : Option Byte) {x : Inst} (hf : x.fault = none) :
    x.Grows p (rowOf c p st (x.enterHandler raw d)) :=
  .trans (y := x.enterHandler raw d) (.of_same rfl rfl rfl) (rowOf_grows c p st hf)

theorem dispatch_grows (p : Params) {x : Inst} (hf : x.fault = none) : x.Grows p (dispatch p x) := by
  unfold dispatch Inst.readStatus Reg.read
  split
  · exact rowOf_grows _ p _ hf
  · exact .raise p x _

/-! ### The acceptance -/

theorem apply_grows (p : Params) (a : AcceptStep) (x : Inst) : x.Grows p (a.apply p x) := by
  cases a with
  | copy i v =>
    simp only [AcceptStep.apply, Inst.storeTx]
    split
    · rename_i hi
      exact ⟨⟨[], (List.append_nil _).symm⟩, Memory.write_wf i v, id, fun h => Memory.write_below v h hi, id⟩
    · exact .raise p x _
  | notEmpty len =>
    simp only [AcceptStep.apply]
    split
    · exact .raise p x _
    · exact .refl p x
  | loadFirst =>
    simp only [AcceptStep.apply, Memory.load]
    split
    · split
      · exact writeData_grows p _ x
      · exact .raise p x _
    · exact .raise p x _
  | continueTx => exact continueTx_grows p x
  | issueStart => exact .of_traced .start rfl rfl rfl
  | rxStart count => exact .of_same rfl rfl rfl
  | wait => exact .refl p x
  | repStart rs => exact .of_same rfl rfl rfl
  | txStart len => exact .of_same rfl rfl rfl
  | path len => exact .refl p x
  | modeInitializing => exact .of_same rfl rfl rfl
  | firstSent => exact .of_same rfl rfl rfl

theorem initialise_grows (p : Params) (x : Inst) : x.Grows p (initialise p x) :=
  .trans (.of_traced (y := x.setDivisor p.clockDivisor) (.setDivisor p.clockDivisor) rfl rfl rfl)
    (.of_traced .enable rfl rfl rfl)

/-! ## What a command can do (R113) -/

/-- What a command that runs to its end makes of the bus `x` it addresses, with what its checks have found. -/
inductive Inst.RunsTo (p : Params) (x : Inst) : Inst → Prop
  | same : x.RunsTo p x
  | raise (f : FaultCode) : x.RunsTo p (x.raise f)
  | initialise (h : x.initd = true → x.mode.val = .ready ∧ x.hw.busy = false ∧ x.hw.pend = false) :
      x.RunsTo p (initialise p x)
  | transmit (rs : Bool) (len : Byte) (data : List Byte) (hi : x.initd = true) (hr : x.ready = true)
      (hd : data.length = len.toNat) (hl : len.toNat ≤ p.txCap) : x.RunsTo p (acceptTransmit p rs len data x)
  | read (rs : Bool) (addr count : Byte) (hi : x.initd = true) (hr : x.ready = true) (hl : count.toNat < p.rxCap) :
      x.RunsTo p (acceptRead p rs addr count x)

/-- What `State.heldOk` asks of the bus that a held command addresses. -/
def HoldOk (p : Params) (x : Inst) : Instr → Prop
  | .transmit _ _ len data => x.fault ≠ none ∨ (x.initd = true ∧ data.length = len.toNat ∧ len.toNat ≤ p.txCap)
  | .read _ _ _ count => x.fault ≠ none ∨ (x.initd = true ∧ count.toNat < p.rxCap)
  | _ => True

/-- Everything a command can do: it is refused, it waits or stands at a faulted bus, it enters the acceptance step by step, or
it runs to its end (R74, R101, R112, R113, R195). -/
inductive CommandNext (i : Instr) (s : State) : State → Prop
  | refused (why : RefuseReason) : CommandNext i s (s.refuse why)
  | held {k : Nat} {x : Inst} (hk : target i = some k) (hx : s.insts[k]? = some x) (h : HoldOk s.params x i) :
      CommandNext i s (s.hold i)
  | accepting (todo : List AcceptStep) (h : s.params.redispatch = true) :
      CommandNext i s { s with fg := .accepting i todo, reply := .noReply }
  | completes {k : Nat} {x y : Inst} (r : Reply) (hk : target i = some k) (hx : s.insts[k]? = some x)
      (hf : x.fault = none) (h : x.RunsTo s.params y) : CommandNext i s (s.complete i k y r)

theorem holdOk_of_fault {p : Params} {x : Inst} (i : Instr) (h : x.fault ≠ none) : HoldOk p x i := by
  unfold HoldOk
  split
  · exact .inl h
  · exact .inl h
  · trivial

/-- The frame of a command, where its own effect is one that a command can have. -/
theorem commandNext_of_command {i : Instr} {k : Nat} {refusal : Inst → Option RefuseReason} {body : Inst → State}
    {s t : State} (hk : target i = some k) (h : command i k refusal body s = .next t)
    (hb : ∀ x, s.insts[k]? = some x → refusal x = none → x.fault = none → CommandNext i s (body x)) :
    CommandNext i s t := by
  obtain ⟨-, ⟨-, rfl⟩ | ⟨x, hx, ⟨why, -, rfl⟩ | ⟨-, hf, rfl⟩ | ⟨hr, hf, rfl⟩⟩⟩ := command_next h
  · exact .refused _
  · exact .refused why
  · exact .held hk hx (holdOk_of_fault i hf)
  · exact hb x hx hr hf

/-- An acceptance entered past the wait, as one step or as the steps that remain (R112). -/
theorem commandNext_accept {s : State} {i : Instr} {k : Nat} {x y : Inst} (f : ApiFn) (todo : List AcceptStep)
    (hk : target i = some k) (hx : s.insts[k]? = some x) (hf : x.fault = none) (h : x.RunsTo s.params y) :
    CommandNext i s (s.accept i k f todo y) := by
  unfold State.accept
  split
  · rename_i hr
    exact .accepting todo hr
  · exact .completes _ hk hx hf h

theorem runsTo_read (p : Params) {α : Type} (r : Reg α) (name : RegName) (x : Inst) :
    x.RunsTo p (r.read name x (fun _ => x)) := by
  unfold Reg.read
  split
  · exact .same
  · exact .raise _

theorem runsTo_initInst (p : Params) (x : Inst) : x.RunsTo p (initInst p x) := by
  unfold initInst Reg.read
  split
  · split
    · dsimp only
      split
      · exact .raise _
      · rename_i hn
        exact .initialise fun _ => by simpa using hn
    · exact .raise _
  · rename_i hi
    exact .initialise fun h => absurd h hi

theorem execInit_next {k : InstField} {s t : State} (h : execInit k s = .next t) : CommandNext (.init k) s t :=
  commandNext_of_command rfl h fun x hx _ hf => .completes _ rfl hx hf (runsTo_initInst _ x)

theorem execIsReady_next {k : InstField} {s t : State} (h : execIsReady k s = .next t) : CommandNext (.isReady k) s t := by
  refine commandNext_of_command rfl h fun x hx _ hf => .completes _ rfl hx hf ?_
  split
  · exact runsTo_read _ _ _ x
  · exact .raise _

theorem execGetStatus_next {k : InstField} {s t : State} (h : execGetStatus k s = .next t) :
    CommandNext (.getStatus k) s t := by
  refine commandNext_of_command rfl h fun x hx _ hf => .completes _ rfl hx hf ?_
  split
  · exact runsTo_read _ _ _ x
  · exact .raise _

theorem execGetRxByte_next {k : InstField} {index : Byte} {s t : State} (h : execGetRxByte k index s = .next t) :
    CommandNext (.getRxByte k index) s t := by
  refine commandNext_of_command rfl h fun x hx _ hf => .completes _ rfl hx hf ?_
  split
  · unfold Memory.load
    split
    · split
      · exact .same
      · exact .raise _
    · exact .raise _
  · exact .raise _

theorem execTransmit_next {k : InstField} {rs : Bool} {len : Byte} {data : List Byte} {s t : State}
    (h : execTransmit k rs len data s = .next t) : CommandNext (.transmit k rs len data) s t := by
  refine commandNext_of_command rfl h fun x hx hr hf => ?_
  have hd : data.length = len.toNat := by
    by_contra hd
    simp [hd] at hr
  split
  · rename_i hi
    split
    · exact .completes _ rfl hx hf .same
    · rename_i hl
      have hl : len.toNat ≤ s.params.txCap := by omega
      split
      · split
        · rename_i hr
          exact commandNext_accept _ _ rfl hx hf (.transmit rs len data hi hr hd hl)
        · exact .held rfl hx (.inr ⟨hi, hd, hl⟩)
      · exact .completes _ rfl hx hf (.raise _)
  · exact .completes _ rfl hx hf (.raise _)

theorem execRead_next {k : InstField} {rs : Bool} {addr count : Byte} {s t : State}
    (h : execRead k rs addr count s = .next t) : CommandNext (.read k rs addr count) s t := by
  refine commandNext_of_command rfl h fun x hx _ hf => ?_
  split
  · rename_i hi
    split
    · exact .completes _ rfl hx hf .same
    · rename_i hl
      have hl : count.toNat < s.params.rxCap := by omega
      split
      · split
        · rename_i hr
          exact commandNext_accept _ _ rfl hx hf (.read rs addr count hi hr hl)
        · exact .held rfl hx (.inr ⟨hi, hl⟩)
      · exact .completes _ rfl hx hf (.raise _)
  · exact .completes _ rfl hx hf (.raise _)

theorem execReservedOp6_next {rest : BitVec 21} {s t : State} (h : execReservedOp6 rest s = .next t) :
    CommandNext (.reservedOp6 rest) s t := by
  unfold execReservedOp6 at h
  split at h
  · exact nomatch h
  · exact nomatch h
  · injection h with h
    exact h ▸ .refused _

theorem execReservedOp7_next {rest : BitVec 21} {s t : State} (h : execReservedOp7 rest s = .next t) :
    CommandNext (.reservedOp7 rest) s t := by
  unfold execReservedOp7 at h
  split at h
  · exact nomatch h
  · exact nomatch h
  · injection h with h
    exact h ▸ .refused _

/-- Whatever a word spells is a command, and does what a command can do. -/
theorem exec_command_next {w : CmdWord} {payload : List Byte} {s t : State} (h : exec (w.command payload) s = .next t) :
    CommandNext (w.command payload) s t := by
  generalize hi : w.command payload = i at h ⊢
  unfold CmdWord.command at hi
  (repeat' split at hi) <;> subst hi
  · exact execInit_next h
  · exact execIsReady_next h
  · exact execTransmit_next h
  · exact execRead_next h
  · exact execGetStatus_next h
  · exact execGetRxByte_next h
  · exact execReservedOp6_next h
  · exact execReservedOp7_next h

theorem Inst.RunsTo.grows {p : Params} {x y : Inst} (h : x.RunsTo p y) : x.Grows p y := by
  have ha : ∀ (a : AcceptStep) (z : Inst), x.Grows p z → x.Grows p (a.apply p z) :=
    fun a z hz => hz.trans (apply_grows p a z)
  cases h with
  | same => exact .refl p x
  | raise f => exact .raise p x f
  | initialise h => exact initialise_grows p x
  | transmit rs len data hi hr hd hl => exact acceptTransmit_keeps (P := x.Grows p) ha (.refl p x)
  | read rs addr count hi hr hl => exact acceptRead_keeps (P := x.Grows p) ha (.refl p x)

/-! ## The frame of a step (R47) -/

/-- What an operation may do to the buses `l`: nothing, or it changes one, at an index that `K` admits, which has not faulted. -/
inductive OneChange (K : Nat → Prop) (p : Params) (l : List Inst) : List Inst → Prop
  | none : OneChange K p l l
  | one {k : Nat} {x y : Inst} (hk : K k) (hx : l[k]? = some x) (hf : x.fault = none) (hg : x.Grows p y) :
      OneChange K p l (l.set k y)

theorem OneChange.length_eq {K : Nat → Prop} {p : Params} {l l' : List Inst} (h : OneChange K p l l') :
    l'.length = l.length := by
  cases h with
  | none => rfl
  | one => exact List.length_set

theorem OneChange.getElem?_other {K : Nat → Prop} {p : Params} {l l' : List Inst} {j : Nat} (h : OneChange K p l l')
    (hj : ¬ K j) : l'[j]? = l[j]? := by
  cases h with
  | none => rfl
  | one hk hx hf hg => 
    refine List.getElem?_set_ne ?_
    rintro rfl
    exact hj hk

theorem OneChange.mono {K K' : Nat → Prop} {p : Params} {l l' : List Inst} (h : OneChange K p l l')
    (hK : ∀ k, K k → K' k) : OneChange K' p l l' := by
  cases h with
  | none => exact .none
  | one hk hx hf hg => exact .one (hK _ hk) hx hf hg

/-- Each bus afterwards has grown from the one at its index before. -/
theorem OneChange.getElem?_grows {K : Nat → Prop} {p : Params} {l l' : List Inst} {j : Nat} {x : Inst}
    (h : OneChange K p l l') (hj : l[j]? = some x) : ∃ y, l'[j]? = some y ∧ x.Grows p y := by
  cases h with
  | none => exact ⟨x, hj, .refl p x⟩
  | @one k x' y hk hx hf hg =>
    obtain ⟨hlt, -⟩ := List.getElem?_eq_some_iff.mp hj
    by_cases he : k = j
    · subst he
      cases hx.symm.trans hj
      exact ⟨y, List.getElem?_set_self hlt, hg⟩
    · exact ⟨x, by rw [List.getElem?_set_ne he, hj], .refl p x⟩

theorem OneChange.mem_grows {K : Nat → Prop} {p : Params} {l l' : List Inst} {y : Inst} (h : OneChange K p l l')
    (hy : y ∈ l') : ∃ x ∈ l, x.Grows p y := by
  cases h with
  | none => exact ⟨y, hy, .refl p y⟩
  | @one k x z hk hx hf hg =>
    rcases List.mem_or_eq_of_mem_set hy with hy | rfl
    · exact ⟨y, hy, .refl p y⟩
    · exact ⟨x, List.mem_of_getElem? hx, hg⟩

/-- The frame of an operation of the system: the parameters and what waits at the ports stay, and at most one bus changes. -/
structure Frame (K : Nat → Prop) (s t : State) : Prop where
  params : t.params = s.params
  inbox : t.inbox = s.inbox
  insts : OneChange K s.params s.insts t.insts

theorem CommandNext.frame {i : Instr} {s t : State} (h : CommandNext i s t) : Frame (target i = some ·) s t := by
  cases h with
  | refused why => exact ⟨rfl, rfl, .none⟩
  | held hk hx h => exact ⟨rfl, rfl, .none⟩
  | accepting todo h => exact ⟨rfl, rfl, .none⟩
  | completes r hk hx hf h => exact ⟨rfl, rfl, .one hk hx hf h.grows⟩

theorem Inst.fault_of_deliveryEnabled {x : Inst} (h : x.deliveryEnabled = true) : x.fault = none := by
  simp only [Inst.deliveryEnabled, Bool.and_eq_true, Option.isNone_iff_eq_none] at h
  obtain ⟨⟨⟨hf, -⟩, -⟩, -⟩ := h
  exact hf

theorem Inst.fault_of_redispatchEnabled {p : Params} {x : Inst} (h : x.redispatchEnabled p = true) : x.fault = none := by
  simp only [Inst.redispatchEnabled, Bool.and_eq_true, Option.isNone_iff_eq_none] at h
  obtain ⟨⟨⟨⟨⟨-, hf⟩, -⟩, -⟩, -⟩, -⟩ := h
  exact hf

theorem exec_event_frame {c : StatusClass} {k : Nat} {raw d : Byte} {s t : State}
    (h : exec (c.event k raw d) s = .next t) : Frame (k = ·) s t := by
  obtain ⟨x, hx, ⟨r, rfl⟩ | ⟨-, he, rfl⟩⟩ := exec_event_cases h
  · exact ⟨rfl, rfl, .none⟩
  · have hf := Inst.fault_of_deliveryEnabled he
    exact ⟨rfl, rfl, .one rfl hx hf (delivery_grows c _ _ raw _ hf)⟩

theorem hwop_frame {k : Nat} {f : Inst → Inst} {answer : Inst → HwReply} {s t : State} (h : hwop k f answer s = .next t)
    (hg : ∀ x : Inst, x.Grows s.params (f x)) : Frame (k = ·) s t := by
  obtain ⟨x, hx, hf, rfl⟩ := hwop_next h
  exact ⟨rfl, rfl, .one rfl hx hf (hg x)⟩

/-- The frame of every instruction: a command, an event or a hardware operation. -/
theorem exec_frame {i : Instr} {s t : State} (h : exec i s = .next t) : Frame (target i = some ·) s t := by
  have single : ∀ {k : Nat}, target i = some k → Frame (k = ·) s t → Frame (target i = some ·) s t :=
    fun hk hF => ⟨hF.params, hF.inbox, hF.insts.mono fun _ e => e ▸ hk⟩
  cases i with
  | init k => exact (execInit_next h).frame
  | isReady k => exact (execIsReady_next h).frame
  | transmit k rs len data => exact (execTransmit_next h).frame
  | read k rs addr count => exact (execRead_next h).frame
  | getStatus k => exact (execGetStatus_next h).frame
  | getRxByte k index => exact (execGetRxByte_next h).frame
  | reservedOp6 rest => exact (execReservedOp6_next h).frame
  | reservedOp7 rest => exact (execReservedOp7_next h).frame
  | evtIllegalStartStop k raw => exact single rfl (exec_event_frame (c := .illegalStartStop) (d := 0) h)
  | evtStartSent k raw => exact single rfl (exec_event_frame (c := .startSent) (d := 0) h)
  | evtRepStartSent k raw => exact single rfl (exec_event_frame (c := .repStartSent) (d := 0) h)
  | evtMtSlawAck k raw => exact single rfl (exec_event_frame (c := .mtSlawAck) (d := 0) h)
  | evtMtSlawNack k raw => exact single rfl (exec_event_frame (c := .mtSlawNack) (d := 0) h)
  | evtMtDataAck k raw => exact single rfl (exec_event_frame (c := .mtDataAck) (d := 0) h)
  | evtMtDataNack k raw => exact single rfl (exec_event_frame (c := .mtDataNack) (d := 0) h)
  | evtArbLost k raw => exact single rfl (exec_event_frame (c := .arbLost) (d := 0) h)
  | evtMrSlarAck k raw => exact single rfl (exec_event_frame (c := .mrSlarAck) (d := 0) h)
  | evtMrSlarNack k raw => exact single rfl (exec_event_frame (c := .mrSlarNack) (d := 0) h)
  | evtMrDataAck k raw d => exact single rfl (exec_event_frame (c := .mrDataAck) h)
  | evtMrDataNack k raw d => exact single rfl (exec_event_frame (c := .mrDataNack) h)
  | evtNoInfoClass k raw => exact single rfl (exec_event_frame (c := .noInfoClass) (d := 0) h)
  | evtUnhandled k raw => exact single rfl (exec_event_frame (c := .unhandled) (d := 0) h)
  | issueStart k => exact single rfl (hwop_frame h fun x => .of_traced .start rfl rfl rfl)
  | issueStop k => exact single rfl (hwop_frame h fun x => .of_traced .stop rfl rfl rfl)
  | continueTx k => exact single rfl (hwop_frame h (continueTx_grows _))
  | ackNext k => exact single rfl (hwop_frame h fun x => .of_traced .ackNext rfl rfl rfl)
  | nackNext k => exact single rfl (hwop_frame h fun x => .of_traced .nackNext rfl rfl rfl)
  | writeData k v => exact single rfl (hwop_frame h (writeData_grows _ v))
  | readData k =>
    simp only [exec, execReadData] at h
    exact single rfl (hwop_frame h fun x => read_grows _ x.hw.data .hwData x)
  | readStatus k =>
    simp only [exec, execReadStatus] at h
    exact single rfl (hwop_frame h fun x => read_grows _ x.hw.status .hwStatus x)
  | setDivisor k v => exact single rfl (hwop_frame h fun x => .of_traced (.setDivisor v) rfl rfl rfl)
  | enable k => exact single rfl (hwop_frame h fun x => .of_traced .enable rfl rfl rfl)

theorem target_of_callOf {i : Instr} {k : Nat} {f : ApiFn} (h : callOf i = some (k, f)) : target i = some k := by
  unfold callOf at h
  split at h
  · cases h; rfl
  · cases h; rfl
  · exact nomatch h

/-- The frame of a turn: only the bus that the Foreground's command addresses can change. -/
theorem turn_oneBus (s : State) : Frame (fun k => ∃ i, s.fg.command = some i ∧ target i = some k) s s.turn := by
  obtain ⟨hp, -, -, hb, -, h⟩ := turn_frame s
  refine ⟨hp, hb, ?_⟩
  rcases h with h | ⟨i, k, f, x, y, hi, hc, hx, hf, h, hP⟩ <;> rw [h]
  · exact .none
  · have hg : x.Grows s.params y := hP (x.Grows s.params) (fun a z hz => hz.trans (apply_grows _ a z)) (.refl _ x)
    exact .one ⟨i, hi, target_of_callOf hc⟩ hx hf hg

theorem redispatch_frame (s : State) (k : Nat) : Frame (k = ·) s (s.redispatch k) := by
  unfold State.redispatch
  split
  · exact ⟨rfl, rfl, .none⟩
  · rename_i x hx
    split
    · rename_i he
      have hf := Inst.fault_of_redispatchEnabled he
      exact ⟨rfl, rfl, .one rfl hx hf (dispatch_grows _ hf)⟩
    · exact ⟨rfl, rfl, .none⟩

theorem Frame.weaken {K : Nat → Prop} {s t : State} (h : Frame K s t) : Frame (fun _ => True) s t :=
  ⟨h.params, h.inbox, h.insts.mono fun _ _ => trivial⟩

/-- The frame of every message. -/
theorem runMsg_frame {m : Msg} {s t : State} (h : runMsg m s = .next t) : Frame (fun _ => True) s t := by
  cases m with
  | cmd w payload =>
    simp only [runMsg] at h
    split at h
    · injection h with h
      exact h ▸ ⟨rfl, rfl, .none⟩
    · exact (exec_frame h).weaken
  | evt k raw d =>
    rcases runMsg_evt k raw d s with ⟨why, h'⟩ | h' <;> rw [h'] at h
    · injection h with h
      exact h ▸ ⟨rfl, rfl, .none⟩
    · exact (exec_frame h).weaken
  | redispatch k =>
    simp only [runMsg] at h
    injection h with h
    exact h ▸ (redispatch_frame s k).weaken
  | turn =>
    simp only [runMsg] at h
    injection h with h
    exact h ▸ (turn_oneBus s).weaken

/-- Everything a step can do to the parameters and the buses. -/
theorem step_frame {s t : State} (h : step s = .next t) :
    t.params = s.params ∧ OneChange (fun _ => True) s.params s.insts t.insts := by
  rcases step_cases s with ⟨m, rest, -, h'⟩ | ⟨-, h'⟩ <;> rw [h'] at h
  · have hF := runMsg_frame h
    exact ⟨hF.params, hF.insts⟩
  · injection h with h
    exact h ▸ ⟨rfl, .none⟩

/-! ## R47, R41, R42 -/

/-- Settles O48: the frames of every instruction and of a turn. -/
theorem otherInstancesUntouched : Obligations.OtherInstancesUntouched := by
  unfold Obligations.OtherInstancesUntouched
  constructor
  · intro s t i h
    have hF := exec_frame h
    exact ⟨hF.params, hF.inbox, hF.insts.length_eq, fun j hj => hF.insts.getElem?_other hj⟩
  · intro s
    have hF := turn_oneBus s
    exact ⟨hF.params, hF.inbox, hF.insts.length_eq,
      fun j hj => hF.insts.getElem?_other fun ⟨i, hi, hk⟩ => hj i hi hk⟩

/-- Settles O51: at most one bus changes, and it grows. -/
theorem traceOnlyGrows : Obligations.TraceOnlyGrows := by
  unfold Obligations.TraceOnlyGrows
  intro s t k x hx h
  obtain ⟨-, hO⟩ := step_frame h
  obtain ⟨y, hy, hg⟩ := hO.getElem?_grows hx
  obtain ⟨ops, ho⟩ := hg.trace
  exact ⟨y, ops, hy, ho⟩

theorem State.memoriesWf_iff {s : State} :
    s.memoriesWf = true ↔ ∀ x ∈ s.insts, Memory.wf x.txBuf = true ∧ Memory.wf x.rxBuf = true := by
  simp [State.memoriesWf]

/-- Settles O54: every bus after a step has grown from one before. -/
theorem stepKeepsBuffersCanonical : Obligations.StepKeepsBuffersCanonical := by
  unfold Obligations.StepKeepsBuffersCanonical
  intro s t hs h
  obtain ⟨-, hO⟩ := step_frame h
  rw [State.memoriesWf_iff] at hs ⊢
  intro y hy
  obtain ⟨x, hx, hg⟩ := hO.mem_grows hy
  obtain ⟨htx, hrx⟩ := hs x hx
  exact ⟨hg.txWf htx, hg.rxWf hrx⟩

/-! ## Power-on (R46, R220) -/

/-- Settles O5: every bus is `Inst.powerOn`, whose registers are unmarked and whose buffers list no element. -/
theorem powerOnState : Obligations.PowerOnState := by
  unfold Obligations.PowerOnState
  intro p k hk
  refine ⟨Inst.powerOn, List.getElem?_replicate_of_lt hk, ?_⟩
  exact ⟨rfl, rfl, rfl, rfl, rfl, rfl, rfl, fun _ => ⟨rfl, rfl⟩, rfl, rfl, rfl, rfl, rfl, rfl, rfl, rfl, rfl, rfl⟩

theorem powerOn_asleep : Inst.powerOn.Asleep := ⟨rfl, rfl, rfl, rfl, rfl, rfl, rfl, rfl⟩

/-- Settles O52: every bus is asleep with empty buffers, and the Foreground is free. -/
theorem powerOnMeetsInvariant : Obligations.PowerOnMeetsInvariant := by
  unfold Obligations.PowerOnMeetsInvariant
  intro p hp hr
  refine ⟨hp, hr, List.length_replicate, fun x hx => ?_, rfl⟩
  obtain ⟨-, rfl⟩ := List.mem_replicate.mp hx
  exact ⟨⟨rfl, rfl, rfl, rfl⟩, .inr (.inr ⟨rfl, powerOn_asleep⟩)⟩

/-! ## The invariant of one bus through the Dispatcher (R45, R33) -/

/-- What holds between a delivery and the end of its row, where R45's invariants 1 to 3 are suspended: `pend` is on and `busy`
off in a mode of a transfer (R181). -/
structure Inst.Handling (p : Params) (x : Inst) : Prop where
  noFault : x.fault = none
  initd : x.initd = true
  mode : x.mode.written = true
  lastStatus : x.lastStatus.written = true
  repStart : x.repStart.written = true
  en : x.hw.en = true
  ie : x.hw.ie = true
  busy : x.hw.busy = false
  pend : x.hw.pend = true
  transfer : x.mode.val = .initializing ∨ x.mode.val = .masterTransmitter ∨ x.mode.val = .masterReceiver
  txLen : x.txLen.written = true
  tx : x.TxOk p
  rx : x.RxOk p

/-- What holds after a row: a fault, or R45 again. -/
abbrev Inst.Settled (p : Params) (x : Inst) : Prop := x.fault.isSome = true ∨ (x.initd = true ∧ x.Live p)

theorem Inst.Settled.inv {p : Params} {x : Inst} (hb : x.BuffersOk p) (h : x.Settled p) : x.Inv p :=
  ⟨hb, h.imp id .inl⟩

/-- A bus that meets the invariant and has not faulted is live or asleep. -/
theorem Inst.Inv.live_or_asleep {p : Params} {x : Inst} (h : x.Inv p) (hf : x.fault = none) :
    (x.initd = true ∧ x.Live p) ∨ (x.initd = false ∧ x.Asleep) :=
  h.2.resolve_left (by simp [hf])

theorem Inst.Inv.live {p : Params} {x : Inst} (h : x.Inv p) (hf : x.fault = none) (hi : x.initd = true) : x.Live p := by
  rcases h.live_or_asleep hf with ⟨-, h⟩ | ⟨h, -⟩
  · exact h
  · rw [hi] at h; exact nomatch h

/-- A delivery is enabled only in a transfer, and starts its handling. -/
theorem enterHandler_handling {p : Params} {x : Inst} (h : x.Inv p) (he : x.deliveryEnabled = true) (raw : Byte)
    (d : Option Byte) : (x.enterHandler raw d).Handling p := by
  have hf := Inst.fault_of_deliveryEnabled he
  have hbusy : x.hw.busy = true := by
    simp only [Inst.deliveryEnabled, Bool.and_eq_true] at he
    exact he.2
  rcases h.live_or_asleep hf with ⟨hi, hm, hls, hrs, hen, hie, hmode, htx, hrx⟩ | ⟨-, -, -, hb, -⟩
  · rcases hmode with ⟨-, hb, -⟩ | ⟨-, hb, -⟩ | ⟨htr, -, -, htl⟩
    · rw [hbusy] at hb; exact nomatch hb
    · rw [hbusy] at hb; exact nomatch hb
    · exact ⟨hf, hi, hm, hls, hrs, hen, hie, rfl, rfl, htr, htl, htx, hrx⟩
  · rw [hbusy] at hb; exact nomatch hb

theorem Inst.Handling.setMode {p : Params} {x : Inst} (h : x.Handling p) {m : Mode}
    (hm : m = .initializing ∨ m = .masterTransmitter ∨ m = .masterReceiver) : (x.setMode m).Handling p :=
  { h with mode := rfl, transfer := hm }

/-- A row that issues an operation with a completion keeps the mode of the transfer, `busy` on. -/
theorem Inst.Handling.launch {p : Params} {x : Inst} (h : x.Handling p) (st : Byte) (op : TraceOp) :
    Inst.Settled p { x with lastStatus := Reg.of st, hw := x.hw.launch op } :=
  .inr ⟨h.initd, h.mode, rfl, h.repStart, h.en, h.ie, .inr (.inr ⟨h.transfer, rfl, rfl, h.txLen⟩), h.tx, h.rx⟩

/-- A row that issues STOP leaves `Ready`, `busy` and `pend` off. -/
theorem Inst.Handling.halt {p : Params} {x : Inst} (h : x.Handling p) (st : Byte) :
    Inst.Settled p { x with mode := Reg.of .ready, lastStatus := Reg.of st, hw := x.hw.halt } :=
  .inr ⟨h.initd, rfl, rfl, h.repStart, h.en, h.ie, .inl ⟨rfl, rfl, rfl⟩, h.tx, h.rx⟩

theorem finish_settled {p : Params} {x : Inst} (h : x.Handling p) : (finish p x).Settled p := by
  rcases finish_cases p x with ⟨-, e⟩ | ⟨-, e⟩ | ⟨-, e⟩ <;> rw [e]
  · exact .inl rfl
  · exact h.launch _ _
  · exact h.halt _

theorem errorChain_settled {p : Params} {x : Inst} (st : Byte) (h : x.Handling p) : (errorChain st x).Settled p := by
  rcases errorChain_cases st x with ⟨-, e⟩ | ⟨-, e⟩ | ⟨-, e⟩ <;> rw [e]
  · exact .inl rfl
  · exact h.launch _ _
  · exact h.halt _

theorem ackDecision_settled {p : Params} {x : Inst} (h : x.Handling p) : (ackDecision p x).Settled p := by
  rcases ackDecision_cases p x with ⟨-, e⟩ | ⟨-, e⟩ | ⟨-, -, op, -, e⟩ <;> rw [e]
  · exact .inl rfl
  · exact .inl rfl
  · exact h.launch _ op

theorem loadOrFinish_settled {p : Params} {x : Inst} (h : x.Handling p) : (loadOrFinish p x).Settled p := by
  rcases loadOrFinish_cases p h.noFault with ⟨f, e, -⟩ | ⟨-, hl, hlt, -, v, -, e⟩ | ⟨-, -, -, e⟩ <;> rw [e]
  · exact .inl rfl
  · obtain ⟨-, hcap, hread⟩ := h.tx.2 hl
    have hcur : (x.txCur.val + 1).toNat ≤ x.txLen.val.toNat := by rw [toNat_succ hlt]; omega
    have htx : Inst.TxOk p { x with txCur := Reg.of (x.txCur.val + 1) } := ⟨hl, fun _ => ⟨hcur, hcap, hread⟩⟩
    exact .inr ⟨h.initd, h.mode, rfl, h.repStart, h.en, h.ie, .inr (.inr ⟨h.transfer, rfl, rfl, h.txLen⟩), htx, h.rx⟩
  · exact finish_settled h

/-- A store faults, or the bytes below the new cursor are written and the handling goes on. -/
theorem store_handling {p : Params} {x : Inst} (st : Byte) (h : x.Handling p) :
    (∃ f, (store p st x).fault = some f) ∨ (store p st x).Handling p := by
  rcases store_cases p st h.noFault with ⟨f, e, -⟩ | ⟨-, hl, hlt, -, e⟩ <;> rw [e]
  · exact .inl ⟨f, rfl⟩
  · obtain ⟨-, hcap, hread⟩ := h.rx.2 hl
    have hcur : (x.rxCur.val + 1).toNat = x.rxCur.val.toNat + 1 := toNat_succ hlt
    refine .inr { h with rx := ⟨hl, fun _ => ⟨by simp only [Reg.of_val]; omega, hcap, fun i hi => ?_⟩⟩ }
    simp only [Reg.of_val, hcur] at hi
    by_cases he : i = x.rxCur.val.toNat
    · rw [he, Memory.read_write_same]; rfl
    · rw [Memory.read_write_other _ _ he]; exact hread i (by omega)

theorem store_andThen_settled {p : Params} {x : Inst} {f : Inst → Inst} (st : Byte) (h : x.Handling p)
    (hf : ∀ y : Inst, y.Handling p → (f y).Settled p) : ((store p st x).andThen f).Settled p := by
  rcases store_handling st h with ⟨c, hc⟩ | hy
  · rw [Inst.andThen_of_fault hc]; exact .inl (by simp [hc])
  · rw [Inst.andThen_of_no_fault hy.noFault]; exact hf _ hy

/-- Every row of a class that can be delivered ends the handling. -/
theorem rowOf_settled {c : StatusClass} (hc : c ≠ .noInfoClass) {p : Params} (st : Byte) {x : Inst} (h : x.Handling p) :
    (rowOf c p st x).Settled p := by
  cases c with
  | startSent => exact loadOrFinish_settled h
  | repStartSent =>
    exact .inr ⟨h.initd, rfl, h.lastStatus, h.repStart, h.en, h.ie, .inr (.inl ⟨rfl, h.busy, h.pend, h.txLen⟩), h.tx, h.rx⟩
  | mtSlawAck => exact loadOrFinish_settled (h.setMode (.inr (.inl rfl)))
  | mtSlawNack => exact errorChain_settled st h
  | mtDataAck => exact loadOrFinish_settled h
  | mtDataNack => exact errorChain_settled st h
  | arbLost => exact errorChain_settled st h
  | mrSlarAck => exact ackDecision_settled (h.setMode (.inr (.inr rfl)))
  | mrSlarNack => exact errorChain_settled st h
  | mrDataAck => exact store_andThen_settled st h fun _ hy => ackDecision_settled hy
  | mrDataNack => exact store_andThen_settled st h fun _ hy => finish_settled hy
  | illegalStartStop => exact h.halt st
  | noInfoClass => exact absurd rfl hc
  | unhandled => exact .inl rfl

/-- A delivery with its row, of a class that can be delivered, keeps the invariant. -/
theorem delivery_inv {c : StatusClass} (hc : c ≠ .noInfoClass) {p : Params} (st : Byte) {x : Inst} (h : x.Inv p)
    (he : x.deliveryEnabled = true) (raw : Byte) (d : Option Byte) : (rowOf c p st (x.enterHandler raw d)).Inv p := by
  obtain ⟨hb, -⟩ := id h
  exact Inst.Settled.inv ((delivery_grows c p st raw d (Inst.fault_of_deliveryEnabled he)).buffersOk hb)
    (rowOf_settled hc st (enterHandler_handling h he raw d))

theorem delivery_rowKeeps (c : StatusClass) (p : Params) (st raw : Byte) (d : Option Byte) {x : Inst} (hf : x.fault = none) :
    RowKeeps p x (rowOf c p st (x.enterHandler raw d)) :=
  RowKeeps.trans ⟨rfl, rfl, id⟩ (rowOf_rowKeeps c p st (x := x.enterHandler raw d) hf)

/-! ## The invariant of one bus through a command -/

/-- INIT sets up a bus that has never been, or is in `Ready` with nothing outstanding (R100). -/
theorem initialise_live {p : Params} {x : Inst} (h : x.Inv p) (hf : x.fault = none)
    (hq : x.initd = true → x.mode.val = .ready ∧ x.hw.busy = false ∧ x.hw.pend = false) : (initialise p x).Live p := by
  rcases h.live_or_asleep hf with ⟨hi, -, -, -, -, -, -, htx, hrx⟩ | ⟨-, -, -, hb, hp, htl, htc, hrl, hrc⟩
  · obtain ⟨-, hb, hp⟩ := hq hi
    exact ⟨rfl, rfl, rfl, rfl, rfl, .inl ⟨rfl, hb, hp⟩, htx, hrx⟩
  · exact ⟨rfl, rfl, rfl, rfl, rfl, .inl ⟨rfl, hb, hp⟩, ⟨htl.trans htc.symm, fun h => absurd h (by simp [initialise, htl])⟩,
      ⟨hrl.trans hrc.symm, fun h => absurd h (by simp [initialise, hrl])⟩⟩

/-- A live bus for which READY holds is in `Ready`, or in `RepeatedStartSent` with the event held (R43, R45). -/
theorem Inst.Live.ready_cases {p : Params} {x : Inst} (h : x.Live p) (hr : x.ready = true) :
    x.mode.val = .ready ∨ (x.mode.val = .repeatedStartSent ∧ x.hw.pend = true) := by
  obtain ⟨-, -, -, -, -, ⟨hm, -⟩ | ⟨hm, -, hp, -⟩ | ⟨hm, -⟩, -, -⟩ := h
  · exact .inl hm
  · exact .inr ⟨hm, hp⟩
  · rcases hm with hm | hm | hm <;> simp [Inst.ready, hm, Mode.gated] at hr

/-- The elements that T4 has copied are written (R53). -/
theorem read_writeFrom_isSome (m : Memory) {data : List Byte} {i : Nat} (h : i < data.length) :
    (Memory.read (Memory.writeFrom m 0 data) i).isSome = true := by
  rw [Memory.read_writeFrom, if_pos (by omega)]
  simpa using h

/-- The acceptance of a TRANSMIT that has passed its checks faults, or starts a transfer (R103). -/
theorem acceptTransmit_settled {p : Params} {rs : Bool} {len : Byte} {data : List Byte} {x : Inst} (hi : x.initd = true)
    (hf : x.fault = none) (h : x.Live p) (hr : x.ready = true) (hd : data.length = len.toNat) (hl : len.toNat ≤ p.txCap) :
    (acceptTransmit p rs len data x).Settled p := by
  have hmode := h.ready_cases hr
  obtain ⟨-, hls, -, hen, hie, -, -, hrx⟩ := h
  have hcap : data.length ≤ p.txCap := by omega
  have hread : ∀ i < len.toNat, (Memory.read (Memory.writeFrom x.txBuf 0 data) i).isSome = true :=
    fun i hlt => read_writeFrom_isSome _ (by omega)
  rcases hmode with hm | ⟨hm, hp⟩
  · rw [acceptTransmit_ready hf hcap hm]
    exact .inr ⟨hi, rfl, hls, rfl, hen, hie, .inr (.inr ⟨.inl rfl, rfl, rfl, rfl⟩),
      ⟨rfl, fun _ => ⟨Nat.zero_le _, hl, hread⟩⟩, hrx⟩
  · cases data with
    | nil =>
      have hlen : len = 0#8 := BitVec.eq_of_toNat_eq (by simpa using hd.symm)
      rw [hlen, acceptTransmit_empty hf hm]
      exact .inl rfl
    | cons v vs =>
      simp only [List.length_cons] at hd
      have hlen : len ≠ 0#8 := by rintro rfl; simp at hd
      rw [acceptTransmit_repeatedStart hf hcap hlen hm hp]
      have hone : (1 : Byte).toNat ≤ len.toNat := by simp; omega
      exact .inr ⟨hi, rfl, hls, rfl, hen, hie, .inr (.inr ⟨.inl rfl, rfl, rfl, rfl⟩),
        ⟨rfl, fun _ => ⟨hone, hl, hread⟩⟩, hrx⟩

/-- READ's own writes keep the receive side of R33, and its frame is one byte of TX_BUF (R106). -/
theorem acceptRead_settled {p : Params} {rs : Bool} {addr count : Byte} {x : Inst} (hi : x.initd = true)
    (hf : x.fault = none) (h : x.Live p) (hr : x.ready = true) (hl : count.toNat < p.rxCap) (hc : 1 ≤ p.txCap) :
    (acceptRead p rs addr count x).Settled p := by
  obtain ⟨hm, hls, hrs, hen, hie, hmode, htx, -⟩ := h
  have hrx : Inst.RxOk p { x with rxCur := Reg.of 0, rxLen := Reg.of count } :=
    ⟨rfl, fun _ => ⟨Nat.zero_le _, hl, fun i hlt => absurd hlt (Nat.not_lt_zero i)⟩⟩
  rw [acceptRead_eq hf]
  exact acceptTransmit_settled hi hf ⟨hm, hls, hrs, hen, hie, hmode, htx, hrx⟩ hr rfl hc

/-- Whatever a command that runs makes of a bus meets the invariant. -/
theorem Inst.RunsTo.inv {p : Params} {x y : Inst} (h : x.RunsTo p y) (hp : p.wf = true) (hx : x.Inv p)
    (hf : x.fault = none) : y.Inv p := by
  obtain ⟨hbx, -⟩ := id hx
  have hb := h.grows.buffersOk hbx
  cases h with
  | same => exact hx
  | raise f => exact Inst.Settled.inv hb (.inl rfl)
  | initialise hq => exact Inst.Settled.inv hb (.inr ⟨rfl, initialise_live hx hf hq⟩)
  | transmit rs len data hi hr hd hl => exact Inst.Settled.inv hb (acceptTransmit_settled hi hf (hx.live hf hi) hr hd hl)
  | read rs addr count hi hr hl =>
    have hc : 1 ≤ p.txCap := by
      simp only [Params.wf, Bool.and_eq_true, decide_eq_true_eq] at hp
      omega
    exact Inst.Settled.inv hb (acceptRead_settled hi hf (hx.live hf hi) hr hl hc)

/-! ## The invariant of the system -/

/-- What the invariant asks of a held command, of the bus it addresses. -/
theorem heldOk_held_iff {s : State} {i : Instr} (h : s.fg = .held i) :
    s.heldOk = true ↔ ∀ k, target i = some k → ∀ x, s.insts[k]? = some x → HoldOk s.params x i := by
  unfold State.heldOk
  rw [h]
  cases i with
  | transmit k rs len data =>
    cases hx : s.insts[k.toNat]? <;> simp [HoldOk, target, hx, Option.isSome_iff_ne_none, and_assoc]
  | read k rs addr count =>
    cases hx : s.insts[k.toNat]? <;> simp [HoldOk, target, hx, Option.isSome_iff_ne_none]
  | _ => simp [HoldOk]

/-- The invariant looks at the parameters, the buses and the Foreground's place only. -/
theorem Inv.congr {s t : State} (h : s.Inv) (hp : t.params = s.params) (hi : t.insts = s.insts) (hfg : t.fg = s.fg) :
    t.Inv := by
  obtain ⟨p, is, f, r, e, w, b, d⟩ := s
  obtain ⟨p', is', f', r', e', w', b', d'⟩ := t
  cases hp
  cases hi
  cases hfg
  exact h

/-- The invariant after one bus has changed, where a held command still stands as it should. -/
theorem Inv.set {s t : State} {k : Nat} {y : Inst} (hs : s.Inv) (hp : t.params = s.params)
    (hi : t.insts = s.insts.set k y) (hy : y.Inv s.params) (hok : t.heldOk = true) : t.Inv := by
  obtain ⟨hwf, hr, hlen, hinst, -⟩ := hs
  refine ⟨hp ▸ hwf, hp ▸ hr, by rw [hi, hp, List.length_set, hlen], fun z hz => ?_, hok⟩
  rw [hi] at hz
  rw [hp]
  rcases List.mem_or_eq_of_mem_set hz with hz | rfl
  · exact hinst z hz
  · exact hy

theorem Inv.get {s : State} {k : Nat} {x : Inst} (hs : s.Inv) (hx : s.insts[k]? = some x) : x.Inv s.params := by
  obtain ⟨-, -, -, hinst, -⟩ := hs
  exact hinst x (List.mem_of_getElem? hx)

/-- A command that has run to its end: the Foreground is free, or stands at the bus that has just faulted. -/
theorem Inv.complete {s : State} {i : Instr} {k : Nat} {x y : Inst} {r : Reply} (hs : s.Inv) (hk : target i = some k)
    (hx : s.insts[k]? = some x) (hf : x.fault = none) (h : x.RunsTo s.params y) : (s.complete i k y r).Inv := by
  obtain ⟨hwf, -⟩ := id hs
  refine Inv.set hs rfl rfl (h.inv hwf (Inv.get hs hx) hf) ?_
  cases hfy : y.fault with
  | none => rw [State.complete_of_no_fault _ _ _ _ _ hfy]; rfl
  | some c =>
    rw [State.complete_of_fault _ _ _ _ _ c hfy, heldOk_held_iff rfl]
    intro k' hk' z hz
    obtain ⟨hlt, -⟩ := List.getElem?_eq_some_iff.mp hx
    cases hk.symm.trans hk'
    cases (List.getElem?_set_self hlt).symm.trans hz
    exact holdOk_of_fault i (by simp [hfy])

/-- A command keeps the invariant. -/
theorem CommandNext.inv {i : Instr} {s t : State} (h : CommandNext i s t) (hs : s.Inv) : t.Inv := by
  cases h with
  | refused why => exact Inv.congr hs rfl rfl rfl
  | held hk hx h =>
    obtain ⟨hwf, hr, hlen, hinst, -⟩ := hs
    refine ⟨hwf, hr, hlen, hinst, (heldOk_held_iff rfl).mpr fun k' hk' z hz => ?_⟩
    cases hk.symm.trans hk'
    cases hx.symm.trans hz
    exact h
  | accepting todo h =>
    obtain ⟨-, hr, -⟩ := hs
    rw [hr] at h
    exact nomatch h
  | completes r hk hx hf h => exact Inv.complete hs hk hx hf h

/-- A turn of the Foreground, all of an acceptance with `REDISPATCH = false` (R112), keeps the invariant. -/
theorem Inv.turn {s : State} (hs : s.Inv) : s.turn.Inv := by
  obtain ⟨-, hr, -, -, hok⟩ := id hs
  rcases turn_cases s with h | ⟨i, k, f, x, hi, hc, hx, hf, hw, h⟩ <;> rw [h]
  · exact hs
  · unfold State.advance
    split
    · exact hs
    · rename_i j hfg
      rw [hfg] at hi hw
      cases hi
      have hready : x.ready = true := hw rfl
      have hold := (heldOk_held_iff hfg).mp hok k (target_of_callOf hc) x hx
      unfold State.resume
      split
      · cases hc
        obtain ⟨hinit, hd, hl⟩ := hold.resolve_left (fun h => h hf)
        exact (commandNext_accept _ _ rfl hx hf (.transmit _ _ _ hinit hready hd hl)).inv hs
      · cases hc
        obtain ⟨hinit, hl⟩ := hold.resolve_left (fun h => h hf)
        exact (commandNext_accept _ _ rfl hx hf (.read _ _ _ hinit hready hl)).inv hs
      · exact hs
    all_goals
      rename_i hfg
      simp [State.heldOk, hfg, hr] at hok

/-- An event keeps the invariant. -/
theorem exec_event_inv {c : StatusClass} {k : Nat} {raw d : Byte} {s t : State} (hs : s.Inv)
    (h : exec (c.event k raw d) s = .next t) : t.Inv := by
  obtain ⟨x, hx, ⟨r, rfl⟩ | ⟨hc, he, rfl⟩⟩ := exec_event_cases h
  · exact Inv.congr hs rfl rfl rfl
  · have hf := Inst.fault_of_deliveryEnabled he
    obtain ⟨-, -, -, -, hok⟩ := id hs
    exact Inv.set hs rfl rfl (delivery_inv hc _ (Inv.get hs hx) he raw _)
      (heldOk_set hx hf (delivery_rowKeeps c _ _ raw _ hf) hok)

/-- Without REDISPATCH the event port refuses every redispatch (R182). -/
theorem redispatch_refused {s : State} (h : s.params.redispatch = false) (k : Nat) :
    ∃ why, s.redispatch k = s.answerEvt (.refused why) := by
  unfold State.redispatch
  split
  · exact ⟨_, rfl⟩
  · exact ⟨.notEnabled, by simp [Inst.redispatchEnabled, h]⟩

/-- What a command word spells, whatever its checks are. -/
theorem decodeCmd_ok {p : Params} {w : CmdWord} {payload : List Byte} {i : Instr} (h : decodeCmd p w payload = .ok i) :
    i = w.command payload := by
  unfold decodeCmd at h
  split at h
  · injection h with h
    exact h.symm
  · exact (firstRefusal_ok.mp h).2.symm

/-- Every message keeps the invariant. -/
theorem runMsg_inv {m : Msg} {s t : State} (hs : s.Inv) (h : runMsg m s = .next t) : t.Inv := by
  cases m with
  | cmd w payload =>
    simp only [runMsg] at h
    split at h
    · injection h with h
      exact h ▸ Inv.congr hs rfl rfl rfl
    · rename_i i hi
      rw [decodeCmd_ok hi] at h
      exact (exec_command_next h).inv hs
  | evt k raw d =>
    rcases runMsg_evt k raw d s with ⟨why, h'⟩ | h' <;> rw [h'] at h
    · injection h with h
      exact h ▸ Inv.congr hs rfl rfl rfl
    · exact exec_event_inv hs h
  | redispatch k =>
    obtain ⟨-, hr, -⟩ := id hs
    obtain ⟨why, he⟩ := redispatch_refused hr k
    simp only [runMsg, he] at h
    injection h with h
    exact h ▸ Inv.congr hs rfl rfl rfl
  | turn =>
    simp only [runMsg] at h
    injection h with h
    exact h ▸ Inv.turn hs

/-- Settles O53: the message that a step takes keeps the invariant, and so does the environment's draw. -/
theorem stepKeepsInvariant : Obligations.StepKeepsInvariant := by
  unfold Obligations.StepKeepsInvariant
  intro s t hs h
  rcases step_cases s with ⟨m, rest, -, h'⟩ | ⟨-, h'⟩ <;> rw [h'] at h
  · exact runMsg_inv (s := { s with inbox := rest }) (Inv.congr hs rfl rfl rfl) h
  · injection h with h
    exact h ▸ Inv.congr hs rfl rfl rfl

end Sys2Proof.Machine
end

section
/-! PROOFS. The step and the message it takes (R63, R115, R198); what the Dispatcher's rows leave of the transmit side, and that
a chained transaction issues no STOP (R67, R153); the frame of TX_BUF (R53). -/

namespace Sys2Proof.Machine

/-! ## The step (R63, R115, R198) -/

/-- The message that a free Foreground takes, or an event, a redispatch or a turn, is run. -/
theorem step_takes_first {s : State} {m : Msg} {rest : List Msg} (hb : s.inbox = m :: rest)
    (h : s.fg = .idle ∨ m.isCmd = false) : step s = runMsg m { s with inbox := rest } := by
  have ht : takeMsg s.fg.isIdle (m :: rest) = some (m, rest) := by
    rcases h with h | h
    · rw [h]; exact takeMsg_idle m rest
    · exact takeMsg_not_cmd _ rest h
  rw [step, hb, ht]

/-- A message that spells an instruction is that instruction. -/
theorem runMsg_of_decode {s : State} {m : Msg} {i : Instr} (h : decode s.params m = .ok i) : runMsg m s = exec i s := by
  cases m with
  | cmd w payload =>
    simp only [decode] at h
    simp only [runMsg, h]
  | evt k raw d =>
    simp only [decode] at h
    simp only [runMsg, h]
  | redispatch k => exact nomatch h
  | turn => exact nomatch h

/-- Settles O47: the first message is taken away, and what it spells is executed. -/
theorem stepRunsDecodedInstruction : Obligations.StepRunsDecodedInstruction := by
  unfold Obligations.StepRunsDecodedInstruction
  intro s m rest hb hm
  refine ⟨fun i hi => ?_, ?_⟩
  · rw [step_takes_first hb hm]
    exact runMsg_of_decode hi
  · rintro rfl
    exact step_turn hb

/-! ## The rows and the transmit side (R131-R149) -/

/-- What a row other than ILLEGAL_START_STOP's makes of a bus `x`: TX_BUF and REP_START stay, and while REP_START is set no STOP
is traced (R67, R153). -/
structure Inst.Chains (x y : Inst) : Prop where
  txBuf : y.txBuf = x.txBuf
  repStart : y.repStart = x.repStart
  noStop : x.repStart = Reg.of true → ∃ ops, y.hw.trace = x.hw.trace ++ ops ∧ TraceOp.stop ∉ ops

/-- Writes outside the transmit side with nothing traced. -/
theorem Inst.Chains.of_same {x y : Inst} (ht : y.txBuf = x.txBuf) (hr : y.repStart = x.repStart)
    (hh : y.hw.trace = x.hw.trace) : x.Chains y :=
  ⟨ht, hr, fun _ => ⟨[], by rw [hh, List.append_nil], List.not_mem_nil⟩⟩

/-- One traced operation that is no STOP. -/
theorem Inst.Chains.of_traced {x y : Inst} {op : TraceOp} (hop : op ≠ .stop) (ht : y.txBuf = x.txBuf)
    (hr : y.repStart = x.repStart) (hh : y.hw.trace = x.hw.trace ++ [op]) : x.Chains y :=
  ⟨ht, hr, fun _ => ⟨[op], hh, fun hm => hop (List.mem_singleton.mp hm).symm⟩⟩

/-- Where REP_START is off, whatever is traced. -/
theorem Inst.Chains.of_off {x y : Inst} (hoff : x.repStart = Reg.of false) (ht : y.txBuf = x.txBuf)
    (hr : y.repStart = x.repStart) : x.Chains y :=
  ⟨ht, hr, fun hon => absurd (congrArg Reg.val (hoff.symm.trans hon)) Bool.false_ne_true⟩

theorem Inst.Chains.trans {x y z : Inst} (h : x.Chains y) (h' : y.Chains z) : x.Chains z := by
  refine ⟨h'.txBuf.trans h.txBuf, h'.repStart.trans h.repStart, fun hon => ?_⟩
  obtain ⟨ops, ho, hs⟩ := h.noStop hon
  obtain ⟨ops', ho', hs'⟩ := h'.noStop (h.repStart.trans hon)
  exact ⟨ops ++ ops', by rw [ho', ho, List.append_assoc], fun hm => (List.mem_append.mp hm).elim hs hs'⟩

theorem Inst.Chains.andThen {x y : Inst} {f : Inst → Inst} (h : x.Chains y) (hf : ∀ z : Inst, z.Chains (f z)) :
    x.Chains (y.andThen f) := by
  unfold Inst.andThen
  split
  · exact h.trans (hf y)
  · exact h

theorem finish_chains (p : Params) (x : Inst) : x.Chains (finish p x) := by
  rcases finish_cases p x with ⟨-, e⟩ | ⟨-, e⟩ | ⟨hoff, e⟩ <;> rw [e]
  · exact .of_same rfl rfl rfl
  · exact .of_traced (op := .start) (by decide) rfl rfl rfl
  · exact .of_off hoff rfl rfl

theorem errorChain_chains (st : Byte) (x : Inst) : x.Chains (errorChain st x) := by
  rcases errorChain_cases st x with ⟨-, e⟩ | ⟨-, e⟩ | ⟨hoff, e⟩ <;> rw [e]
  · exact .of_same rfl rfl rfl
  · exact .of_traced (op := .start) (by decide) rfl rfl rfl
  · exact .of_off hoff rfl rfl

theorem ackDecision_chains (p : Params) (x : Inst) : x.Chains (ackDecision p x) := by
  rcases ackDecision_cases p x with ⟨-, e⟩ | ⟨-, e⟩ | ⟨-, -, op, hop, e⟩ <;> rw [e]
  · exact .of_same rfl rfl rfl
  · exact .of_same rfl rfl rfl
  · refine .of_traced (op := op) ?_ rfl rfl rfl
    rcases hop with rfl | rfl <;> decide

theorem loadOrFinish_chains (p : Params) {x : Inst} (hf : x.fault = none) : x.Chains (loadOrFinish p x) := by
  rcases loadOrFinish_cases p hf with ⟨f, e, -⟩ | ⟨-, -, -, -, v, -, e⟩ | ⟨-, -, -, e⟩ <;> rw [e]
  · exact .of_same rfl rfl rfl
  · exact .of_traced (op := .cont v) nofun rfl rfl rfl
  · exact finish_chains p x

theorem store_chains (p : Params) (st : Byte) {x : Inst} (hf : x.fault = none) : x.Chains (store p st x) := by
  rcases store_cases p st hf with ⟨f, e, -⟩ | ⟨-, -, -, -, e⟩ <;> rw [e] <;> exact .of_same rfl rfl rfl

theorem rowOf_chains {c : StatusClass} (hc : c ≠ .illegalStartStop) (p : Params) (st : Byte) {x : Inst}
    (hf : x.fault = none) : x.Chains (rowOf c p st x) := by
  cases c with
  | startSent => exact loadOrFinish_chains p hf
  | repStartSent => exact .of_same rfl rfl rfl
  | mtSlawAck => exact .trans (y := x.setMode .masterTransmitter) (.of_same rfl rfl rfl) (loadOrFinish_chains p hf)
  | mtSlawNack => exact errorChain_chains st x
  | mtDataAck => exact loadOrFinish_chains p hf
  | mtDataNack => exact errorChain_chains st x
  | arbLost => exact errorChain_chains st x
  | mrSlarAck => exact .trans (y := x.setMode .masterReceiver) (.of_same rfl rfl rfl) (ackDecision_chains p _)
  | mrSlarNack => exact errorChain_chains st x
  | mrDataAck => exact (store_chains p st hf).andThen (ackDecision_chains p)
  | mrDataNack => exact (store_chains p st hf).andThen (finish_chains p)
  | illegalStartStop => exact absurd rfl hc
  | noInfoClass => exact .of_same rfl rfl rfl
  | unhandled => exact .of_same rfl rfl rfl

/-- A delivery with its row (R181). -/
theorem delivery_chains {c : StatusClass} (hc : c ≠ .illegalStartStop) (p : Params) (st raw : Byte) (d : Option Byte)
    {x : Inst} (hf : x.fault = none) : x.Chains (rowOf c p st (x.enterHandler raw d)) :=
  .trans (y := x.enterHandler raw d) (.of_same rfl rfl rfl) (rowOf_chains hc p st hf)

/-- No row writes TX_BUF. -/
theorem delivery_txBuf (c : StatusClass) (p : Params) (st raw : Byte) (d : Option Byte) {x : Inst} (hf : x.fault = none) :
    (rowOf c p st (x.enterHandler raw d)).txBuf = x.txBuf := by
  by_cases hc : c = .illegalStartStop
  · subst hc
    rfl
  · exact (delivery_chains hc p st raw d hf).txBuf

/-- Settles O41: a refused event traces nothing, and a delivered one runs a row that does not stop. -/
theorem chainIssuesNoStop : Obligations.ChainIssuesNoStop := by
  unfold Obligations.ChainIssuesNoStop
  intro s t k raw d x y c hx hon hc h hy
  obtain ⟨x', hx', h⟩ := exec_event_cases h
  cases hx.symm.trans hx'
  have hy' : x.Chains y := by
    rcases h with ⟨r, rfl⟩ | ⟨-, he, rfl⟩
    · cases hx.symm.trans hy
      exact .of_same rfl rfl rfl
    · obtain ⟨hlt, -⟩ := List.getElem?_eq_some_iff.mp hx
      cases (List.getElem?_set_self hlt).symm.trans hy
      exact delivery_chains hc _ _ _ _ (Inst.fault_of_deliveryEnabled he)
  exact hy'.noStop hon

/-! ## The frame of TX_BUF (R53) -/

/-- The elements of TX_BUF that an instruction may not change (R53, R103, R106). -/
def LeavesTx : Instr → Nat → Prop
  | .transmit _ _ _ data, j => data.length ≤ j
  | .read _ _ _ _, j => 1 ≤ j
  | _, _ => True

theorem leavesTx_of {i : Instr} {j : Nat} (ht : ∀ k rs len data, i = .transmit k rs len data → data.length ≤ j)
    (hr : ∀ k rs addr count, i = .read k rs addr count → 1 ≤ j) : LeavesTx i j := by
  unfold LeavesTx
  split
  · exact ht _ _ _ _ rfl
  · exact hr _ _ _ _ rfl
  · trivial

/-- The elements of TX_BUF that the Foreground's next step may not change: its held command's, or all but the one whose copy is
next (R112). -/
def Foreground.LeavesTx : Foreground → Nat → Prop
  | .held i, j => Machine.LeavesTx i j
  | .accepting _ (.copy n _ :: _), j => j ≠ n
  | _, _ => True

/-- Every bus keeps the elements of TX_BUF at the indices `J`. -/
def TxKept (J : Nat → Prop) (s t : State) : Prop :=
  ∀ (k : Nat) (x : Inst), s.insts[k]? = some x →
    ∃ y, t.insts[k]? = some y ∧ ∀ j, J j → Memory.read y.txBuf j = Memory.read x.txBuf j

theorem TxKept.of_insts {J : Nat → Prop} {s t : State} (h : t.insts = s.insts) : TxKept J s t :=
  fun _ x hx => ⟨x, h ▸ hx, fun _ _ => rfl⟩

theorem TxKept.of_set {J : Nat → Prop} {s t : State} {k : Nat} {x y : Inst} (hx : s.insts[k]? = some x)
    (ht : t.insts = s.insts.set k y) (h : ∀ j, J j → Memory.read y.txBuf j = Memory.read x.txBuf j) : TxKept J s t := by
  intro k' x' hx'
  rw [ht]
  by_cases hk : k = k'
  · subst hk
    cases hx.symm.trans hx'
    obtain ⟨hlt, -⟩ := List.getElem?_eq_some_iff.mp hx
    exact ⟨y, List.getElem?_set_self hlt, h⟩
  · exact ⟨x', by rw [List.getElem?_set_ne hk, hx'], fun _ _ => rfl⟩

/-- A bus changed outside TX_BUF. -/
theorem TxKept.of_txBuf {J : Nat → Prop} {s t : State} {k : Nat} {x y : Inst} (hx : s.insts[k]? = some x)
    (ht : t.insts = s.insts.set k y) (h : y.txBuf = x.txBuf) : TxKept J s t :=
  .of_set hx ht fun _ _ => by rw [h]

/-! ### What does not write TX_BUF -/

theorem read_txBuf {α : Type} (r : Reg α) (name : RegName) (x : Inst) : (r.read name x (fun _ => x)).txBuf = x.txBuf := by
  unfold Reg.read
  split <;> rfl

theorem continueTx_txBuf (x : Inst) : x.continueTx.txBuf = x.txBuf := by
  unfold Inst.continueTx Reg.read
  split <;> rfl

theorem writeData_txBuf (v : Byte) (x : Inst) : (x.writeData v).txBuf = x.txBuf := by
  unfold Inst.writeData
  split <;> rfl

theorem load_txBuf {m : Memory} {cap i : Nat} {name : RegName} {x : Inst} {f : Byte → Inst}
    (h : ∀ v, (f v).txBuf = x.txBuf) : (Memory.load m cap i name x f).txBuf = x.txBuf := by
  unfold Memory.load
  split
  · split
    · exact h _
    · rfl
  · rfl

theorem initInst_txBuf (p : Params) (x : Inst) : (initInst p x).txBuf = x.txBuf := by
  unfold initInst Reg.read
  split
  · split
    · dsimp only
      split <;> rfl
    · rfl
  · rfl

/-! ### The acceptance -/

/-- A step of an acceptance writes TX_BUF in a copy only, at its own index (R53, R103). -/
theorem apply_read_txBuf {p : Params} {a : AcceptStep} {j : Nat} (h : ∀ v, a ≠ .copy j v) (x : Inst) :
    Memory.read (a.apply p x).txBuf j = Memory.read x.txBuf j := by
  cases a with
  | copy n v =>
    have hn : j ≠ n := by rintro rfl; exact h v rfl
    simp only [AcceptStep.apply, Inst.storeTx]
    split
    · exact Memory.read_write_other _ v hn
    · rfl
  | notEmpty len =>
    simp only [AcceptStep.apply]
    split <;> rfl
  | loadFirst => rw [AcceptStep.apply, load_txBuf fun v => writeData_txBuf v x]
  | continueTx => rw [AcceptStep.apply, continueTx_txBuf]
  | rxStart count => rfl
  | wait => rfl
  | repStart rs => rfl
  | txStart len => rfl
  | path len => rfl
  | modeInitializing => rfl
  | firstSent => rfl
  | issueStart => rfl

theorem accept_txKept {J : Nat → Prop} {s : State} {i : Instr} {k : Nat} {x y : Inst} (f : ApiFn) (todo : List AcceptStep)
    (hx : s.insts[k]? = some x) (h : ∀ j, J j → Memory.read y.txBuf j = Memory.read x.txBuf j) :
    TxKept J s (s.accept i k f todo y) := by
  unfold State.accept
  split
  · exact .of_insts rfl
  · exact .of_set hx rfl h

theorem acceptTransmit_txKept {s : State} {k : InstField} {x : Inst} (rs : Bool) (len : Byte) (data : List Byte)
    (hx : s.insts[k.toNat]? = some x) :
    TxKept (LeavesTx (.transmit k rs len data)) s (s.acceptTransmit k rs len data x) :=
  accept_txKept _ _ hx fun _ hj => acceptTransmit_read_txBuf hj

/-- READ's acceptance copies its one address byte (R106). -/
theorem acceptRead_txKept {s : State} {k : InstField} {x : Inst} (rs : Bool) (addr count : Byte)
    (hx : s.insts[k.toNat]? = some x) (hf : x.fault = none) :
    TxKept (LeavesTx (.read k rs addr count)) s (s.acceptRead k rs addr count x) := by
  refine accept_txKept _ _ hx fun j hj => ?_
  rw [acceptRead_eq hf]
  exact acceptTransmit_read_txBuf hj

/-! ### The commands -/

theorem command_txKept {J : Nat → Prop} {i : Instr} {k : Nat} {refusal : Inst → Option RefuseReason} {body : Inst → State}
    {s t : State} (h : command i k refusal body s = .next t)
    (hb : ∀ x, s.insts[k]? = some x → x.fault = none → TxKept J s (body x)) : TxKept J s t := by
  obtain ⟨-, ⟨-, rfl⟩ | ⟨x, hx, ⟨why, -, rfl⟩ | ⟨-, -, rfl⟩ | ⟨-, hf, rfl⟩⟩⟩ := command_next h
  · exact .of_insts rfl
  · exact .of_insts rfl
  · exact .of_insts rfl
  · exact hb x hx hf

/-- A command that runs to its end with TX_BUF left alone. -/
theorem complete_txKept {J : Nat → Prop} {s : State} {i : Instr} {k : Nat} {x y : Inst} (r : Reply)
    (hx : s.insts[k]? = some x) (h : y.txBuf = x.txBuf) : TxKept J s (s.complete i k y r) :=
  .of_txBuf hx rfl h

theorem execInit_txKept {J : Nat → Prop} {k : InstField} {s t : State} (h : execInit k s = .next t) : TxKept J s t :=
  command_txKept h fun x hx _ => complete_txKept _ hx (initInst_txBuf _ x)

theorem execIsReady_txKept {J : Nat → Prop} {k : InstField} {s t : State} (h : execIsReady k s = .next t) :
    TxKept J s t := by
  refine command_txKept h fun x hx _ => complete_txKept _ hx ?_
  split
  · exact read_txBuf _ _ x
  · rfl

theorem execGetStatus_txKept {J : Nat → Prop} {k : InstField} {s t : State} (h : execGetStatus k s = .next t) :
    TxKept J s t := by
  refine command_txKept h fun x hx _ => complete_txKept _ hx ?_
  split
  · exact read_txBuf _ _ x
  · rfl

theorem execGetRxByte_txKept {J : Nat → Prop} {k : InstField} {index : Byte} {s t : State}
    (h : execGetRxByte k index s = .next t) : TxKept J s t := by
  refine command_txKept h fun x hx _ => complete_txKept _ hx ?_
  split
  · exact load_txBuf fun _ => rfl
  · rfl

theorem execTransmit_txKept {k : InstField} {rs : Bool} {len : Byte} {data : List Byte} {s t : State}
    (h : execTransmit k rs len data s = .next t) : TxKept (LeavesTx (.transmit k rs len data)) s t := by
  refine command_txKept h fun x hx _ => ?_
  split
  · split
    · exact complete_txKept _ hx rfl
    · split
      · split
        · exact acceptTransmit_txKept rs len data hx
        · exact .of_insts rfl
      · exact complete_txKept _ hx rfl
  · exact complete_txKept _ hx rfl

theorem execRead_txKept {k : InstField} {rs : Bool} {addr count : Byte} {s t : State}
    (h : execRead k rs addr count s = .next t) : TxKept (LeavesTx (.read k rs addr count)) s t := by
  refine command_txKept h fun x hx hf => ?_
  split
  · split
    · exact complete_txKept _ hx rfl
    · split
      · split
        · exact acceptRead_txKept rs addr count hx hf
        · exact .of_insts rfl
      · exact complete_txKept _ hx rfl
  · exact complete_txKept _ hx rfl

/-! ### Every instruction and every turn -/

theorem exec_event_txKept {J : Nat → Prop} {c : StatusClass} {k : Nat} {raw d : Byte} {s t : State}
    (h : exec (c.event k raw d) s = .next t) : TxKept J s t := by
  obtain ⟨x, hx, ⟨r, rfl⟩ | ⟨-, he, rfl⟩⟩ := exec_event_cases h
  · exact .of_insts rfl
  · exact .of_txBuf hx rfl (delivery_txBuf c _ _ raw _ (Inst.fault_of_deliveryEnabled he))

theorem hwop_txKept {J : Nat → Prop} {k : Nat} {f : Inst → Inst} {answer : Inst → HwReply} {s t : State}
    (h : hwop k f answer s = .next t) (hf : ∀ x : Inst, (f x).txBuf = x.txBuf) : TxKept J s t := by
  obtain ⟨x, hx, -, rfl⟩ := hwop_next h
  exact .of_txBuf hx rfl (hf x)

/-- A command that addresses no bus changes none. -/
theorem CommandNext.insts_of_no_target {i : Instr} {s t : State} (h : CommandNext i s t) (hi : target i = none) :
    t.insts = s.insts := by
  cases h with
  | refused why => rfl
  | held hk hx h => rfl
  | accepting todo h => rfl
  | completes r hk hx hf h => exact nomatch hi.symm.trans hk

theorem exec_txKept {i : Instr} {s t : State} (h : exec i s = .next t) : TxKept (LeavesTx i) s t := by
  cases i with
  | init k => exact execInit_txKept h
  | isReady k => exact execIsReady_txKept h
  | transmit k rs len data => exact execTransmit_txKept h
  | read k rs addr count => exact execRead_txKept h
  | getStatus k => exact execGetStatus_txKept h
  | getRxByte k index => exact execGetRxByte_txKept h
  | reservedOp6 rest => exact .of_insts ((execReservedOp6_next (rest := rest) h).insts_of_no_target rfl)
  | reservedOp7 rest => exact .of_insts ((execReservedOp7_next (rest := rest) h).insts_of_no_target rfl)
  | evtIllegalStartStop k raw => exact exec_event_txKept (c := .illegalStartStop) (d := 0) h
  | evtStartSent k raw => exact exec_event_txKept (c := .startSent) (d := 0) h
  | evtRepStartSent k raw => exact exec_event_txKept (c := .repStartSent) (d := 0) h
  | evtMtSlawAck k raw => exact exec_event_txKept (c := .mtSlawAck) (d := 0) h
  | evtMtSlawNack k raw => exact exec_event_txKept (c := .mtSlawNack) (d := 0) h
  | evtMtDataAck k raw => exact exec_event_txKept (c := .mtDataAck) (d := 0) h
  | evtMtDataNack k raw => exact exec_event_txKept (c := .mtDataNack) (d := 0) h
  | evtArbLost k raw => exact exec_event_txKept (c := .arbLost) (d := 0) h
  | evtMrSlarAck k raw => exact exec_event_txKept (c := .mrSlarAck) (d := 0) h
  | evtMrSlarNack k raw => exact exec_event_txKept (c := .mrSlarNack) (d := 0) h
  | evtMrDataAck k raw d => exact exec_event_txKept (c := .mrDataAck) h
  | evtMrDataNack k raw d => exact exec_event_txKept (c := .mrDataNack) h
  | evtNoInfoClass k raw => exact exec_event_txKept (c := .noInfoClass) (d := 0) h
  | evtUnhandled k raw => exact exec_event_txKept (c := .unhandled) (d := 0) h
  | issueStart k => exact hwop_txKept h fun _ => rfl
  | issueStop k => exact hwop_txKept h fun _ => rfl
  | continueTx k => exact hwop_txKept h continueTx_txBuf
  | ackNext k => exact hwop_txKept h fun _ => rfl
  | nackNext k => exact hwop_txKept h fun _ => rfl
  | writeData k v => exact hwop_txKept h (writeData_txBuf v)
  | readData k =>
    simp only [exec, execReadData] at h
    exact hwop_txKept h fun x => read_txBuf x.hw.data .hwData x
  | readStatus k =>
    simp only [exec, execReadStatus] at h
    exact hwop_txKept h fun x => read_txBuf x.hw.status .hwStatus x
  | setDivisor k v => exact hwop_txKept h fun _ => rfl
  | enable k => exact hwop_txKept h fun _ => rfl

theorem resume_txKept {s : State} {i : Instr} {k : Nat} {f : ApiFn} {x : Inst} (hc : callOf i = some (k, f))
    (hx : s.insts[k]? = some x) (hf : x.fault = none) : TxKept (LeavesTx i) s (s.resume i x) := by
  unfold State.resume
  split
  · cases hc
    exact acceptTransmit_txKept _ _ _ hx
  · cases hc
    exact acceptRead_txKept _ _ _ hx hf
  · exact .of_insts rfl

theorem turn_txKept (s : State) : TxKept s.fg.LeavesTx s s.turn := by
  rcases turn_cases s with h | ⟨i, k, f, x, hi, hc, hx, hf, -, h⟩ <;> rw [h]
  · exact .of_insts rfl
  · unfold State.advance
    split
    · exact .of_insts rfl
    · rename_i i' hfg
      rw [hfg] at hi ⊢
      cases hi
      exact resume_txKept hc hx hf
    · exact .of_insts rfl
    · rename_i i' a todo hfg
      rw [hfg]
      refine .of_set hx rfl fun j hj => apply_read_txBuf ?_ x
      rintro v rfl
      exact hj rfl

/-- Settles O49: `exec_txKept` and `turn_txKept`, at the indices that the statement's premises name. -/
theorem transmitBufferFrame : Obligations.TransmitBufferFrame := by
  unfold Obligations.TransmitBufferFrame
  refine ⟨fun s t i k x _ hx h => ?_, fun s k x hx => ?_⟩
  · obtain ⟨y, hy, hk⟩ := exec_txKept h k x hx
    exact ⟨y, hy, fun j ht hr => hk j (leavesTx_of ht hr)⟩
  · obtain ⟨y, hy, hk⟩ := turn_txKept s k x hx
    refine ⟨y, hy, fun j ht hr hcopy => hk j ?_⟩
    unfold Foreground.LeavesTx
    split
    · rename_i i hfg
      exact leavesTx_of (fun _ _ _ _ e => ht _ _ _ _ (by rw [hfg, e])) (fun _ _ _ _ e => hr _ _ _ _ (by rw [hfg, e]))
    · rename_i i n v todo hfg
      rintro rfl
      exact hcopy i v todo hfg
    · trivial

end Sys2Proof.Machine
end

section
/-! PROOFS. The command words that R74 refuses and those that spell a command (R70-R74), the classification of a status (R79),
and decode as the inverse of encode. -/

namespace Sys2Proof

/-! ## The command words that are refused (R74) -/

/-- The cases 2 to 8 of R74: a word without a reserved selector that spells no command. -/
def CmdWord.Malformed (p : Params) (w : CmdWord) (payload : List Byte) : Prop :=
  w.reserved = true ∨ (w.rs = true ∧ w.op ≠ 2#3 ∧ w.op ≠ 3#3) ∨
    (w.a ≠ 0#8 ∧ (w.op = 0#3 ∨ w.op = 1#3 ∨ w.op = 4#3)) ∨ (w.b ≠ 0#8 ∧ w.op ≠ 3#3) ∨
    p.nInst ≤ w.instField.toNat ∨ (w.op = 2#3 ∧ payload.length ≠ w.a.toNat) ∨ (w.op = 5#3 ∧ p.rxCap ≤ w.a.toNat)

/-- The decoder's checks find exactly R74's cases, and a payload after a command that has none (R70). -/
theorem CmdWord.bad_check_iff {p : Params} {w : CmdWord} {payload : List Byte} :
    (∃ c ∈ w.checks p payload, c.1 = true) ↔ w.Malformed p payload ∨ (w.op ≠ 2#3 ∧ payload ≠ []) := by
  by_cases h2 : w.op = 2#3
  · simp [CmdWord.checks, CmdWord.Malformed, h2]
  · simp [CmdWord.checks, CmdWord.Malformed, h2]
    tauto

/-- A bad check refuses. -/
theorem firstRefusal_error {i : Instr} {l : List (Bool × RefuseReason)} (h : ∃ c ∈ l, c.1 = true) :
    ∃ why, firstRefusal i l = .error why := by
  cases hr : firstRefusal i l with
  | error why => exact ⟨why, rfl⟩
  | ok j =>
    obtain ⟨c, hc, hbad⟩ := h
    obtain ⟨hgood, -⟩ := firstRefusal_ok.mp hr
    exact absurd (hgood c hc) (by simp [hbad])

theorem decodeCmd_of_malformed {p : Params} {w : CmdWord} {payload : List Byte} (h6 : w.op ≠ 6#3) (h7 : w.op ≠ 7#3)
    (h : w.Malformed p payload) : ∃ why, decodeCmd p w payload = .error why := by
  rw [decodeCmd, if_neg (by simp [h6, h7])]
  exact firstRefusal_error (CmdWord.bad_check_iff.mpr (.inl h))

theorem decodeCmd_of_not_malformed {p : Params} {w : CmdWord} {payload : List Byte} (h : ¬ w.Malformed p payload)
    (hp : w.op ≠ 2#3 → payload = []) : decodeCmd p w payload = .ok (w.command payload) := by
  have hgood : ∀ c ∈ w.checks p payload, c.1 = false := by
    intro c hc
    by_contra hbad
    rcases CmdWord.bad_check_iff.mp ⟨c, hc, by simpa using hbad⟩ with hm | ⟨h2, hne⟩
    · exact h hm
    · exact hne (hp h2)
  unfold decodeCmd
  split
  · rfl
  · exact firstRefusal_ok.mpr ⟨hgood, rfl⟩

/-- A word of a reserved selector is decoded, to the instruction that refuses it (R74.1). -/
theorem decodeCmd_reserved (p : Params) {w : CmdWord} (payload : List Byte) (h : w.op = 6#3 ∨ w.op = 7#3) :
    decodeCmd p w payload = .ok (w.command payload) := by
  rw [decodeCmd, if_pos h]

/-! ## Classification (R79) -/

/-- A class has one code. -/
theorem code_unique {c : Codes} {cl : StatusClass} {a b : Byte} (ha : (cl, a) ∈ c.table) (hb : (cl, b) ∈ c.table) :
    a = b := by
  have hd : (c.table.map (·.1)).Nodup := by simp [Codes.table]
  exact congrArg Prod.snd (List.inj_on_of_nodup_map hd ha hb rfl)

/-- UNHANDLED has no code. -/
theorem ne_unhandled_of_mem {c : Codes} {e : StatusClass × Byte} (h : e ∈ c.table) : e.1 ≠ .unhandled := by
  have hn : StatusClass.unhandled ∉ c.table.map (·.1) := by simp [Codes.table]
  exact fun he => hn (he ▸ List.mem_map_of_mem h)

theorem Params.codes_nodup {p : Params} (h : p.wf = true) : (p.codes.table.map (·.2)).Nodup := by
  simp only [Params.wf, Bool.and_eq_true, decide_eq_true_eq] at h
  obtain ⟨⟨⟨⟨⟨-, hd⟩, -⟩, -⟩, -⟩, -⟩ := h
  exact hd

theorem classify_eq_iff {c : Codes} (hd : (c.table.map (·.2)).Nodup) {cl : StatusClass} {code : Byte}
    (hm : (cl, code) ∈ c.table) (s : Byte) : classify c s = cl ↔ s = code := by
  constructor
  · rintro rfl
    exact code_unique (classify_mem (ne_unhandled_of_mem hm)) hm
  · rintro rfl
    exact classify_of_mem hd hm

theorem classify_unhandled_iff {c : Codes} (hd : (c.table.map (·.2)).Nodup) (s : Byte) :
    classify c s = .unhandled ↔ ∀ e ∈ c.table, e.2 ≠ s := by
  constructor
  · rintro hu ⟨cl, code⟩ he rfl
    exact ne_unhandled_of_mem he ((classify_of_mem hd he).symm.trans hu)
  · exact classify_unhandled

theorem decodeEvt_of_lt {p : Params} {k : Nat} (h : k < p.nInst) (raw d : Byte) :
    decodeEvt p k raw d = .ok ((classify p.codes (raw &&& p.statusMask)).event k raw d) := by
  rw [decodeEvt, if_pos h]

/-! ## The encoder's messages (R71-R73, R78) -/

/-- A word that passes R74's checks decodes to the command it names. -/
theorem decode_cmd_eq {p : Params} {w : CmdWord} {payload : List Byte} {i : Instr} (h : ¬ w.Malformed p payload)
    (hp : w.op ≠ 2#3 → payload = []) (hc : w.command payload = i) : decode p (.cmd w payload) = .ok i := by
  rw [decode, decodeCmd_of_not_malformed h hp, hc]

/-- A message whose status spells the code of a class decodes to the class's event. -/
theorem decode_evt_eq {p : Params} (hp : p.wf = true) {c : StatusClass} {code : Byte} (hm : (c, code) ∈ p.codes.table)
    {k : Nat} {raw : Byte} (hi : (decide (k < p.nInst) && p.spells raw code) = true) {d : Byte} {m : Msg}
    (he : some (Msg.evt k raw d) = some m) : decode p m = .ok (c.event k raw d) := by
  cases he
  simp only [Bool.and_eq_true, Params.spells, decide_eq_true_eq] at hi
  obtain ⟨hk, hs⟩ := hi
  rw [decode, decodeEvt_of_lt hk, (classify_eq_iff (Params.codes_nodup hp) hm _).mpr hs]

/-- A message whose status spells no code decodes to UNHANDLED's event. -/
theorem decode_evt_unhandled {p : Params} {k : Nat} {raw : Byte} (hi : Instr.wf p (.evtUnhandled k raw) = true)
    {d : Byte} {m : Msg} (he : some (Msg.evt k raw d) = some m) : decode p m = .ok (.evtUnhandled k raw) := by
  cases he
  simp only [Instr.wf, Bool.and_eq_true, decide_eq_true_eq, List.all_eq_true] at hi
  obtain ⟨hk, hn⟩ := hi
  have hu : classify p.codes (raw &&& p.statusMask) = .unhandled := by
    refine classify_unhandled fun e he hs => ?_
    have := hn e.2 (List.mem_map_of_mem he)
    simp [Params.spells, hs] at this
  rw [decode, decodeEvt_of_lt hk, hu, StatusClass.event]

/-! ## The statements on the encoding -/

/-- Settles O2: an encoded command passes R74's checks and names the command; an event's status spells its class. -/
theorem decodeInvertsEncode : Obligations.DecodeInvertsEncode := by
  unfold Obligations.DecodeInvertsEncode
  intro p i m hp hi he
  cases i with
  | init k | isReady k | read k rs addr count | getStatus k =>
    cases he
    simp only [Instr.wf, decide_eq_true_eq] at hi
    exact decode_cmd_eq (by simp [CmdWord.Malformed, hi]) (by simp) (by simp [CmdWord.command])
  | transmit k rs len data | getRxByte k index =>
    cases he
    simp only [Instr.wf, Bool.and_eq_true, decide_eq_true_eq] at hi
    obtain ⟨hk, hx⟩ := hi
    exact decode_cmd_eq (by simp [CmdWord.Malformed, hk, hx]) (by simp) (by simp [CmdWord.command])
  | reservedOp6 rest | reservedOp7 rest =>
    cases he
    rw [decode, decodeCmd_reserved p [] (by simp)]
    simp [CmdWord.command]
  | evtIllegalStartStop k raw => exact decode_evt_eq hp (c := .illegalStartStop) (by simp [Codes.table]) hi he
  | evtStartSent k raw => exact decode_evt_eq hp (c := .startSent) (by simp [Codes.table]) hi he
  | evtRepStartSent k raw => exact decode_evt_eq hp (c := .repStartSent) (by simp [Codes.table]) hi he
  | evtMtSlawAck k raw => exact decode_evt_eq hp (c := .mtSlawAck) (by simp [Codes.table]) hi he
  | evtMtSlawNack k raw => exact decode_evt_eq hp (c := .mtSlawNack) (by simp [Codes.table]) hi he
  | evtMtDataAck k raw => exact decode_evt_eq hp (c := .mtDataAck) (by simp [Codes.table]) hi he
  | evtMtDataNack k raw => exact decode_evt_eq hp (c := .mtDataNack) (by simp [Codes.table]) hi he
  | evtArbLost k raw => exact decode_evt_eq hp (c := .arbLost) (by simp [Codes.table]) hi he
  | evtMrSlarAck k raw => exact decode_evt_eq hp (c := .mrSlarAck) (by simp [Codes.table]) hi he
  | evtMrSlarNack k raw => exact decode_evt_eq hp (c := .mrSlarNack) (by simp [Codes.table]) hi he
  | evtMrDataAck k raw d => exact decode_evt_eq hp (c := .mrDataAck) (by simp [Codes.table]) hi he
  | evtMrDataNack k raw d => exact decode_evt_eq hp (c := .mrDataNack) (by simp [Codes.table]) hi he
  | evtNoInfoClass k raw => exact decode_evt_eq hp (c := .noInfoClass) (by simp [Codes.table]) hi he
  | evtUnhandled k raw => exact decode_evt_unhandled hi he
  | _ => exact nomatch he

/-- Settles O4: the codes are distinct, and so are the classes. -/
theorem classificationIsExact : Obligations.ClassificationIsExact := by
  unfold Obligations.ClassificationIsExact
  intro p hp
  have hd := Params.codes_nodup hp
  exact ⟨fun _ _ hm => classify_eq_iff hd hm, classify_unhandled_iff hd, fun _ raw d hk => decodeEvt_of_lt hk raw d⟩

/-- Settles O1: the decoder evaluated on each word. -/
theorem tableWordsDecode : Obligations.TableWordsDecode := by
  unfold Obligations.TableWordsDecode
  exact ⟨rfl, rfl, rfl, rfl, rfl, rfl, rfl, rfl, rfl, rfl⟩

end Sys2Proof

namespace Sys2Proof.Machine

/-- Settles O23: a free Foreground's word of a reserved selector changes the port's answer alone. -/
theorem reservedSelectorsAreRefused : Obligations.ReservedSelectorsAreRefused := by
  unfold Obligations.ReservedSelectorsAreRefused
  intro s rest hfg
  constructor
  · simp only [exec, execReservedOp6, hfg, State.refuse]
  · simp only [exec, execReservedOp7, hfg, State.refuse]

/-- Settles O3: a reserved selector is refused by its instruction, the other cases by the decoder. -/
theorem refusedWordsChangeNothing : Obligations.RefusedWordsChangeNothing := by
  unfold Obligations.RefusedWordsChangeNothing
  intro s w payload hfg
  constructor
  · intro hbad
    by_cases hop : w.op = 6#3 ∨ w.op = 7#3
    · refine ⟨.reservedSelector, ?_⟩
      rw [runMsg_of_decode (m := .cmd w payload) (decodeCmd_reserved s.params payload hop)]
      obtain ⟨h6, h7⟩ := reservedSelectorsAreRefused s w.rest hfg
      rcases hop with hop | hop
      · simpa [CmdWord.command, hop] using h6
      · simpa [CmdWord.command, hop] using h7
    · obtain ⟨hn6, hn7⟩ := not_or.mp hop
      obtain ⟨why, he⟩ := decodeCmd_of_malformed hn6 hn7 ((hbad.resolve_left hn6).resolve_left hn7)
      exact ⟨why, by simp only [runMsg, he, State.refuse]⟩
  · intro hgood hp
    have hm : ¬ w.Malformed s.params payload := fun hm => hgood (.inr (.inr hm))
    exact runMsg_of_decode (m := .cmd w payload) (decodeCmd_of_not_malformed hm hp)

end Sys2Proof.Machine
end

section
/-! PROOFS. Every step keeps `LAST_STATUS` at a value of its table (R83). -/

namespace Sys2Proof.Machine

/-! ## What may stand in LAST_STATUS -/

/-- `LAST_STATUS` is unwritten or holds a value of its table (R83). -/
def Inst.StatusOk (p : Params) (x : Inst) : Prop := x.lastStatus.written = true → p.statusValue x.lastStatus.val = true

/-- R83 for every bus of the system. -/
def State.StatusOk (s : State) : Prop := ∀ x ∈ s.insts, x.StatusOk s.params

theorem Inst.StatusOk.of_same {p : Params} {x y : Inst} (h : x.StatusOk p) (hy : y.lastStatus = x.lastStatus) :
    y.StatusOk p := by
  unfold Inst.StatusOk
  rw [hy]
  exact h

theorem Inst.StatusOk.of_value {p : Params} {y : Inst} {v : Byte} (hv : p.statusValue v = true)
    (hy : y.lastStatus = Reg.of v) : y.StatusOk p := by
  intro _
  rw [hy]
  exact hv

theorem Inst.StatusOk.andThen {p : Params} {x : Inst} {f : Inst → Inst} (h : x.StatusOk p)
    (hf : ∀ y : Inst, y.StatusOk p → (f y).StatusOk p) : (x.andThen f).StatusOk p := by
  unfold Inst.andThen
  split
  · exact hf x h
  · exact h

theorem statusValue_success (p : Params) : p.statusValue p.success = true := by simp [Params.statusValue]

theorem statusValue_noInfo (p : Params) : p.statusValue p.noInfo = true := by simp [Params.statusValue]

theorem statusValue_initStatus (p : Params) : p.statusValue p.initStatus = true := by
  unfold Params.initStatus
  split
  · exact statusValue_success p
  · exact statusValue_noInfo p

/-- The classes whose row stores the status itself: the four BusErrors and ILLEGAL_START_STOP (R83, R135, R147). -/
def StoresStatus (c : StatusClass) : Prop :=
  c = .mtSlawNack ∨ c = .mrSlarNack ∨ c = .mtDataNack ∨ c = .arbLost ∨ c = .illegalStartStop

/-- The status of such a class is the class's code, which the table of `LAST_STATUS` lists. -/
theorem statusValue_of_classify {p : Params} {st : Byte} (h : StoresStatus (classify p.codes st)) :
    p.statusValue st = true := by
  have hm : (classify p.codes st, st) ∈ p.codes.table :=
    classify_mem fun hu => by simp [StoresStatus, hu] at h
  rcases h with h | h | h | h | h <;> rw [h] at hm
  all_goals
    simp only [Codes.table, List.mem_cons, Prod.mk.injEq, reduceCtorEq, false_and, true_and, false_or, or_false,
      List.not_mem_nil] at hm
    simp [Params.statusValue, hm]

/-! ## The Dispatcher (R130-R149) -/

theorem finish_statusOk {p : Params} {x : Inst} (h : x.StatusOk p) : (finish p x).StatusOk p := by
  rcases finish_cases p x with ⟨-, e⟩ | ⟨-, e⟩ | ⟨-, e⟩ <;> rw [e]
  · exact h.of_same rfl
  · exact .of_value (statusValue_success p) rfl
  · exact .of_value (statusValue_success p) rfl

theorem errorChain_statusOk {p : Params} {st : Byte} (hst : p.statusValue st = true) (x : Inst) :
    (errorChain st x).StatusOk p := by
  rcases errorChain_cases st x with ⟨-, e⟩ | ⟨-, e⟩ | ⟨-, e⟩ <;> rw [e] <;> exact .of_value hst rfl

theorem ackDecision_statusOk (p : Params) (x : Inst) : (ackDecision p x).StatusOk p := by
  rcases ackDecision_cases p x with ⟨-, e⟩ | ⟨-, e⟩ | ⟨-, -, op, -, e⟩ <;> rw [e] <;>
    exact .of_value (statusValue_noInfo p) rfl

theorem loadOrFinish_statusOk {p : Params} {x : Inst} (hf : x.fault = none) (h : x.StatusOk p) :
    (loadOrFinish p x).StatusOk p := by
  rcases loadOrFinish_cases p hf with ⟨f, e, -⟩ | ⟨-, -, -, -, v, -, e⟩ | ⟨-, -, -, e⟩ <;> rw [e]
  · exact h.of_same rfl
  · exact .of_value (statusValue_noInfo p) rfl
  · exact finish_statusOk h

theorem store_statusOk {p : Params} (st : Byte) {x : Inst} (hf : x.fault = none) (h : x.StatusOk p) :
    (store p st x).StatusOk p := by
  rcases store_cases p st hf with ⟨f, e, -⟩ | ⟨-, -, -, -, e⟩ <;> rw [e] <;> exact h.of_same rfl

/-- A row stores the status only where its class's code is in the table of `LAST_STATUS`. -/
theorem rowOf_statusOk {c : StatusClass} {p : Params} {st : Byte} {x : Inst} (hf : x.fault = none)
    (hst : StoresStatus c → p.statusValue st = true) (h : x.StatusOk p) : (rowOf c p st x).StatusOk p := by
  cases c with
  | startSent => exact loadOrFinish_statusOk hf h
  | repStartSent => exact h.of_same rfl
  | mtSlawAck => exact loadOrFinish_statusOk (x := x.setMode .masterTransmitter) hf (h.of_same rfl)
  | mtSlawNack => exact errorChain_statusOk (hst (by simp [StoresStatus])) x
  | mtDataAck => exact loadOrFinish_statusOk hf h
  | mtDataNack => exact errorChain_statusOk (hst (by simp [StoresStatus])) x
  | arbLost => exact errorChain_statusOk (hst (by simp [StoresStatus])) x
  | mrSlarAck => exact ackDecision_statusOk p _
  | mrSlarNack => exact errorChain_statusOk (hst (by simp [StoresStatus])) x
  | mrDataAck => exact (store_statusOk st hf h).andThen fun y _ => ackDecision_statusOk p y
  | mrDataNack => exact (store_statusOk st hf h).andThen fun y hy => finish_statusOk hy
  | illegalStartStop => exact .of_value (hst (by simp [StoresStatus])) rfl
  | noInfoClass => exact h
  | unhandled => exact h.of_same rfl

theorem dispatch_statusOk {p : Params} {x : Inst} (hf : x.fault = none) (h : x.StatusOk p) :
    (dispatch p x).StatusOk p := by
  unfold dispatch Inst.readStatus Reg.read
  split
  · exact rowOf_statusOk hf statusValue_of_classify h
  · exact h.of_same rfl

/-! ## The commands (R100, R103, R106) -/

theorem apply_statusOk {p : Params} (a : AcceptStep) (x : Inst) (h : x.StatusOk p) : (a.apply p x).StatusOk p :=
  h.of_same (AcceptStep.apply_frame p a x).1

/-- Of the commands, INIT alone writes `LAST_STATUS`. -/
theorem Inst.RunsTo.statusOk {p : Params} {x y : Inst} (h : x.RunsTo p y) (hx : x.StatusOk p) : y.StatusOk p := by
  cases h with
  | same => exact hx
  | raise f => exact hx.of_same rfl
  | initialise h => exact .of_value (statusValue_initStatus p) rfl
  | transmit rs len data hi hr hd hl => exact acceptTransmit_keeps apply_statusOk hx
  | read rs addr count hi hr hl => exact acceptRead_keeps apply_statusOk hx

/-! ## The system -/

theorem State.StatusOk.of_insts {s t : State} (hs : s.StatusOk) (hp : t.params = s.params) (hi : t.insts = s.insts) :
    t.StatusOk := by
  unfold State.StatusOk
  rw [hp, hi]
  exact hs

theorem State.StatusOk.get {s : State} {k : Nat} {x : Inst} (hs : s.StatusOk) (hx : s.insts[k]? = some x) :
    x.StatusOk s.params := hs x (List.mem_of_getElem? hx)

theorem State.StatusOk.of_set {s t : State} {k : Nat} {y : Inst} (hs : s.StatusOk) (hp : t.params = s.params)
    (hi : t.insts = s.insts.set k y) (hy : y.StatusOk s.params) : t.StatusOk := by
  unfold State.StatusOk
  rw [hp, hi]
  intro z hz
  rcases List.mem_or_eq_of_mem_set hz with hz | rfl
  · exact hs z hz
  · exact hy

theorem CommandNext.statusOk {i : Instr} {s t : State} (h : CommandNext i s t) (hs : s.StatusOk) : t.StatusOk := by
  cases h with
  | refused why => exact hs.of_insts rfl rfl
  | held hk hx h => exact hs.of_insts rfl rfl
  | accepting todo h => exact hs.of_insts rfl rfl
  | completes r hk hx hf h => exact hs.of_set rfl rfl (h.statusOk (hs.get hx))

/-- An event of the class that its status spells. -/
theorem exec_event_statusOk {k : Nat} {raw d : Byte} {s t : State} (hs : s.StatusOk)
    (h : exec ((classify s.params.codes (raw &&& s.params.statusMask)).event k raw d) s = .next t) : t.StatusOk := by
  obtain ⟨x, hx, ⟨r, rfl⟩ | ⟨-, he, rfl⟩⟩ := exec_event_cases h
  · exact hs.of_insts rfl rfl
  · have hf := Inst.fault_of_deliveryEnabled he
    exact hs.of_set rfl rfl (rowOf_statusOk (x := x.enterHandler raw _) hf statusValue_of_classify ((hs.get hx).of_same rfl))

theorem redispatch_statusOk {s : State} (hs : s.StatusOk) (k : Nat) : (s.redispatch k).StatusOk := by
  unfold State.redispatch
  split
  · exact hs.of_insts rfl rfl
  · rename_i x hx
    split
    · rename_i he
      exact hs.of_set rfl rfl (dispatch_statusOk (Inst.fault_of_redispatchEnabled he) (hs.get hx))
    · exact hs.of_insts rfl rfl

theorem turn_statusOk {s : State} (hs : s.StatusOk) : s.turn.StatusOk := by
  obtain ⟨hp, -, -, -, -, hi | ⟨i, k, f, x, y, -, -, hx, -, hi, hkeeps⟩⟩ := turn_frame s
  · exact hs.of_insts hp hi
  · exact hs.of_set hp hi (hkeeps (Inst.StatusOk s.params) apply_statusOk (hs.get hx))

theorem runMsg_statusOk {m : Msg} {s t : State} (hs : s.StatusOk) (h : runMsg m s = .next t) : t.StatusOk := by
  cases m with
  | cmd w payload =>
    simp only [runMsg] at h
    split at h
    · injection h with h
      exact h ▸ hs.of_insts rfl rfl
    · rename_i i hi
      rw [decodeCmd_ok hi] at h
      exact (exec_command_next h).statusOk hs
  | evt k raw d =>
    rcases runMsg_evt k raw d s with ⟨why, h'⟩ | h' <;> rw [h'] at h
    · injection h with h
      exact h ▸ hs.of_insts rfl rfl
    · exact exec_event_statusOk hs h
  | redispatch k =>
    simp only [runMsg] at h
    injection h with h
    exact h ▸ redispatch_statusOk hs k
  | turn =>
    simp only [runMsg] at h
    injection h with h
    exact h ▸ turn_statusOk hs

/-- Settles O55: the message that a step takes keeps `State.StatusOk`, and so does the environment's draw. -/
theorem lastStatusHoldsOnlyItsValues : Obligations.LastStatusHoldsOnlyItsValues := by
  unfold Obligations.LastStatusHoldsOnlyItsValues
  intro s t hs h
  have hs : s.StatusOk := hs
  rcases step_cases s with ⟨m, rest, -, h'⟩ | ⟨-, h'⟩ <;> rw [h'] at h
  · exact runMsg_statusOk (s := { s with inbox := rest }) (hs.of_insts rfl rfl) h
  · injection h with h
    exact h ▸ hs.of_insts rfl rfl

end Sys2Proof.Machine
end

section
/-! PROOFS. The foreground commands (40_api.md): what INIT, IS_READY, GET_STATUS and GET_RX_BYTE answer, what TRANSMIT and READ
do ahead of their acceptance, what their acceptance never writes (R24), and how a Foreground that waits goes on (R101, R115). -/

namespace Sys2Proof.Machine

/-! ## A command that runs (R113) -/

/-- A free Foreground's command that raises no fault: its bus and its answer. -/
theorem complete_of_idle {s : State} (i : Instr) (k : Nat) {y : Inst} (r : Reply) (hfg : s.fg = .idle)
    (hf : y.fault = none) : s.complete i k y r = { s with insts := s.insts.set k y, reply := r } := by
  rw [State.complete_of_no_fault _ _ _ _ _ hf, ← hfg]

/-- A command that raises no fault and writes nothing of its bus changes the port's answer alone. -/
theorem complete_unchanged {s : State} {k : Nat} {x : Inst} (i : Instr) (r : Reply) (hfg : s.fg = .idle)
    (hx : s.insts[k]? = some x) (hf : x.fault = none) : s.complete i k x r = { s with reply := r } := by
  rw [complete_of_idle i k r hfg hf, insts_set_self hx]

/-- A command that raises a fault writes nothing else of its bus (R195). -/
theorem complete_raise (s : State) (i : Instr) (k : Nat) (x : Inst) (f : FaultCode) (r : Reply) :
    s.complete i k (x.raise f) r =
      { s with insts := s.insts.set k { x with fault := some f }, fg := .held i, reply := .noReply } :=
  State.complete_of_fault _ _ _ _ _ f rfl

/-- A command that its own check refuses changes the port's answer alone (R74). -/
theorem command_of_refused {i : Instr} {k : Nat} {refusal : Inst → Option RefuseReason} {body : Inst → State} {s : State}
    {x : Inst} {why : RefuseReason} (hfg : s.fg = .idle) (hx : s.insts[k]? = some x) (hr : refusal x = some why) :
    command i k refusal body s = .next (s.refuse why) := by
  simp [command, hfg, hx, hr]

/-! ## READY (R43) -/

theorem Mode.gated_iff (m : Mode) : m.gated = true ↔ m = .ready ∨ m = .repeatedStartSent := by
  cases m <;> simp [Mode.gated]

theorem Inst.ready_of_written {x : Inst} (h : x.mode.written = true) :
    x.ready = decide (x.mode.val = .ready ∨ x.mode.val = .repeatedStartSent) := by
  rw [Inst.ready, h, Bool.true_and, Bool.eq_iff_iff, decide_eq_true_iff]
  exact Mode.gated_iff _

theorem Inst.ready_iff {x : Inst} : x.ready = true ↔ x.mode = Reg.of .ready ∨ x.mode = Reg.of .repeatedStartSent := by
  constructor
  · intro h
    simp only [Inst.ready, Bool.and_eq_true, Mode.gated_iff] at h
    obtain ⟨hw, h⟩ := h
    rw [Reg.eq_of_written hw]
    exact h.imp (congrArg Reg.of) (congrArg Reg.of)
  · rintro (h | h) <;> rw [Inst.ready, h] <;> rfl

theorem Inst.not_ready {x : Inst} (h1 : x.mode.val ≠ .ready) (h2 : x.mode.val ≠ .repeatedStartSent) : x.ready = false := by
  rw [← Bool.not_eq_true, Inst.ready_iff]
  rintro (h | h) <;> rw [h] at h1 h2
  · exact h1 rfl
  · exact h2 rfl

/-! ## IS_READY, GET_STATUS, GET_RX_BYTE (R102, R109, R110) -/

/-- Settles O8: the one read of `MODE` finds it written. -/
theorem isReadyAnswers : Obligations.IsReadyAnswers := by
  unfold Obligations.IsReadyAnswers
  intro s k x hfg hx hf hi hm
  rw [exec, execIsReady, command_of_run hfg hx rfl hf, if_pos hi, Reg.read_of_written hm,
    complete_unchanged _ _ hfg hx hf, Inst.ready_of_written hm]

/-- Settles O21: the one read of `LAST_STATUS` finds it written. -/
theorem getStatusAnswers : Obligations.GetStatusAnswers := by
  unfold Obligations.GetStatusAnswers
  intro s k x hfg hx hf hi hw
  rw [exec, execGetStatus, command_of_run hfg hx rfl hf, if_pos hi, Reg.read_of_written hw,
    complete_unchanged _ _ hfg hx hf]

theorem rxByte_of_read {x : Inst} {index v : Byte} (h : Memory.read x.rxBuf index.toNat = some v) : rxByte x index = v := by
  simp [rxByte, h]

/-- Settles O22: the index is refused at the port, or its element is loaded, written or not (R55). -/
theorem getRxByteAnswers : Obligations.GetRxByteAnswers := by
  unfold Obligations.GetRxByteAnswers
  intro s k index x hfg hx hf hi
  refine ⟨fun v hlt hv => ?_, fun hge => ?_, fun hlt hn => ?_⟩
  · rw [exec, execGetRxByte, command_of_run hfg hx (if_pos hlt) hf, if_pos hi, Memory.load_of_read hlt hv,
      complete_unchanged _ _ hfg hx hf, rxByte_of_read hv]
  · rw [exec, execGetRxByte, command_of_refused hfg hx (if_neg (Nat.not_lt.mpr hge)), State.refuse]
  · rw [exec, execGetRxByte, command_of_run hfg hx (if_pos hlt) hf, if_pos hi, Memory.load_of_unwritten hlt hn,
      complete_raise]

/-! ## INIT (R100) -/

theorem initInst_resets {p : Params} {x : Inst}
    (h : x.initd = false ∨ (x.mode = Reg.of .ready ∧ x.hw.busy = false ∧ x.hw.pend = false)) :
    initInst p x = initialise p x := by
  unfold initInst
  split
  · rename_i hi
    obtain ⟨hm, hb, hp⟩ := h.resolve_left (by simp [hi])
    rw [hm, Reg.read_of_written rfl, if_neg (by simp [hb, hp])]
  · rfl

theorem initInst_faults {p : Params} {x : Inst} (hi : x.initd = true) (hm : x.mode.written = true)
    (h : x.mode.val ≠ .ready ∨ x.hw.busy = true ∨ x.hw.pend = true) :
    initInst p x = x.raise (.initWhileBusy x.mode.val) := by
  rw [initInst, if_pos hi, Reg.read_of_written hm, if_pos h]

/-- R100's body: TransactionInfo reset, the divisor set and the peripheral enabled; no buffer, length or cursor written. -/
theorem initialise_eq (p : Params) (x : Inst) :
    initialise p x =
      { x with
        mode := Reg.of .ready
        lastStatus := Reg.of p.initStatus
        repStart := Reg.of false
        hw :=
          { x.hw with
            div := Reg.of p.clockDivisor
            en := true
            ie := true
            trace := x.hw.trace ++ [.setDivisor p.clockDivisor, .enable] }
        initd := true } := by
  rw [List.append_cons]
  rfl

/-- Settles O6: `initInst` resets or faults, and the command completes. -/
theorem initResetsOrFaults : Obligations.InitResetsOrFaults := by
  unfold Obligations.InitResetsOrFaults
  intro s k x hfg hx hf
  refine ⟨fun h => ?_, fun hi hm h => ?_⟩
  · rw [exec, execInit, command_of_run hfg hx rfl hf, initInst_resets h, initialise_eq,
      complete_of_idle _ _ _ hfg (by exact hf)]
  · rw [exec, execInit, command_of_run hfg hx rfl hf, initInst_faults hi hm h, complete_raise]

/-! ## TRANSMIT and READ ahead of their acceptance (R101, R103, R106, R114) -/

/-- Settles O14: the overflow test comes ahead of the wait, and the command completes with its bus as it was. -/
theorem overflowLeavesEverything : Obligations.OverflowLeavesEverything := by
  unfold Obligations.OverflowLeavesEverything
  intro s k rs x hfg hx hf hi
  refine ⟨fun len data hd hl => ?_, fun addr count hl => ?_⟩
  · rw [exec, execTransmit, command_of_run hfg hx (if_pos hd) hf, if_pos hi, if_pos hl, complete_unchanged _ _ hfg hx hf]
  · rw [exec, execRead, command_of_run hfg hx rfl hf, if_pos hi, if_pos hl, complete_unchanged _ _ hfg hx hf]

/-- Settles O15: past the overflow test the wait finds READY false. -/
theorem notReadyHoldsForeground : Obligations.NotReadyHoldsForeground := by
  unfold Obligations.NotReadyHoldsForeground
  intro s k rs x hfg hx hf hi hm h1 h2
  have hr : ¬ x.ready = true := by simp [Inst.not_ready h1 h2]
  refine ⟨fun len data hd hl => ?_, fun addr count hl => ?_⟩
  · rw [exec, execTransmit, command_of_run hfg hx (if_pos hd) hf, if_pos hi, if_neg (Nat.not_lt.mpr hl), if_pos hm,
      if_neg hr, State.hold]
  · rw [exec, execRead, command_of_run hfg hx rfl hf, if_pos hi, if_neg (Nat.not_le.mpr hl), if_pos hm, if_neg hr,
      State.hold]

/-! ## The read frame (R57) -/

/-- Settles O20: shifted left and its bit 0 set, the address doubles and gains one. -/
theorem readFrameBits : Obligations.ReadFrameBits := by
  unfold Obligations.ReadFrameBits
  refine ⟨fun a => ⟨?_, ?_, fun j hj => ?_⟩, by decide⟩
  · have ha := a.isLt
    have hodd : 2 ^ 1 * (a.toNat % 128) ||| 1 = 2 ^ 1 * (a.toNat % 128) + 1 :=
      (Nat.two_pow_add_eq_or_of_lt (by decide) _).symm
    have hmod : a.toNat <<< 1 % 2 ^ 8 = 2 ^ 1 * (a.toNat % 128) := by rw [Nat.shiftLeft_eq]; omega
    rw [readFrame, BitVec.toNat_or, BitVec.toNat_shiftLeft, hmod, BitVec.toNat_ofNat]
    simp only [Nat.reducePow, Nat.reduceMod] at hodd ⊢
    omega
  · simp [readFrame]
  · have : j + 1 < 8 := by omega
    simp [readFrame, this, BitVec.getLsbD_eq_getElem (show j < 8 by omega)]

/-! ## What the acceptance never writes (R24, R103, R106) -/

/-- What TRANSMIT and READ leave of their bus: `LAST_STATUS`, RX_BUF, INITD and, of `HW`, the divisor, the status and the
enables. -/
structure Inst.StatusSideKept (x y : Inst) : Prop where
  lastStatus : y.lastStatus = x.lastStatus
  rxBuf : y.rxBuf = x.rxBuf
  initd : y.initd = x.initd
  div : y.hw.div = x.hw.div
  status : y.hw.status = x.hw.status
  en : y.hw.en = x.hw.en
  ie : y.hw.ie = x.hw.ie

theorem Inst.StatusSideKept.refl (x : Inst) : x.StatusSideKept x := ⟨rfl, rfl, rfl, rfl, rfl, rfl, rfl⟩

theorem Inst.StatusSideKept.raise (x : Inst) (f : FaultCode) : x.StatusSideKept (x.raise f) :=
  ⟨rfl, rfl, rfl, rfl, rfl, rfl, rfl⟩

/-- Every step of an acceptance keeps it. -/
theorem Inst.StatusSideKept.apply {p : Params} {x y : Inst} (a : AcceptStep) (h : x.StatusSideKept y) :
    x.StatusSideKept (a.apply p y) := by
  obtain ⟨hl, hb, hi, he, hie, hd, hs⟩ := a.apply_frame p y
  exact ⟨hl.trans h.lastStatus, hb.trans h.rxBuf, hi.trans h.initd, hd.trans h.div, hs.trans h.status, he.trans h.en,
    hie.trans h.ie⟩

/-- The receive length and cursor stay. -/
structure Inst.RxSideKept (x y : Inst) : Prop where
  rxLen : y.rxLen = x.rxLen
  rxCur : y.rxCur = x.rxCur

/-- Of the steps of an acceptance only Q3 writes the receive length and cursor (R106). -/
theorem Inst.RxSideKept.apply {p : Params} {x y : Inst} {a : AcceptStep} (ha : ∀ count, a ≠ .rxStart count)
    (h : x.RxSideKept y) : x.RxSideKept (a.apply p y) := by
  obtain ⟨hl, hc⟩ := h
  cases a with
  | rxStart count => exact absurd rfl (ha count)
  | copy i v =>
    simp only [AcceptStep.apply, Inst.storeTx]
    split <;> exact ⟨hl, hc⟩
  | notEmpty len =>
    simp only [AcceptStep.apply]
    split <;> exact ⟨hl, hc⟩
  | loadFirst =>
    simp only [AcceptStep.apply, Memory.load, Inst.writeData]
    (repeat' split) <;> exact ⟨hl, hc⟩
  | continueTx =>
    simp only [AcceptStep.apply, Inst.continueTx, Reg.read]
    split <;> exact ⟨hl, hc⟩
  | wait => exact ⟨hl, hc⟩
  | repStart rs => exact ⟨hl, hc⟩
  | txStart len => exact ⟨hl, hc⟩
  | path len => exact ⟨hl, hc⟩
  | modeInitializing => exact ⟨hl, hc⟩
  | firstSent => exact ⟨hl, hc⟩
  | issueStart => exact ⟨hl, hc⟩

theorem acceptSteps_ne_rxStart {rs : Bool} {len : Byte} {data : List Byte} {a : AcceptStep}
    (h : a ∈ acceptSteps rs len data) (count : Byte) : a ≠ .rxStart count := by
  rcases acceptSteps_mem h with rfl | ⟨n, v, -, rfl⟩ | rfl <;> exact nofun

theorem launchSteps_ne_rxStart {len : Byte} {x : Inst} {a : AcceptStep} (h : a ∈ launchSteps len x) (count : Byte) :
    a ≠ .rxStart count := by
  rintro rfl
  unfold launchSteps at h
  split at h <;> simp at h

/-- TRANSMIT's acceptance, T3 to T6, leaves the receive length and cursor (R103). -/
theorem acceptTransmit_rxSideKept (p : Params) (rs : Bool) (len : Byte) (data : List Byte) (x : Inst) :
    x.RxSideKept (acceptTransmit p rs len data x) := by
  have h1 : x.RxSideKept (runSteps p (acceptSteps rs len data) x) :=
    runSteps_keeps _ x (fun a ha _ hy => hy.apply (acceptSteps_ne_rxStart ha)) ⟨rfl, rfl⟩
  cases hf : (runSteps p (acceptSteps rs len data) x).fault with
  | some c => rw [acceptTransmit, Inst.andThen_of_fault hf]; exact h1
  | none =>
    rw [acceptTransmit, Inst.andThen_of_no_fault hf]
    exact runSteps_keeps (P := x.RxSideKept) _ _ (fun a ha _ hy => hy.apply (launchSteps_ne_rxStart ha)) h1

/-- The bus at `k` afterwards is related by `R` to `x`, the one there before. -/
def BusKept (R : Inst → Inst → Prop) (k : Nat) (x : Inst) (t : State) : Prop := ∃ y, t.insts[k]? = some y ∧ R x y

theorem BusKept.of_set {R : Inst → Inst → Prop} {s t : State} {k : Nat} {x y : Inst} (hx : s.insts[k]? = some x)
    (ht : t.insts = s.insts.set k y) (h : R x y) : BusKept R k x t := by
  obtain ⟨hlt, -⟩ := List.getElem?_eq_some_iff.mp hx
  exact ⟨y, by rw [ht, List.getElem?_set_self hlt], h⟩

/-- A command relates its bus by `R` where its body does and where leaving the bus as it was does (R113). -/
theorem command_busKept {R : Inst → Inst → Prop} {i : Instr} {k : Nat} {refusal : Inst → Option RefuseReason}
    {body : Inst → State} {s t : State} {x : Inst} (h : command i k refusal body s = .next t)
    (hx : s.insts[k]? = some x) (hr : R x x) (hb : x.fault = none → BusKept R k x (body x)) : BusKept R k x t := by
  obtain ⟨-, ⟨hn, -⟩ | ⟨x', hx', h⟩⟩ := command_next h
  · exact nomatch hn.symm.trans hx
  · cases hx'.symm.trans hx
    rcases h with ⟨why, -, rfl⟩ | ⟨-, -, rfl⟩ | ⟨-, hf, rfl⟩
    · exact ⟨x, hx, hr⟩
    · exact ⟨x, hx, hr⟩
    · exact hb hf

/-- So does an acceptance entered past the wait, where the whole acceptance does (R112). -/
theorem accept_busKept {R : Inst → Inst → Prop} {s : State} {i : Instr} {k : Nat} {x y : Inst} (f : ApiFn)
    (todo : List AcceptStep) (hx : s.insts[k]? = some x) (hr : R x x) (h : R x y) :
    BusKept R k x (s.accept i k f todo y) := by
  unfold State.accept
  split
  · exact ⟨x, hx, hr⟩
  · exact .of_set hx rfl h

/-- TRANSMIT leaves its bus as it was, faults it, or accepts. -/
theorem execTransmit_busKept {R : Inst → Inst → Prop} {k : InstField} {rs : Bool} {len : Byte} {data : List Byte}
    {s t : State} {x : Inst} (h : execTransmit k rs len data s = .next t) (hx : s.insts[k.toNat]? = some x)
    (hr : R x x) (hfault : ∀ f, R x (x.raise f)) (ha : R x (acceptTransmit s.params rs len data x)) :
    BusKept R k.toNat x t := by
  refine command_busKept h hx hr fun _ => ?_
  split
  · split
    · exact .of_set hx rfl hr
    · split
      · split
        · exact accept_busKept _ _ hx hr ha
        · exact ⟨x, hx, hr⟩
      · exact .of_set hx rfl (hfault _)
  · exact .of_set hx rfl (hfault _)

/-- READ leaves its bus as it was, faults it, or accepts. -/
theorem execRead_busKept {R : Inst → Inst → Prop} {k : InstField} {rs : Bool} {addr count : Byte} {s t : State} {x : Inst}
    (h : execRead k rs addr count s = .next t) (hx : s.insts[k.toNat]? = some x) (hr : R x x)
    (hfault : ∀ f, R x (x.raise f)) (ha : R x (acceptRead s.params rs addr count x)) : BusKept R k.toNat x t := by
  refine command_busKept h hx hr fun _ => ?_
  split
  · split
    · exact .of_set hx rfl hr
    · split
      · split
        · exact accept_busKept _ _ hx hr ha
        · exact ⟨x, hx, hr⟩
      · exact .of_set hx rfl (hfault _)
  · exact .of_set hx rfl (hfault _)

/-- A turn takes steps of an acceptance or none, of whichever bus. -/
theorem turn_busKept {s : State} {k : Nat} {x : Inst} (hx : s.insts[k]? = some x) :
    BusKept Inst.StatusSideKept k x s.turn := by
  obtain ⟨-, -, -, -, -, hi | ⟨i, k', f, x', y, -, -, hx', -, hi, hkeeps⟩⟩ := turn_frame s
  · exact ⟨x, hi ▸ hx, .refl x⟩
  · by_cases hk : k' = k
    · subst hk
      cases hx'.symm.trans hx
      exact .of_set hx hi (hkeeps x.StatusSideKept (fun a z hz => hz.apply a) (.refl x))
    · exact ⟨x, by rw [hi, List.getElem?_set_ne hk, hx], .refl x⟩

/-- Settles O25: both commands and every turn take steps of an acceptance, of which only READ's Q3 writes the receive length and
cursor. -/
theorem acceptanceLeavesStatusAndReceiveBuffer : Obligations.AcceptanceLeavesStatusAndReceiveBuffer := by
  unfold Obligations.AcceptanceLeavesStatusAndReceiveBuffer
  have happly : ∀ {p : Params} {x : Inst} (a : AcceptStep) (y : Inst), x.StatusSideKept y → x.StatusSideKept (a.apply p y) :=
    fun a _ hy => hy.apply a
  refine ⟨fun s t k i x hx hi h => ?_, fun s k x hx => ?_⟩
  · rcases hi with ⟨rs, len, data, rfl⟩ | ⟨rs, addr, count, rfl⟩
    · obtain ⟨y, hy, hs, hr⟩ := execTransmit_busKept (R := fun x y => x.StatusSideKept y ∧ x.RxSideKept y) h hx
        ⟨.refl x, rfl, rfl⟩ (fun f => ⟨.raise x f, rfl, rfl⟩)
        ⟨acceptTransmit_keeps (P := x.StatusSideKept) happly (.refl x), acceptTransmit_rxSideKept _ _ _ _ x⟩
      exact ⟨y, hy, hs.lastStatus, fun _ => by rw [hs.rxBuf], hs.initd, hs.div, hs.status, hs.en, hs.ie,
        fun _ => ⟨hr.rxLen, hr.rxCur⟩⟩
    · obtain ⟨y, hy, hs⟩ := execRead_busKept (R := Inst.StatusSideKept) h hx (.refl x) (.raise x)
        (acceptRead_keeps (P := x.StatusSideKept) happly (.refl x))
      exact ⟨y, hy, hs.lastStatus, fun _ => by rw [hs.rxBuf], hs.initd, hs.div, hs.status, hs.en, hs.ie,
        fun ⟨_, _, _, he⟩ => nomatch he⟩
  · obtain ⟨y, hy, hs⟩ := turn_busKept hx
    exact ⟨y, hy, hs.lastStatus, fun _ => by rw [hs.rxBuf], hs.initd, hs.div, hs.status, hs.en, hs.ie⟩

/-! ## A Foreground that is in a command (R101, R115) -/

/-- Settles O58: what is taken is no command, and the environment's draw comes last. -/
theorem heldForegroundTakesNoCommand : Obligations.HeldForegroundTakesNoCommand := by
  unfold Obligations.HeldForegroundTakesNoCommand
  intro s t hfg h
  rcases step_cases s with ⟨m, rest, ht, h'⟩ | ⟨-, h'⟩ <;> rw [h'] at h
  · rw [hfg] at ht
    refine ⟨[], ?_⟩
    rw [(runMsg_frame h).inbox, List.append_nil]
    exact takeMsg_held_filter ht
  · injection h with h
    subst h
    exact ⟨_, by rw [State.arrive_inbox, List.filter_append]⟩

/-- An event or a redispatch leaves the Foreground where it is (R200). -/
theorem runMsg_fg {m : Msg} {s t : State} (hc : m.isCmd = false) (hm : m ≠ .turn) (h : runMsg m s = .next t) :
    t.fg = s.fg := by
  cases m with
  | cmd w payload => exact nomatch hc
  | turn => exact absurd rfl hm
  | evt k raw d =>
    rcases runMsg_evt k raw d s with ⟨why, h'⟩ | h' <;> rw [h'] at h
    · injection h with h
      exact h ▸ rfl
    · obtain ⟨x, -, ⟨r, rfl⟩ | ⟨-, -, rfl⟩⟩ := exec_event_cases h <;> rfl
  | redispatch k =>
    simp only [runMsg, State.redispatch] at h
    injection h with h
    subst h
    split
    · rfl
    · split <;> rfl

/-- A turn in which a held command goes on finds its bus READY and not faulted (R101, R195). -/
theorem turn_of_held {s : State} {i : Instr} (hfg : s.fg = .held i) (h : s.turn.fg ≠ .held i) :
    ∃ k x, target i = some k ∧ s.insts[k]? = some x ∧ x.fault = none ∧ x.ready = true := by
  rcases turn_cases s with h' | ⟨j, k, f, x, hj, hc, hx, hf, hw, -⟩
  · exact absurd ((congrArg State.fg h').trans hfg) h
  · rw [hfg] at hj hw
    cases hj
    exact ⟨k, x, target_of_callOf hc, hx, hf, hw rfl⟩

/-- Settles O16: of the messages that a held Foreground's step takes only a turn moves it, past a wait that is over. -/
theorem holdEndsOnlyWhenReady : Obligations.HoldEndsOnlyWhenReady := by
  unfold Obligations.HoldEndsOnlyWhenReady
  intro s t i hfg h hne
  rcases step_cases s with ⟨m, rest, ht, h'⟩ | ⟨-, h'⟩ <;> rw [h'] at h
  · rw [hfg] at ht
    by_cases hm : m = .turn
    · subst hm
      simp only [runMsg] at h
      injection h with h
      subst h
      obtain ⟨k, x, hk, hx, hf, hr⟩ := turn_of_held (s := { s with inbox := rest }) hfg hne
      exact ⟨k, x, hk, hx, hf, Inst.ready_iff.mp hr⟩
    · exact absurd ((runMsg_fg (takeMsg_held ht) hm h).trans hfg) hne
  · injection h with h
    subst h
    exact absurd hfg hne

/-- A Foreground with a step inside its command: the command is a TRANSMIT or a READ, its bus is not faulted, and READY
holds at a wait (R101). -/
theorem foregroundEnabled_cases {s : State} (h : s.foregroundEnabled = true) :
    ∃ i k f x, s.fg.command = some i ∧ callOf i = some (k, f) ∧ s.insts[k]? = some x ∧ x.fault = none ∧
      (s.fg.atWait = true → x.ready = true) := by
  unfold State.foregroundEnabled at h
  split at h
  · exact nomatch h
  · rename_i k f hkf
    obtain ⟨i, hi, hc⟩ := Option.bind_eq_some_iff.mp hkf
    split at h
    · exact nomatch h
    · rename_i x hx
      simp only [Bool.and_eq_true, Option.isNone_iff_eq_none, Bool.or_eq_true, Bool.not_eq_true'] at h
      obtain ⟨hf, hw⟩ := h
      exact ⟨i, k, f, x, hi, hc, hx, hf, fun ha => hw.resolve_right (by simp [ha])⟩

/-- Settles O17: the held command has passed its checks, so both the turn and the command issued now enter the acceptance. -/
theorem heldCommandGoesOnAsIssuedNow : Obligations.HeldCommandGoesOnAsIssuedNow := by
  unfold Obligations.HeldCommandGoesOnAsIssuedNow
  intro s i rest hfg hb he hok
  obtain ⟨j, k, f, x, hj, hc, hx, hf, hw⟩ := foregroundEnabled_cases he
  rw [hfg] at hj hw
  cases hj
  have hr := hw rfl
  have hturn : ({ s with inbox := rest } : State).turn = ({ s with inbox := rest } : State).resume i x := by
    rw [turn_of_enabled (s := { s with inbox := rest }) (i := i) (by rw [hfg]; rfl) hc hx hf fun _ => hr, State.advance, hfg]
  rw [step_turn hb, hturn]
  rw [heldOk_held_iff hfg] at hok
  cases i with
  | transmit b rs len data =>
    cases hc
    obtain ⟨hi, hd, hl⟩ := (hok _ rfl x hx).resolve_left (absurd hf)
    rw [exec_transmit_ready (s := { s with fg := .idle, inbox := rest }) rfl hx hf hi hr hd hl]
    rfl
  | read b rs addr count =>
    cases hc
    obtain ⟨hi, hl⟩ := (hok _ rfl x hx).resolve_left (absurd hf)
    rw [exec_read_ready (s := { s with fg := .idle, inbox := rest }) rfl hx hf hi hr hl]
    rfl
  | _ => exact nomatch hc

end Sys2Proof.Machine
end

section
/-! PROOFS. The acceptance of TRANSMIT and READ (R103, R105, R106, R108): as one step, in turns of the Foreground (R112), and
with a redispatch between two of its steps (R182, R233). -/

namespace Sys2Proof.Machine

/-! ## As one step or in turns (R112) -/

/-- The command `i`, issued in `s`, is accepted and leaves `t`: in one step with `REDISPATCH = false`; with `REDISPATCH = true` it
enters its acceptance, and turns of the Foreground, no other agent between them, lead to `t`. -/
def Accepts (i : Instr) (s t : State) : Prop :=
  (s.params.redispatch = false → exec i s = .next t) ∧
  (s.params.redispatch = true →
    ∃ (todo : List AcceptStep) (n : Nat), exec i s = .next { s with fg := .accepting i todo, reply := .noReply } ∧
      State.turns n { s with fg := .accepting i todo, reply := .noReply } = t)

theorem accepts_of_accept {s : State} {i : Instr} {k : Nat} {f : ApiFn} {todo : List AcceptStep} {x whole : Inst}
    (hx : s.insts[k]? = some x) (he : exec i s = .next (s.accept i k f todo whole))
    (ht : ∃ n, State.turns n (s.inside i k x todo) = s.complete i k whole (.api f .ok)) :
    Accepts i s (s.complete i k whole (.api f .ok)) := by
  refine ⟨fun hr => ?_, fun hr => ?_⟩
  · rw [he, State.accept, if_neg (by simp [hr])]
  · obtain ⟨n, hn⟩ := ht
    exact ⟨todo, n, by rw [he, State.accept, if_pos hr], by rw [← inside_self hx, hn]⟩

/-- The steps that the command took, and as many turns. -/
theorem Accepts.exec_turns {i : Instr} {s t : State} (h : Accepts i s t) :
    ∃ u n, exec i s = .next u ∧ (s.params.redispatch = false → n = 0) ∧ State.turns n u = t := by
  obtain ⟨hone, hturns⟩ := h
  cases hr : s.params.redispatch with
  | false => exact ⟨t, 0, hone hr, fun _ => rfl, rfl⟩
  | true =>
    obtain ⟨todo, n, he, ht⟩ := hturns hr
    exact ⟨_, n, he, nofun, ht⟩

/-- TRANSMIT past its checks, in a state where READY holds (R103). -/
theorem transmit_accepts {s : State} {k : InstField} {rs : Bool} {len : Byte} {data : List Byte} {x : Inst}
    (hfg : s.fg = .idle) (hx : s.insts[k.toNat]? = some x) (hf : x.fault = none) (hi : x.initd = true)
    (hr : x.ready = true) (hd : data.length = len.toNat) (hl : len.toNat ≤ s.params.txCap) :
    Accepts (.transmit k rs len data) s
      (s.complete (.transmit k rs len data) k.toNat (acceptTransmit s.params rs len data x) (.api .transmit .ok)) :=
  accepts_of_accept hx (exec_transmit_ready hfg hx hf hi hr hd hl)
    (turns_transmit rfl (List.getElem?_eq_some_iff.mp hx).1 rs len data hf)

/-- READ past its checks, in a state where READY holds (R106). -/
theorem read_accepts {s : State} {k : InstField} {rs : Bool} {addr count : Byte} {x : Inst} (hfg : s.fg = .idle)
    (hx : s.insts[k.toNat]? = some x) (hf : x.fault = none) (hi : x.initd = true) (hr : x.ready = true)
    (hl : count.toNat < s.params.rxCap) :
    Accepts (.read k rs addr count) s
      (s.complete (.read k rs addr count) k.toNat (acceptRead s.params rs addr count x) (.api .read .ok)) :=
  accepts_of_accept hx (exec_read_ready hfg hx hf hi hr hl)
    (turns_read rfl (List.getElem?_eq_some_iff.mp hx).1 rs addr count hf hr)

/-- A length that a payload with a first byte has is not 0. -/
theorem ne_zero_of_cons_length {len v : Byte} {vs : List Byte} (h : (v :: vs).length = len.toNat) : len ≠ 0#8 := by
  rintro rfl
  simp at h

/-- Settles O10: the acceptance on the Ready path raises no fault. -/
theorem transmitOnReadyPath : Obligations.TransmitOnReadyPath := by
  unfold Obligations.TransmitOnReadyPath
  intro s k rs len data x hfg hx hf hi hm hd hl
  have h := transmit_accepts (rs := rs) hfg hx hf hi (Inst.ready_iff.mpr (.inl hm)) hd hl
  rw [acceptTransmit_ready hf (by omega) (by rw [hm]; rfl), complete_of_idle _ _ _ hfg (by exact hf)] at h
  exact h

/-- Settles O11: the acceptance on the repeated-start path raises no fault. -/
theorem transmitOnRepeatedStartPath : Obligations.TransmitOnRepeatedStartPath := by
  unfold Obligations.TransmitOnRepeatedStartPath
  intro s k rs len v vs x hfg hx hf hi hm hp hd hl
  have h := transmit_accepts (rs := rs) hfg hx hf hi (Inst.ready_iff.mpr (.inr hm)) hd hl
  rw [acceptTransmit_repeatedStart hf (by omega) (ne_zero_of_cons_length hd) (by rw [hm]; rfl) hp,
    complete_of_idle _ _ _ hfg (by exact hf)] at h
  exact h

/-- Settles O13: the acceptance faults after T5, and the command completes in its fault. -/
theorem emptyTransmitAfterRepeatedStartFaults : Obligations.EmptyTransmitAfterRepeatedStartFaults := by
  unfold Obligations.EmptyTransmitAfterRepeatedStartFaults
  intro s k rs x hfg hx hf hi hm
  have h := transmit_accepts (rs := rs) (len := 0#8) (data := []) hfg hx hf hi (Inst.ready_iff.mpr (.inr hm)) rfl
    (Nat.zero_le _)
  rw [acceptTransmit_empty hf (by rw [hm]; rfl), State.complete_of_fault _ _ _ _ _ .txEmptyAfterRs rfl] at h
  exact h

/-- Settles O18: READ's acceptance is that of a TRANSMIT of its one-byte frame, on the Ready path. -/
theorem readOnReadyPath : Obligations.ReadOnReadyPath := by
  unfold Obligations.ReadOnReadyPath
  intro s k rs addr count x hfg hx hf hi hm hl hc
  have h := read_accepts (rs := rs) (addr := addr) hfg hx hf hi (Inst.ready_iff.mpr (.inl hm)) hl
  rw [acceptRead_eq hf, acceptTransmit_ready (data := [readFrame addr]) (by exact hf) hc (by exact hm ▸ rfl),
    complete_of_idle _ _ _ hfg (by exact hf)] at h
  exact h

/-- Settles O19: READ's acceptance is that of a TRANSMIT of its one-byte frame, on the repeated-start path. -/
theorem readOnRepeatedStartPath : Obligations.ReadOnRepeatedStartPath := by
  unfold Obligations.ReadOnRepeatedStartPath
  intro s k rs addr count x hfg hx hf hi hm hp hl hc
  have h := read_accepts (rs := rs) (addr := addr) hfg hx hf hi (Inst.ready_iff.mpr (.inr hm)) hl
  rw [acceptRead_eq hf, acceptTransmit_repeatedStart (vs := []) (by exact hf) hc (by decide) (by exact hm ▸ rfl) (by exact hp),
    complete_of_idle _ _ _ hfg (by exact hf)] at h
  exact h

/-! ## The two ends of a zero count (R105, R108) -/

/-- An event that is delivered: its bus takes the delivery's writes and the row of its class (R181). -/
theorem exec_event_delivered {c : StatusClass} {k : Nat} {s : State} {x : Inst} (hc : c ≠ .noInfoClass) (raw d : Byte)
    (hx : s.insts[k]? = some x) (hf : x.fault = none) (hen : x.hw.en = true) (hie : x.hw.ie = true)
    (hb : x.hw.busy = true) :
    exec (c.event k raw d) s = .next
      { s with
        insts := s.insts.set k (rowOf c s.params (raw &&& s.params.statusMask)
          (x.enterHandler raw (if c = .mrDataAck ∨ c = .mrDataNack then some d else none)))
        evtReply := .delivered } := by
  have he : x.deliveryEnabled = true := by simp [Inst.deliveryEnabled, hf, hen, hie, hb]
  rw [exec_event hc, event_of_enabled hx he]
  rfl

theorem rowStartSent_of_none_left (p : Params) (st : Byte) {x : Inst} (hc : x.txCur = Reg.of 0) (hl : x.txLen = Reg.of 0) :
    rowStartSent p st x = finish p x :=
  loadOrFinish_finish (by rw [hc]; rfl) (by rw [hl]; rfl) (by rw [hc, hl])

/-- Settles O60: the acceptance leaves both TX_CUR and TX_LEN 0, so that START_SENT finishes (R131). -/
theorem zeroLengthTransmitFinishesAtOnce : Obligations.ZeroLengthTransmitFinishesAtOnce := by
  unfold Obligations.ZeroLengthTransmitFinishesAtOnce
  intro s k rs raw x hfg hx hf hi hm hen hie
  obtain ⟨t, n, he, hn, ht⟩ := Accepts.exec_turns
    (transmitOnReadyPath s k rs 0 [] x hfg hx hf hi hm rfl (Nat.zero_le _))
  obtain ⟨hk, -⟩ := List.getElem?_eq_some_iff.mp hx
  have hget := (congrArg (·.insts[k.toNat]?) ht).trans (List.getElem?_set_self hk)
  have hev := exec_event_delivered (c := .startSent) nofun raw 0 hget hf hen hie rfl
  refine ⟨t, n, _, _, he, hn, hev, by rw [ht]; exact hfg, by rw [ht],
    List.getElem?_set_self (by rw [ht, List.length_set]; exact hk), ?_⟩
  rw [rowOf, rowStartSent_of_none_left _ _ rfl rfl, finish_of_written _ rfl, ht]
  cases rs <;> exact ⟨hf, rfl, rfl, (List.append_cons ..).symm⟩

/-- What MR_SLAR_ACK leaves of an bus that has nothing to receive: NACK_NEXT is outstanding. -/
def Inst.nacking (p : Params) (raw : Byte) (x : Inst) : Inst :=
  { x with
    mode := Reg.of .masterReceiver
    lastStatus := Reg.of p.noInfo
    hw := (x.hw.arrive raw none).launch .nackNext }

theorem rowMrSlarAck_of_none_left (p : Params) (st raw : Byte) {x : Inst} (hl : x.rxLen = Reg.of 0)
    (hc : x.rxCur = Reg.of 0) : rowMrSlarAck p st (x.enterHandler raw none) = x.nacking p raw := by
  rw [rowMrSlarAck, ackDecision_of_written (by simp [hl]) (by simp [hc]), if_neg (by simp [hl, hc, remaining])]
  rfl

theorem rowMrDataNack_of_overrun (p : Params) (st : Byte) {x : Inst} (hc : x.rxCur = Reg.of 0) (hl : x.rxLen = Reg.of 0) :
    rowMrDataNack p st x = x.raise (.rxOverrun 0 0 st) := by
  rw [rowMrDataNack, store_of_overrun (by simp [hc]) (by simp [hl]) (by simp [hl, hc]), Inst.andThen_of_fault rfl, hc, hl]
  rfl

/-- Settles O59: with nothing to receive the ACK decision is NACK_NEXT, and the store of a byte overruns (R133, R134). -/
theorem zeroByteReadFaults : Obligations.ZeroByteReadFaults := by
  unfold Obligations.ZeroByteReadFaults
  intro s k raw raw' d x hx hf hen hie hb hl hc
  obtain ⟨hk, -⟩ := List.getElem?_eq_some_iff.mp hx
  have hack := exec_event_delivered (c := .mrSlarAck) nofun raw 0 hx hf hen hie hb
  rw [rowOf, if_neg (by decide), rowMrSlarAck_of_none_left _ _ raw hl hc] at hack
  have hnack := exec_event_delivered (c := .mrDataNack) (x := x.nacking s.params raw) nofun raw' d
    (s := { s with insts := s.insts.set k (x.nacking s.params raw), evtReply := .delivered })
    (List.getElem?_set_self hk) hf hen hie rfl
  rw [rowOf, rowMrDataNack_of_overrun _ _ (by exact hc) (by exact hl)] at hnack
  exact ⟨_, _, _, _, hack, hnack, List.getElem?_set_self hk, rfl,
    List.getElem?_set_self (by rw [List.length_set]; exact hk), rfl, rfl, fun _ => rfl⟩

end Sys2Proof.Machine
end

section
/-! PROOFS. A redispatch between two steps of an acceptance on the repeated-start path (R112, R182, R233). -/

namespace Sys2Proof.Machine

/-! ## Turns inside an acceptance, wherever the rest of the system is -/

/-- Inside an acceptance, `n` turns lead from the bus `x` with the steps `todo` to `y` with `todo'`, whatever the command, the
other buses and the ports are. -/
def Reaches (p : Params) (x : Inst) (todo : List AcceptStep) (n : Nat) (y : Inst) (todo' : List AcceptStep) : Prop :=
  ∀ (s : State) (i : Instr) (k : Nat) (f : ApiFn), s.params = p → callOf i = some (k, f) → k < s.insts.length →
    State.turns n (s.inside i k x todo) = s.inside i k y todo'

theorem Reaches.refl (p : Params) (x : Inst) (todo : List AcceptStep) : Reaches p x todo 0 x todo :=
  fun _ _ _ _ _ _ _ => rfl

theorem Reaches.trans {p : Params} {x y z : Inst} {a b c : List AcceptStep} {m n : Nat} (h : Reaches p x a m y b)
    (h' : Reaches p y b n z c) : Reaches p x a (m + n) z c := by
  intro s i k f hp hc hk
  rw [turns_add, h s i k f hp hc hk, h' s i k f hp hc hk]

/-- Turns are deterministic: what the first of them lead to goes on to the end. -/
theorem Reaches.rest {p : Params} {x y z : Inst} {a b c : List AcceptStep} {m n : Nat} (h : Reaches p x a (m + n) z c)
    (h' : Reaches p x a m y b) : Reaches p y b n z c := by
  intro s i k f hp hc hk
  rw [← h' s i k f hp hc hk, ← turns_add, h s i k f hp hc hk]

theorem Reaches.one {p : Params} {x : Inst} {a : AcceptStep} {todo : List AcceptStep} (hf : x.fault = none)
    (hw : a = .wait → x.ready = true) (ha : (a.apply p x).fault = none) :
    Reaches p x (a :: todo) 1 (a.apply p x) (a.after x todo) := by
  rintro s i k f rfl hc hk
  exact turn_inside hc hk hf hw ha

/-- Plain steps that raise no fault take as many turns as they are. -/
theorem Reaches.run {p : Params} {x : Inst} {as : List AcceptStep} (rest : List AcceptStep) (hf : x.fault = none)
    (hp : as.all AcceptStep.plain = true) (hr : (runSteps p as x).fault = none) :
    Reaches p x (as ++ rest) as.length (runSteps p as x) rest := by
  rintro s i k f rfl hc hk
  obtain ⟨n, hn, h⟩ := turns_plain hc hk as rest x hf hp
  rw [hr] at h
  rwa [hn hr] at h

/-! ## A redispatch inside an acceptance (R182) -/

/-- The bus holds a REP_START_SENT that has not been answered: a redispatch of it is enabled. -/
structure Inst.Holds (p : Params) (x : Inst) : Prop where
  noFault : x.fault = none
  en : x.hw.en = true
  ie : x.hw.ie = true
  busy : x.hw.busy = false
  pend : x.hw.pend = true
  written : x.hw.status.written = true
  status : x.hw.status.val &&& p.statusMask = p.codes.repStartSent

theorem Inst.Holds.of_hw {p : Params} {x y : Inst} (h : x.Holds p) (hf : y.fault = none) (hh : y.hw = x.hw) : y.Holds p :=
  ⟨hf, hh ▸ h.en, hh ▸ h.ie, hh ▸ h.busy, hh ▸ h.pend, hh ▸ h.written, hh ▸ h.status⟩

/-- The redispatch of a held REP_START_SENT writes `MODE` alone (R137, R182). -/
theorem dispatch_of_holds {p : Params} {x : Inst} (hp : p.wf = true) (h : x.Holds p) :
    dispatch p x = x.setMode .repeatedStartSent := by
  have hc : classify p.codes (x.hw.status.val &&& p.statusMask) = .repStartSent := by
    rw [h.status]
    exact classify_of_mem (Params.codes_nodup hp) (by simp [Codes.table])
  rw [dispatch, Inst.readStatus, Reg.read_of_written h.written, hc]
  rfl

theorem redispatch_inside {s : State} {k : Nat} {x : Inst} (i : Instr) (todo : List AcceptStep)
    (hp : s.params.wf = true) (hr : s.params.redispatch = true) (hk : k < s.insts.length) (h : x.Holds s.params) :
    (s.inside i k x todo).redispatch k =
      ({ s with evtReply := .delivered } : State).inside i k (x.setMode .repeatedStartSent) todo := by
  have hx : (s.inside i k x todo).insts[k]? = some x := List.getElem?_set_self hk
  have he : x.redispatchEnabled s.params = true := by
    simp [Inst.redispatchEnabled, hr, h.noFault, h.en, h.ie, h.pend, h.busy]
  rw [State.redispatch, hx]
  simp only [State.inside, he, if_true, dispatch_of_holds hp h, State.setInst, State.answerEvt, List.set_set]

/-- What waits at the ports has no part in a redispatch. -/
theorem redispatch_inbox (s : State) (k : Nat) (l : List Msg) :
    ({ s with inbox := l } : State).redispatch k = { s.redispatch k with inbox := l } := by
  unfold State.redispatch
  cases s.insts[k]? with
  | none => rfl
  | some x =>
    dsimp only
    split <;> rfl

theorem steps_succ {s t : State} (n : Nat) (h : step s = .next t) : steps (n + 1) s = steps n t := by
  rw [steps, h]

/-- Turns, a redispatch and more turns at the ports run in that order. -/
theorem steps_race (s : State) (k j m : Nat) :
    steps (j + (m + 1))
        { s with inbox := List.replicate j .turn ++ .redispatch k :: List.replicate m .turn } =
      .next { State.turns m ((State.turns j s).redispatch k) with inbox := [] } := by
  have hred : step { State.turns j s with inbox := .redispatch k :: List.replicate m .turn } =
      .next { (State.turns j s).redispatch k with inbox := List.replicate m .turn } := by
    rw [step_takes_first rfl (.inr rfl), ← redispatch_inbox]
    rfl
  rw [steps_add j (m + 1) _ _ (steps_turns _ j _ rfl), turns_inbox, steps_succ m hred,
    steps_turns [] m _ (by simp), turns_inbox]

/-! ## The race (R233) -/

/-- From the bus `x` with the steps `todo`, `j` turns, a redispatch of the held REP_START_SENT, and `m` turns more take all
the steps and leave `z`. -/
def Races (p : Params) (x : Inst) (todo : List AcceptStep) (j m : Nat) (z : Inst) : Prop :=
  ∃ y todo', Reaches p x todo j y todo' ∧ y.Holds p ∧ Reaches p (y.setMode .repeatedStartSent) todo' m z []

theorem Races.after {p : Params} {w x z : Inst} {a b : List AcceptStep} {n j m : Nat} (h : Races p x b j m z)
    (h' : Reaches p w a n x b) : Races p w a (n + j) m z := by
  obtain ⟨y, c, hy, hh, hz⟩ := h
  exact ⟨y, c, h'.trans hy, hh, hz⟩

/-- While `MODE` is `RepeatedStartSent` anyway, the redispatch changes nothing of the bus. -/
theorem Races.of_mode {p : Params} {x y z : Inst} {a b : List AcceptStep} {j m : Nat} (h : Reaches p x a (j + m) z [])
    (hy : Reaches p x a j y b) (hh : y.Holds p) (hm : y.mode = Reg.of .repeatedStartSent) : Races p x a j m z := by
  have he : y.setMode .repeatedStartSent = y := by rw [Inst.setMode, ← hm]
  exact ⟨y, b, hy, hh, by rw [he]; exact h.rest hy⟩

/-- The whole of it at the ports, the last turn being the return. -/
theorem Races.steps {s : State} {i : Instr} {k : Nat} {f : ApiFn} {x z : Inst} {todo : List AcceptStep} {j m : Nat}
    (h : Races s.params x todo j m z) (hp : s.params.wf = true) (hr : s.params.redispatch = true)
    (hc : callOf i = some (k, f)) (hk : k < s.insts.length) (hz : z.fault = none) :
    Machine.steps (j + (m + 1 + 1))
        { s.inside i k x todo with
          inbox := List.replicate j .turn ++ .redispatch k :: List.replicate (m + 1) .turn } =
      .next
        { s with
          insts := s.insts.set k z
          fg := .idle
          reply := .api f .ok
          evtReply := .delivered
          inbox := [] } := by
  obtain ⟨y, todo', hy, hh, hrest⟩ := h
  rw [steps_race, hy s i k f rfl hc hk, redispatch_inside i todo' hp hr hk hh, turns_add,
    hrest { s with evtReply := .delivered } i k f rfl hc hk, State.turns, State.turns,
    turn_inside_nil (s := { s with evtReply := .delivered }) hc hk hz, State.complete_of_no_fault _ _ _ _ _ hz]

/-! ## TRANSMIT on the repeated-start path, step by step (R103) -/

/-- T6 up to the CONTINUE. -/
def sendSteps (len : Byte) : List AcceptStep := [.notEmpty len, .modeInitializing, .loadFirst, .firstSent]

/-- T6 on the repeated-start path. -/
def repeatedStartSteps (len : Byte) : List AcceptStep := sendSteps len ++ [.continueTx]

theorem launchSteps_of_repeatedStart {len : Byte} {x : Inst} (h : x.mode = Reg.of .repeatedStartSent) :
    launchSteps len x = repeatedStartSteps len := by
  rw [launchSteps, h]
  rfl

/-- What a TRANSMIT on the repeated-start path leaves, but for its `MODE` (R103). -/
def Inst.sentFirst (x : Inst) (m : Mode) (rs : Bool) (len v : Byte) (vs : List Byte) : Inst :=
  { x with
    mode := Reg.of m
    repStart := Reg.of rs
    txBuf := Memory.writeFrom x.txBuf 0 (v :: vs)
    txCur := Reg.of 1
    txLen := Reg.of len
    hw := { x.hw with data := Reg.of v, pend := false, busy := true, trace := x.hw.trace ++ [.cont v] } }

theorem writeData_setMode (v : Byte) (m : Mode) (x : Inst) : (x.setMode m).writeData v = (x.writeData v).setMode m := by
  unfold Inst.writeData
  by_cases h : x.hw.pend = true
  · rw [if_pos h, if_pos (by exact h)]
    rfl
  · rw [if_neg h, if_neg (by exact h)]
    rfl

theorem continueTx_setMode (m : Mode) (x : Inst) : (x.setMode m).continueTx = x.continueTx.setMode m := by
  unfold Inst.continueTx Reg.read
  by_cases h : x.hw.data.written = true
  · rw [if_pos h, if_pos (by exact h)]
    rfl
  · rw [if_neg h, if_neg (by exact h)]
    rfl

/-- Every step but `MODE <- Initializing` does the same whatever `MODE` is. -/
theorem apply_setMode {p : Params} {a : AcceptStep} (ha : a ≠ .modeInitializing) (m : Mode) (x : Inst) :
    a.apply p (x.setMode m) = (a.apply p x).setMode m := by
  cases a with
  | modeInitializing => exact absurd rfl ha
  | copy i v =>
    simp only [AcceptStep.apply, Inst.storeTx]
    split <;> rfl
  | notEmpty len =>
    simp only [AcceptStep.apply]
    split <;> rfl
  | loadFirst =>
    simp only [AcceptStep.apply, Memory.load, Inst.setMode_txBuf, writeData_setMode]
    (repeat' split) <;> rfl
  | continueTx => exact continueTx_setMode m x
  | rxStart count => rfl
  | wait => rfl
  | repStart rs => rfl
  | txStart len => rfl
  | path len => rfl
  | firstSent => rfl
  | issueStart => rfl

theorem runSteps_setMode {p : Params} {as : List AcceptStep} (m : Mode) :
    ∀ x : Inst, (∀ a ∈ as, a ≠ .modeInitializing) → runSteps p as (x.setMode m) = (runSteps p as x).setMode m := by
  induction as with
  | nil => intro x _; rfl
  | cons a as ih =>
    intro x h
    have ha := apply_setMode (p := p) (h a List.mem_cons_self) m x
    simp only [runSteps, ha]
    cases hf : (a.apply p x).fault with
    | none =>
      rw [Inst.andThen_of_no_fault (by exact hf), Inst.andThen_of_no_fault hf]
      exact ih _ fun b hb => h b (List.mem_cons_of_mem _ hb)
    | some c => rw [Inst.andThen_of_fault (c := c) (by exact hf), Inst.andThen_of_fault hf]

/-- Where T3 to T5 have led, `j` of them taken: `MODE` and `HW` are as they were. -/
theorem runSteps_acceptSteps_take {p : Params} {rs : Bool} {len : Byte} {data : List Byte} {x : Inst} (j : Nat)
    (hf : x.fault = none) (hlen : data.length ≤ p.txCap) :
    (runSteps p ((acceptSteps rs len data).take j) x).fault = none ∧
      (runSteps p ((acceptSteps rs len data).take j) x).mode = x.mode ∧
      (runSteps p ((acceptSteps rs len data).take j) x).hw = x.hw := by
  refine runSteps_keeps (P := fun y => y.fault = none ∧ y.mode = x.mode ∧ y.hw = x.hw) _ x (fun a ha y hy => ?_)
    ⟨hf, rfl, rfl⟩
  rcases acceptSteps_mem (List.mem_of_mem_take ha) with rfl | ⟨n, v, hn, rfl⟩ | rfl
  · exact hy
  · rw [AcceptStep.apply, Inst.storeTx_of_lt _ _ (by omega)]
    exact hy
  · exact hy

/-- The first byte stands in TX_BUF, and the wait condition that WRITE_DATA asks for holds (R176). -/
structure Inst.CanSend (p : Params) (v : Byte) (x : Inst) : Prop where
  holds : x.Holds p
  first : Memory.read x.txBuf 0 = some v

/-- T6 up to the CONTINUE raises no fault, and keeps the event held (R103, R176). -/
theorem Inst.CanSend.apply {p : Params} {len v : Byte} {x : Inst} {a : AcceptStep} (hl : len ≠ 0#8) (hc : 0 < p.txCap)
    (ha : a ∈ sendSteps len) (h : x.CanSend p v) : (a.apply p x).CanSend p v := by
  obtain ⟨hh, hv⟩ := h
  simp only [sendSteps, List.mem_cons, List.not_mem_nil, or_false] at ha
  rcases ha with rfl | rfl | rfl | rfl
  · rw [AcceptStep.apply, if_neg hl]
    exact ⟨hh, hv⟩
  · exact ⟨hh.of_hw hh.noFault rfl, hv⟩
  · rw [AcceptStep.apply, Memory.load_of_read hc hv, Inst.writeData_of_pend v hh.pend]
    exact ⟨⟨hh.noFault, hh.en, hh.ie, hh.busy, hh.pend, hh.written, hh.status⟩, hv⟩
  · exact ⟨hh.of_hw hh.noFault rfl, hv⟩

/-- The redispatch between the steps `as` and `bs`, of which none of `bs` writes `MODE`: its `MODE` stays. -/
theorem races_of_split {p : Params} {x : Inst} {as bs : List AcceptStep} (hf : x.fault = none)
    (has : as.all AcceptStep.plain = true) (hbs : bs.all AcceptStep.plain = true) (hh : (runSteps p as x).Holds p)
    (hm : ∀ b ∈ bs, b ≠ .modeInitializing) (hz : (runSteps p (as ++ bs) x).fault = none) :
    Races p x (as ++ bs) as.length bs.length ((runSteps p (as ++ bs) x).setMode .repeatedStartSent) := by
  have hrun : runSteps p (as ++ bs) x = runSteps p bs (runSteps p as x) := by
    rw [runSteps_append as bs hf, Inst.andThen_of_no_fault hh.noFault]
  rw [hrun] at hz ⊢
  have hb := runSteps_setMode (p := p) .repeatedStartSent (runSteps p as x) hm
  have hrest := Reaches.run (p := p) (x := (runSteps p as x).setMode .repeatedStartSent) [] hh.noFault hbs (hb ▸ hz)
  rw [List.append_nil, hb] at hrest
  exact ⟨_, bs, .run bs hf has hh.noFault, hh, hrest⟩

section Transmit
variable {p : Params} {rs : Bool} {len v : Byte} {vs : List Byte} {x : Inst}

/-- What T3 to T5 leave (R103). -/
def Inst.loaded (x : Inst) (rs : Bool) (len v : Byte) (vs : List Byte) : Inst :=
  { x with
    repStart := Reg.of rs
    txBuf := Memory.writeFrom x.txBuf 0 (v :: vs)
    txCur := Reg.of 0
    txLen := Reg.of len }

theorem loaded_canSend (hh : x.Holds p) : (x.loaded rs len v vs).CanSend p v := by
  refine ⟨hh.of_hw hh.noFault rfl, ?_⟩
  rw [Inst.loaded, Memory.read_writeFrom]
  simp

/-- T3 to T5 and the test of `MODE` take `length + 3` turns. -/
theorem reaches_loaded (hf : x.fault = none) (hm : x.mode = Reg.of .repeatedStartSent) (hd : (v :: vs).length = len.toNat)
    (hl : len.toNat ≤ p.txCap) :
    Reaches p x (transmitSteps rs len (v :: vs)) (len.toNat + 3) (x.loaded rs len v vs)
      (repeatedStartSteps len) := by
  have hrun : runSteps p (acceptSteps rs len (v :: vs)) x = x.loaded rs len v vs :=
    runSteps_accept rs len (v :: vs) hf (by omega)
  have h := (Reaches.run [.path len] hf (acceptSteps_plain rs len (v :: vs)) (by rw [hrun]; exact hf)).trans
    (.one (by rw [hrun]; exact hf) nofun (by rw [hrun]; exact hf))
  rwa [acceptSteps_length, hd, hrun, AcceptStep.apply, AcceptStep.after,
    launchSteps_of_repeatedStart (x := x.loaded rs len v vs) hm, List.append_nil] at h

/-- T6 on the repeated-start path (R103). -/
theorem runSteps_send (hh : x.Holds p) (hm : x.mode = Reg.of .repeatedStartSent) (hd : (v :: vs).length = len.toNat)
    (hl : len.toNat ≤ p.txCap) :
    runSteps p (repeatedStartSteps len) (x.loaded rs len v vs) = x.sentFirst .initializing rs len v vs := by
  have h := acceptTransmit_eq (p := p) rs len (v :: vs) hh.noFault (by omega)
  rw [acceptTransmit_repeatedStart hh.noFault (by omega) (ne_zero_of_cons_length hd) (by rw [hm]; rfl) hh.pend,
    launchSteps_of_repeatedStart hm] at h
  exact h.symm

theorem repeatedStartSteps_plain (len : Byte) : (repeatedStartSteps len).all AcceptStep.plain = true := rfl

/-- T3 to T6 take `length + 8` turns. -/
theorem reaches_sent (hh : x.Holds p) (hm : x.mode = Reg.of .repeatedStartSent) (hd : (v :: vs).length = len.toNat)
    (hl : len.toNat ≤ p.txCap) :
    Reaches p x (transmitSteps rs len (v :: vs)) (len.toNat + 8) (x.sentFirst .initializing rs len v vs) [] := by
  have hrun := runSteps_send (rs := rs) hh hm hd hl
  have hrest := Reaches.run (p := p) (x := x.loaded rs len v vs) [] hh.noFault (repeatedStartSteps_plain len)
    (by rw [hrun]; exact hh.noFault)
  rw [List.append_nil, hrun] at hrest
  exact (reaches_loaded hh.noFault hm hd hl).trans hrest

/-- The first `j` steps of T6, short of the CONTINUE. -/
theorem runSteps_send_take (hh : x.Holds p) (hd : (v :: vs).length = len.toNat) (hl : len.toNat ≤ p.txCap) (j : Nat) :
    (runSteps p ((sendSteps len).take j) (x.loaded rs len v vs)).CanSend p v := by
  have hpos : 0 < p.txCap := by simp only [List.length_cons] at hd; omega
  exact runSteps_keeps _ _ (fun a ha _ hy => hy.apply (ne_zero_of_cons_length hd) hpos (List.mem_of_mem_take ha))
    (loaded_canSend hh)

/-- The redispatch ahead of `MODE <- Initializing`. -/
theorem races_before_mode {j m : Nat} (hh : x.Holds p) (hm : x.mode = Reg.of .repeatedStartSent)
    (hd : (v :: vs).length = len.toNat) (hl : len.toNat ≤ p.txCap) (hj : j < len.toNat + 5) (hjm : j + m = len.toNat + 8) :
    Races p x (transmitSteps rs len (v :: vs)) j m (x.sentFirst .initializing rs len v vs) := by
  have hall := reaches_sent (rs := rs) hh hm hd hl
  rw [← hjm] at hall
  by_cases hA : j < len.toNat + 3
  · obtain ⟨hf', hm', hw'⟩ := runSteps_acceptSteps_take (rs := rs) (len := len) (data := v :: vs) j hh.noFault
      (show _ ≤ p.txCap by omega)
    have hlen : ((acceptSteps rs len (v :: vs)).take j).length = j := by
      rw [List.length_take, acceptSteps_length]
      omega
    have hto := Reaches.run ((acceptSteps rs len (v :: vs)).drop j ++ [.path len]) hh.noFault
      (List.all_eq_true.mpr fun a ha =>
        List.all_eq_true.mp (acceptSteps_plain rs len (v :: vs)) a (List.mem_of_mem_take ha)) hf'
    rw [hlen, ← List.append_assoc, List.take_append_drop] at hto
    exact .of_mode hall hto (hh.of_hw hf' hw') (hm'.trans hm)
  · have hto := reaches_loaded (rs := rs) hh.noFault hm hd hl
    obtain rfl | rfl : j = len.toNat + 3 ∨ j = len.toNat + 3 + 1 := by omega
    · exact .of_mode hall hto (loaded_canSend hh).holds hm
    · have hn : AcceptStep.apply p (.notEmpty len) (x.loaded rs len v vs) = x.loaded rs len v vs :=
        if_neg (ne_zero_of_cons_length hd)
      have h1 := Reaches.one (p := p) (a := .notEmpty len) (x := x.loaded rs len v vs)
        (todo := [.modeInitializing, .loadFirst, .firstSent, .continueTx]) hh.noFault nofun (by rw [hn]; exact hh.noFault)
      rw [hn] at h1
      exact .of_mode hall (hto.trans h1) (loaded_canSend hh).holds hm

/-- The redispatch between `MODE <- Initializing` and the CONTINUE. -/
theorem races_after_mode {j m : Nat} (hh : x.Holds p) (hm : x.mode = Reg.of .repeatedStartSent)
    (hd : (v :: vs).length = len.toNat) (hl : len.toNat ≤ p.txCap) (hjm : j + m = 3) (hm0 : 0 < m) :
    Races p x (transmitSteps rs len (v :: vs)) (len.toNat + 3 + (j + 2)) m
      (x.sentFirst .repeatedStartSent rs len v vs) := by
  have hrun := runSteps_send (rs := rs) hh hm hd hl
  have hsplit : (sendSteps len).take (j + 2) ++ ([.loadFirst, .firstSent, .continueTx] : List AcceptStep).drop j =
      repeatedStartSteps len := by
    obtain rfl | rfl | rfl : j = 0 ∨ j = 1 ∨ j = 2 := by omega
    all_goals rfl
  have h := races_of_split (p := p) (x := x.loaded rs len v vs) (as := (sendSteps len).take (j + 2))
    (bs := ([.loadFirst, .firstSent, .continueTx] : List AcceptStep).drop j) hh.noFault
    (List.all_eq_true.mpr fun a ha => List.all_eq_true.mp (repeatedStartSteps_plain len) a
      (List.mem_append_left _ (List.mem_of_mem_take ha)))
    (List.all_eq_true.mpr fun a ha => List.all_eq_true.mp (by rfl) a (List.mem_of_mem_drop ha))
    (runSteps_send_take hh hd hl _).holds
    (fun b hb => by
      have := List.mem_of_mem_drop hb
      rintro rfl
      simp at this)
    (by rw [hsplit, hrun]; exact hh.noFault)
  have hlen : ((sendSteps len).take (j + 2)).length = j + 2 := by
    rw [List.length_take]
    simp only [sendSteps, List.length_cons, List.length_nil]
    omega
  have hlen' : (([.loadFirst, .firstSent, .continueTx] : List AcceptStep).drop j).length = m := by
    rw [List.length_drop]
    simp only [List.length_cons, List.length_nil]
    omega
  rw [hlen, hlen', hsplit, hrun] at h
  exact h.after (reaches_loaded hh.noFault hm hd hl)

/-- T3 to T6 with the redispatch at any place before the CONTINUE: its `MODE` stays where `MODE <- Initializing` has been taken. -/
theorem races_transmit {j m : Nat} (hh : x.Holds p) (hm : x.mode = Reg.of .repeatedStartSent)
    (hd : (v :: vs).length = len.toNat) (hl : len.toNat ≤ p.txCap) (hj : j < len.toNat + 8) (hjm : j + m = len.toNat + 8) :
    Races p x (transmitSteps rs len (v :: vs)) j m
      (x.sentFirst (if j < len.toNat + 5 then .initializing else .repeatedStartSent) rs len v vs) := by
  split
  · rename_i hlt
    exact races_before_mode hh hm hd hl hlt hjm
  · obtain ⟨j', rfl⟩ : ∃ j', j = len.toNat + 3 + (j' + 2) := ⟨j - (len.toNat + 5), by omega⟩
    exact races_after_mode hh hm hd hl (by omega) (by omega)

end Transmit

/-! ## READ on the repeated-start path, step by step (R106) -/

/-- What Q3 leaves (R106). -/
def Inst.readStarted (x : Inst) (count : Byte) : Inst := { x with rxCur := Reg.of 0, rxLen := Reg.of count }

/-- Q3 to Q5 with the redispatch at any place before the CONTINUE. -/
theorem races_read {p : Params} {rs : Bool} {addr count : Byte} {x : Inst} {j m : Nat} (hh : x.Holds p)
    (hm : x.mode = Reg.of .repeatedStartSent) (hc : 1 ≤ p.txCap) (hj : j < 11) (hjm : j + m = 11) :
    Races p x (readSteps rs addr count) j m
      ((x.readStarted count).sentFirst
        (if j < 8 then .initializing else .repeatedStartSent) rs 1 (readFrame addr) []) := by
  have hy : (x.readStarted count).Holds p := hh.of_hw hh.noFault rfl
  have h1 : Reaches p x (readSteps rs addr count) 1 (x.readStarted count) (.wait :: transmitSteps rs 1 [readFrame addr]) :=
    .one hh.noFault nofun hh.noFault
  have h2 : Reaches p (x.readStarted count) (.wait :: transmitSteps rs 1 [readFrame addr]) 1 (x.readStarted count)
      (transmitSteps rs 1 [readFrame addr]) :=
    .one hh.noFault (fun _ => Inst.ready_iff.mpr (.inr hm)) hh.noFault
  by_cases hlt : j < 2
  · have hall := (h1.trans h2).trans (reaches_sent (rs := rs) (len := 1) (v := readFrame addr) (vs := []) hy hm rfl hc)
    rw [if_pos (by omega)]
    obtain rfl | rfl : j = 0 ∨ j = 1 := by omega
    · obtain rfl : m = 11 := by omega
      exact .of_mode hall (.refl p x _) hh hm
    · obtain rfl : m = 10 := by omega
      exact .of_mode hall h1 hy hm
  · obtain ⟨j', rfl⟩ : ∃ j', j = 2 + j' := ⟨j - 2, by omega⟩
    have h := (races_transmit (rs := rs) (len := 1) (v := readFrame addr) (vs := []) (j := j') (m := m) hy hm rfl hc
      (show j' < 9 by omega) (show j' + m = 9 by omega)).after (h1.trans h2)
    have hiff : 2 + j' < 8 ↔ j' < (1 : Byte).toNat + 5 := by
      rw [show (1 : Byte).toNat = 1 from rfl]
      omega
    simpa only [hiff] using h

/-! ## The race at the ports (R233) -/

/-- A command that enters its acceptance, its turns and the redispatch, in the order in which they stand at the ports. -/
theorem steps_command_race {s : State} {w : CmdWord} {payload : List Byte} {i : Instr} {k : Nat} {f : ApiFn} {x z : Inst}
    {todo : List AcceptStep} {j m : Nat} (hfg : s.fg = .idle) (hx : s.insts[k]? = some x) (hp : s.params.wf = true)
    (hr : s.params.redispatch = true) (hc : callOf i = some (k, f)) (hw : decode s.params (.cmd w payload) = .ok i)
    (he : ∀ l, exec i { s with inbox := l } = .next { s with fg := .accepting i todo, reply := .noReply, inbox := l })
    (h : Races s.params x todo j m z) (hz : z.fault = none) :
    steps (j + (m + 1 + 1) + 1)
        { s with
          inbox := .cmd w payload :: (List.replicate j .turn ++ .redispatch k :: List.replicate (m + 1) .turn) } =
      .next
        { s with
          insts := s.insts.set k z
          reply := .api f .ok
          evtReply := .delivered
          inbox := [] } := by
  obtain ⟨hk, -⟩ := List.getElem?_eq_some_iff.mp hx
  have hrace := h.steps hp hr hc hk hz
  rw [inside_self hx] at hrace
  have hstep := fun l =>
    ((stepRunsDecodedInstruction { s with inbox := .cmd w payload :: l } _ l rfl (.inl hfg)).1 i hw).trans (he l)
  rw [steps_succ _ (hstep _), hrace, ← hfg]

/-- Settles O12: the places of the redispatch in each acceptance, with the command's own step before. -/
theorem redispatchRaceIsAdmitted : Obligations.RedispatchRaceIsAdmitted := by
  unfold Obligations.RedispatchRaceIsAdmitted
  intro s k rs x hp hr hfg hx hf hi hm hen hie hb hpend hsw hst
  have hh : x.Holds s.params := ⟨hf, hen, hie, hb, hpend, hsw, hst⟩
  have hready : x.ready = true := Inst.ready_iff.mpr (.inr hm)
  refine ⟨fun w len v vs j hw hd hl hj => ?_, fun w addr count j hw hl hj => ?_⟩
  · obtain ⟨m, hjm⟩ : ∃ m, j + m = len.toNat + 8 := ⟨len.toNat + 8 - j, by omega⟩
    have h := steps_command_race hfg hx hp hr rfl hw (fun l => by
      rw [exec_transmit_ready (s := { s with inbox := l }) hfg hx hf hi hready hd hl, State.acceptTransmit, State.accept,
        if_pos hr]) (races_transmit hh hm hd hl hj hjm) hf
    rw [show j + (m + 1 + 1) + 1 = len.toNat + 11 by omega, show m + 1 = len.toNat + 9 - j by omega] at h
    exact h
  · obtain ⟨m, hjm⟩ : ∃ m, j + m = 11 := ⟨11 - j, by omega⟩
    have hc : 1 ≤ s.params.txCap := by
      simp only [Params.wf, Bool.and_eq_true, decide_eq_true_eq] at hp
      omega
    have h := steps_command_race hfg hx hp hr rfl hw (fun l => by
      rw [exec_read_ready (s := { s with inbox := l }) hfg hx hf hi hready hl, State.acceptRead, State.accept,
        if_pos hr]) (races_read hh hm hc hj hjm) hf
    rw [show j + (m + 1 + 1) + 1 = 14 by omega, show m + 1 = 12 - j by omega] at h
    exact h

end Sys2Proof.Machine
end

section
/-! PROOFS. Every row of the Dispatcher as one equation on the delivered event (R131-R149, R181). -/

namespace Sys2Proof.Machine

/-! ## How a row ends -/

/-- The end of a phase with the status `st`: `Ready` and STOP, or, with REP_START, START and the mode kept (R132, R135). -/
def Inst.ended (st : Byte) (x : Inst) : Inst :=
  { x with
    mode := if x.repStart.val then x.mode else Reg.of .ready
    lastStatus := Reg.of st
    hw :=
      { x.hw with
        pend := false
        busy := x.repStart.val
        trace := x.hw.trace ++ [if x.repStart.val then .start else .stop] } }

theorem finish_eq_ended (p : Params) {x : Inst} (h : x.repStart.written = true) : finish p x = x.ended p.success := by
  rw [finish_of_written p h, Inst.ended]
  cases x.repStart.val <;> rfl

theorem errorChain_eq_ended (st : Byte) {x : Inst} (h : x.repStart.written = true) : errorChain st x = x.ended st := by
  rw [errorChain_of_written h, Inst.ended]
  cases x.repStart.val <;> rfl

/-- `load_or_finish()` when every byte is sent (R131, R132). -/
theorem loadOrFinish_eq_ended {p : Params} {x : Inst} (hc : x.txCur.written = true) (hl : x.txLen.written = true)
    (hge : x.txLen.val.toNat ≤ x.txCur.val.toNat) (hr : x.repStart.written = true) :
    loadOrFinish p x = x.ended p.success :=
  (loadOrFinish_finish hc hl hge).trans (finish_eq_ended p hr)

theorem one_lt_remaining_iff (len cur : Byte) : 1 < remaining len cur ↔ cur.toNat + 1 < len.toNat := by
  unfold remaining
  omega

/-- `ack_decision()` on the bytes that remain after the next one, on natural numbers (R133). -/
theorem ackDecision_eq (p : Params) {x : Inst} (hl : x.rxLen.written = true) (hc : x.rxCur.written = true) :
    ackDecision p x =
      { x with
        lastStatus := Reg.of p.noInfo
        hw := x.hw.launch (if x.rxCur.val.toNat + 1 < x.rxLen.val.toNat then .ackNext else .nackNext) } := by
  rw [ackDecision_of_written hl hc]
  simp only [one_lt_remaining_iff]
  split <;> rfl

/-- `ack_decision()` before any READ: its write stays (R133, R195). -/
theorem ackDecision_of_unwritten (p : Params) {x : Inst} (hl : x.rxLen.written = false) :
    ackDecision p x = (x.setLastStatus p.noInfo).raise (.unwrittenRead .rxLen) :=
  Reg.read_of_unwritten hl

/-- `store()` with room inside the capacity leaves no fault, so what follows it runs (R134, R145, R146). -/
theorem store_andThen {p : Params} (st : Byte) {x : Inst} (f : Inst → Inst) (hf : x.fault = none)
    (hc : x.rxCur.written = true) (hl : x.rxLen.written = true) (hd : x.hw.data.written = true)
    (hlt : x.rxCur.val.toNat < x.rxLen.val.toNat) (hcap : x.rxLen.val.toNat < p.rxCap) :
    (store p st x).andThen f =
      f { x with
        rxBuf := Memory.write x.rxBuf x.rxCur.val.toNat x.hw.data.val
        rxCur := Reg.of (x.rxCur.val + 1) } := by
  rw [store_of_room hf hc hl hd hlt (hlt.trans hcap)]
  exact Inst.andThen_of_no_fault hf

/-- MR_DATA_ACK with room: the ACK decision reads the cursor that the store has advanced (R145). -/
theorem rowMrDataAck_of_room {p : Params} (st : Byte) {x : Inst} (hf : x.fault = none)
    (hc : x.rxCur.written = true) (hl : x.rxLen.written = true) (hd : x.hw.data.written = true)
    (hlt : x.rxCur.val.toNat < x.rxLen.val.toNat) (hcap : x.rxLen.val.toNat < p.rxCap) :
    rowMrDataAck p st x =
      { x with
        lastStatus := Reg.of p.noInfo
        rxBuf := Memory.write x.rxBuf x.rxCur.val.toNat x.hw.data.val
        rxCur := Reg.of (x.rxCur.val + 1)
        hw := x.hw.launch (if x.rxCur.val.toNat + 2 < x.rxLen.val.toNat then .ackNext else .nackNext) } := by
  rw [rowMrDataAck, store_andThen st _ hf hc hl hd hlt hcap, ackDecision_eq p (by exact hl) rfl]
  simp only [Reg.of_val, toNat_succ hlt, Nat.add_assoc, Nat.reduceAdd]

/-! ## The statements on the rows -/

/-- A delivered event whose row makes `y` of the bus (R181). -/
theorem exec_event_of_row {c : StatusClass} {k : Nat} {s : State} {x y : Inst} (hc : c ≠ .noInfoClass) (raw d : Byte)
    (hx : s.insts[k]? = some x) (hf : x.fault = none) (hen : x.hw.en = true) (hie : x.hw.ie = true)
    (hb : x.hw.busy = true)
    (hrow : rowOf c s.params (raw &&& s.params.statusMask)
      (x.enterHandler raw (if c = .mrDataAck ∨ c = .mrDataNack then some d else none)) = y) :
    exec (c.event k raw d) s = .next { s with insts := s.insts.set k y, evtReply := .delivered } :=
  hrow ▸ exec_event_delivered hc raw d hx hf hen hie hb

/-- Settles O26: the three rows are `load_or_finish()`, after the mode that MT_SLAW_ACK writes. -/
theorem transmitEventsSendNextByte : Obligations.TransmitEventsSendNextByte := by
  unfold Obligations.TransmitEventsSendNextByte
  intro s k raw v x hx hf hen hie hb hc hl hlt hcap hv i m hi
  have hload := loadOrFinish_load (p := s.params) (x := { x.enterHandler raw none with mode := m }) hf hc hl hlt
    (hlt.trans_le hcap) hv rfl
  rcases hi with ⟨rfl, rfl⟩ | ⟨rfl, rfl⟩ | ⟨rfl, rfl⟩
  · exact exec_event_of_row (c := .startSent) nofun raw 0 hx hf hen hie hb hload
  · exact exec_event_of_row (c := .mtSlawAck) nofun raw 0 hx hf hen hie hb hload
  · exact exec_event_of_row (c := .mtDataAck) nofun raw 0 hx hf hen hie hb hload

/-- Settles O27: with nothing left to send, `load_or_finish()` is `finish()`. -/
theorem transmitEventsFinish : Obligations.TransmitEventsFinish := by
  unfold Obligations.TransmitEventsFinish
  intro s k raw x hx hf hen hie hb hc hl hge hr i m hi
  have hend := loadOrFinish_eq_ended (p := s.params) (x := { x.enterHandler raw none with mode := m }) hc hl hge hr
  rcases hi with ⟨rfl, rfl⟩ | ⟨rfl, rfl⟩ | ⟨rfl, rfl⟩
  · exact exec_event_of_row (c := .startSent) nofun raw 0 hx hf hen hie hb hend
  · exact exec_event_of_row (c := .mtSlawAck) nofun raw 0 hx hf hen hie hb hend
  · exact exec_event_of_row (c := .mtDataAck) nofun raw 0 hx hf hen hie hb hend

/-- Settles O28: the four rows are `error_chain(s)` of the masked status. -/
theorem busErrorsAbortOrChain : Obligations.BusErrorsAbortOrChain := by
  unfold Obligations.BusErrorsAbortOrChain
  intro s k raw x hx hf hen hie hb hr i hi
  have hend := errorChain_eq_ended (raw &&& s.params.statusMask) (x := x.enterHandler raw none) hr
  rcases hi with rfl | rfl | rfl | rfl
  · exact exec_event_of_row (c := .mtSlawNack) nofun raw 0 hx hf hen hie hb hend
  · exact exec_event_of_row (c := .mtDataNack) nofun raw 0 hx hf hen hie hb hend
  · exact exec_event_of_row (c := .arbLost) nofun raw 0 hx hf hen hie hb hend
  · exact exec_event_of_row (c := .mrSlarNack) nofun raw 0 hx hf hen hie hb hend

/-- Settles O29: the row is one write of `MODE` after the delivery's own. -/
theorem repStartSentSetsModeOnly : Obligations.RepStartSentSetsModeOnly := by
  unfold Obligations.RepStartSentSetsModeOnly
  intro s k raw x hx hf hen hie hb
  exact exec_event_of_row (c := .repStartSent) nofun raw 0 hx hf hen hie hb rfl

/-- Settles O30: with both registers written the ACK decision is made; with RX_LEN unwritten its first read faults. -/
theorem slarAckDecidesAcknowledge : Obligations.SlarAckDecidesAcknowledge := by
  unfold Obligations.SlarAckDecidesAcknowledge
  intro s k raw x hx hf hen hie hb
  refine ⟨fun hl hc => ?_, fun hl => ?_⟩
  · exact exec_event_of_row (c := .mrSlarAck) nofun raw 0 hx hf hen hie hb
      (ackDecision_eq s.params (x := (x.enterHandler raw none).setMode .masterReceiver) hl hc)
  · exact exec_event_of_row (c := .mrSlarAck) nofun raw 0 hx hf hen hie hb
      (ackDecision_of_unwritten s.params (x := (x.enterHandler raw none).setMode .masterReceiver) hl)

/-- Settles O31: the row with room, on the byte that the delivery has written to `HW.data`. -/
theorem dataAckStoresAndDecides : Obligations.DataAckStoresAndDecides := by
  unfold Obligations.DataAckStoresAndDecides
  intro s k raw d x hx hf hen hie hb hc hl hlt hcap
  exact exec_event_of_row (c := .mrDataAck) nofun raw d hx hf hen hie hb
    (rowMrDataAck_of_room _ (x := x.enterHandler raw (some d)) hf hc hl rfl hlt hcap)

/-- Settles O32: the phase ends after the store, which leaves REP_START and the mode. -/
theorem dataNackStoresAndFinishes : Obligations.DataNackStoresAndFinishes := by
  unfold Obligations.DataNackStoresAndFinishes
  intro s k raw d x hx hf hen hie hb hc hl hlt hcap hr
  exact exec_event_of_row (c := .mrDataNack) nofun raw d hx hf hen hie hb
    ((store_andThen _ (finish s.params) (x := x.enterHandler raw (some d)) hf hc hl rfl hlt hcap).trans
      (finish_eq_ended _ hr))

/-- Settles O33: the store faults, and nothing after it runs (R195). -/
theorem receiveOverrunFaults : Obligations.ReceiveOverrunFaults := by
  unfold Obligations.ReceiveOverrunFaults
  intro s k raw d x hx hf hen hie hb hc hl hge i hi
  have hover (f : Inst → Inst) :
      (store s.params (raw &&& s.params.statusMask) (x.enterHandler raw (some d))).andThen f =
        (x.enterHandler raw (some d)).raise (.rxOverrun x.rxCur.val x.rxLen.val (raw &&& s.params.statusMask)) := by
    rw [store_of_overrun (by exact hc) (by exact hl) (by exact hge)]
    exact Inst.andThen_of_fault rfl
  rcases hi with rfl | rfl
  · exact exec_event_of_row (c := .mrDataAck) nofun raw d hx hf hen hie hb (hover _)
  · exact exec_event_of_row (c := .mrDataNack) nofun raw d hx hf hen hie hb (hover _)

/-- Settles O34: the row reads no register, REP_START included. -/
theorem illegalStartStopAborts : Obligations.IllegalStartStopAborts := by
  unfold Obligations.IllegalStartStopAborts
  intro s k raw x hx hf hen hie hb
  exact exec_event_of_row (c := .illegalStartStop) nofun raw 0 hx hf hen hie hb rfl

/-- Settles O35: the row raises the fault, after the delivery's writes alone. -/
theorem unhandledStatusFaults : Obligations.UnhandledStatusFaults := by
  unfold Obligations.UnhandledStatusFaults
  intro s k raw x hx hf hen hie hb
  exact exec_event_of_row (c := .unhandled) nofun raw 0 hx hf hen hie hb rfl

/-- NO_INFO is refused at the port of every bus there is, whatever its state (R181). -/
theorem exec_event_noInfo {s : State} {k : Nat} {x : Inst} (raw d : Byte) (hx : s.insts[k]? = some x) :
    exec (StatusClass.noInfoClass.event k raw d) s = .next (s.answerEvt (.refused .noInfoStatus)) := by
  simp only [StatusClass.event, exec, execEvtNoInfoClass, hx]

/-- Settles O36: the port's answer is all that a refusal writes. -/
theorem noInfoChangesNothing : Obligations.NoInfoChangesNothing := by
  unfold Obligations.NoInfoChangesNothing
  intro s k raw x hx
  exact exec_event_noInfo raw 0 hx

end Sys2Proof.Machine
end

section
/-! PROOFS. The control operations that the rows of the Dispatcher issue (R151), and the parts of the bus that they write
(R131-R149). -/

namespace Sys2Proof.Machine

/-! ## One control operation per event (R151) -/

/-- From `x` to `y` exactly one bus-control operation is issued, or a fault is raised. -/
def Inst.IssuesOne (x y : Inst) : Prop := y.fault = none → ∃ op, op.isControl = true ∧ y.hw.trace = x.hw.trace ++ [op]

theorem Inst.IssuesOne.of_fault {x y : Inst} {f : FaultCode} (h : y.fault = some f) : x.IssuesOne y :=
  fun hf => nomatch hf.symm.trans h

theorem Inst.IssuesOne.of_traced {x y : Inst} (op : TraceOp) (hop : op.isControl = true)
    (h : y.hw.trace = x.hw.trace ++ [op]) : x.IssuesOne y :=
  fun _ => ⟨op, hop, h⟩

theorem finish_issuesOne (p : Params) (x : Inst) : x.IssuesOne (finish p x) := by
  rcases finish_cases p x with ⟨-, e⟩ | ⟨-, e⟩ | ⟨-, e⟩ <;> rw [e]
  · exact .of_fault rfl
  · exact .of_traced .start rfl rfl
  · exact .of_traced .stop rfl rfl

theorem errorChain_issuesOne (st : Byte) (x : Inst) : x.IssuesOne (errorChain st x) := by
  rcases errorChain_cases st x with ⟨-, e⟩ | ⟨-, e⟩ | ⟨-, e⟩ <;> rw [e]
  · exact .of_fault rfl
  · exact .of_traced .start rfl rfl
  · exact .of_traced .stop rfl rfl

theorem ackDecision_issuesOne (p : Params) (x : Inst) : x.IssuesOne (ackDecision p x) := by
  rcases ackDecision_cases p x with ⟨-, e⟩ | ⟨-, e⟩ | ⟨-, -, op, hop, e⟩ <;> rw [e]
  · exact .of_fault rfl
  · exact .of_fault rfl
  · rcases hop with rfl | rfl
    · exact .of_traced .ackNext rfl rfl
    · exact .of_traced .nackNext rfl rfl

theorem loadOrFinish_issuesOne (p : Params) {x : Inst} (hf : x.fault = none) : x.IssuesOne (loadOrFinish p x) := by
  rcases loadOrFinish_cases p hf with ⟨f, e, -⟩ | ⟨-, -, -, -, v, -, e⟩ | ⟨-, -, -, e⟩ <;> rw [e]
  · exact .of_fault rfl
  · exact .of_traced (.cont v) rfl rfl
  · exact finish_issuesOne p x

/-- A store issues nothing: the operation is that of what follows it. -/
theorem store_andThen_issuesOne {p : Params} (st : Byte) {x : Inst} {f : Inst → Inst} (hf : x.fault = none)
    (h : ∀ y : Inst, y.IssuesOne (f y)) : x.IssuesOne ((store p st x).andThen f) := by
  rcases store_cases p st hf with ⟨c, e, -⟩ | ⟨-, -, -, -, e⟩ <;> rw [e]
  · rw [Inst.andThen_of_fault rfl]
    exact .of_fault rfl
  · rw [Inst.andThen_of_no_fault (by exact hf)]
    exact h _

theorem rowOf_issuesOne {c : StatusClass} (hc : ¬ (c = .repStartSent ∨ c = .noInfoClass ∨ c = .unhandled)) (p : Params)
    (st : Byte) {x : Inst} (hf : x.fault = none) : x.IssuesOne (rowOf c p st x) := by
  cases c with
  | startSent => exact loadOrFinish_issuesOne p hf
  | repStartSent => exact absurd (.inl rfl) hc
  | mtSlawAck => exact loadOrFinish_issuesOne p (x := x.setMode .masterTransmitter) hf
  | mtSlawNack => exact errorChain_issuesOne st x
  | mtDataAck => exact loadOrFinish_issuesOne p hf
  | mtDataNack => exact errorChain_issuesOne st x
  | arbLost => exact errorChain_issuesOne st x
  | mrSlarAck => exact ackDecision_issuesOne p (x.setMode .masterReceiver)
  | mrSlarNack => exact errorChain_issuesOne st x
  | mrDataAck => exact store_andThen_issuesOne st hf (ackDecision_issuesOne p)
  | mrDataNack => exact store_andThen_issuesOne st hf (finish_issuesOne p)
  | illegalStartStop => exact .of_traced .stop rfl rfl
  | noInfoClass => exact absurd (.inr (.inl rfl)) hc
  | unhandled => exact absurd (.inr (.inr rfl)) hc

/-- The three rows that issue nothing. -/
theorem rowOf_trace {c : StatusClass} (hc : c = .repStartSent ∨ c = .noInfoClass ∨ c = .unhandled) (p : Params)
    (st : Byte) (x : Inst) : (rowOf c p st x).hw.trace = x.hw.trace := by
  rcases hc with rfl | rfl | rfl <;> rfl

/-- Settles O38: NO_INFO is refused; another event's trace is its row's, since the delivery itself issues nothing. -/
theorem oneControlOperationPerEvent : Obligations.OneControlOperationPerEvent := by
  unfold Obligations.OneControlOperationPerEvent
  intro s t k raw d x y c hx hf hen hie hb h hy hfault
  by_cases hno : c = .noInfoClass
  · subst hno
    cases (exec_event_noInfo raw d hx).symm.trans h
    cases hx.symm.trans hy
    rw [if_pos (.inr (.inl rfl))]
  · obtain ⟨hk, -⟩ := List.getElem?_eq_some_iff.mp hx
    cases (exec_event_delivered hno raw d hx hf hen hie hb).symm.trans h
    cases (List.getElem?_set_self hk).symm.trans hy
    split
    · rename_i hc
      exact rowOf_trace hc _ _ _
    · rename_i hc
      exact rowOf_issuesOne hc _ _ (by exact hf) (hfault.resolve_right fun hu => hc (.inr (.inr hu)))

/-! ## The frame of the events (R131-R149, their "Writes") -/

/-- The parts of a bus that some row writes; `rx` is RX_CUR with the element of RX_BUF at it (R134). -/
inductive BusPart where
  | mode
  | lastStatus
  | txCur
  | rx
  | data

/-- The parts that an event of a class may write, the delivery's data byte included (R131-R149, R184). -/
def eventWrites : StatusClass → List BusPart
  | .startSent => [.txCur, .data, .mode, .lastStatus]
  | .repStartSent => [.mode]
  | .mtSlawAck => [.txCur, .data, .mode, .lastStatus]
  | .mtSlawNack => [.mode, .lastStatus]
  | .mtDataAck => [.txCur, .data, .mode, .lastStatus]
  | .mtDataNack => [.mode, .lastStatus]
  | .arbLost => [.mode, .lastStatus]
  | .mrSlarAck => [.mode, .lastStatus]
  | .mrSlarNack => [.mode, .lastStatus]
  | .mrDataAck => [.rx, .data, .lastStatus]
  | .mrDataNack => [.rx, .data, .mode, .lastStatus]
  | .illegalStartStop => [.mode, .lastStatus]
  | .noInfoClass => []
  | .unhandled => []

theorem txCur_mem_eventWrites {c : StatusClass} :
    .txCur ∈ eventWrites c ↔ c = .startSent ∨ c = .mtSlawAck ∨ c = .mtDataAck := by
  cases c <;> simp [eventWrites]

theorem rx_mem_eventWrites {c : StatusClass} : .rx ∈ eventWrites c ↔ c = .mrDataAck ∨ c = .mrDataNack := by
  cases c <;> simp [eventWrites]

theorem data_mem_eventWrites {c : StatusClass} :
    .data ∈ eventWrites c ↔ .txCur ∈ eventWrites c ∨ .rx ∈ eventWrites c := by
  cases c <;> simp [eventWrites]

theorem lastStatus_mem_eventWrites {c : StatusClass} :
    .lastStatus ∈ eventWrites c ↔ ¬ (c = .repStartSent ∨ c = .noInfoClass ∨ c = .unhandled) := by
  cases c <;> simp [eventWrites]

theorem mode_mem_eventWrites {c : StatusClass} :
    .mode ∈ eventWrites c ↔ ¬ (c = .noInfoClass ∨ c = .unhandled ∨ c = .mrDataAck) := by
  cases c <;> simp [eventWrites]

/-- `y` is `x` but for the parts `w`, the fault, and what a delivery or a control operation writes of `HW` beside the data
register. Each clause is by default closed by computation, so that a proof names the parts that are written. -/
structure Inst.KeptBut (w : List BusPart) (x y : Inst) : Prop where
  repStart : y.repStart = x.repStart := by rfl
  txLen : y.txLen = x.txLen := by rfl
  rxLen : y.rxLen = x.rxLen := by rfl
  initd : y.initd = x.initd := by rfl
  en : y.hw.en = x.hw.en := by rfl
  ie : y.hw.ie = x.hw.ie := by rfl
  div : y.hw.div = x.hw.div := by rfl
  txBuf : y.txBuf = x.txBuf := by rfl
  rxBuf : ∀ j, (.rx ∈ w → j ≠ x.rxCur.val.toNat) → Memory.read y.rxBuf j = Memory.read x.rxBuf j := by intros; rfl
  mode : .mode ∉ w → y.mode = x.mode := by intros; rfl
  lastStatus : .lastStatus ∉ w → y.lastStatus = x.lastStatus := by intros; rfl
  txCur : .txCur ∉ w → y.txCur = x.txCur := by intros; rfl
  rxCur : .rx ∉ w → y.rxCur = x.rxCur := by intros; rfl
  data : .data ∉ w → y.hw.data = x.hw.data := by intros; rfl

/-- What is kept by two operations, the second of which stores nothing. -/
theorem Inst.KeptBut.trans {w w' : List BusPart} {x y z : Inst} (h : x.KeptBut w y) (h' : y.KeptBut w' z) (hrx : .rx ∉ w') :
    x.KeptBut (w ++ w') z where
  repStart := h'.repStart.trans h.repStart
  txLen := h'.txLen.trans h.txLen
  rxLen := h'.rxLen.trans h.rxLen
  initd := h'.initd.trans h.initd
  en := h'.en.trans h.en
  ie := h'.ie.trans h.ie
  div := h'.div.trans h.div
  txBuf := h'.txBuf.trans h.txBuf
  rxBuf j hj := (h'.rxBuf j (absurd · hrx)).trans (h.rxBuf j fun hm => hj (List.mem_append_left _ hm))
  mode hm := (h'.mode (hm <| List.mem_append_right _ ·)).trans (h.mode (hm <| List.mem_append_left _ ·))
  lastStatus hm := (h'.lastStatus (hm <| List.mem_append_right _ ·)).trans (h.lastStatus (hm <| List.mem_append_left _ ·))
  txCur hm := (h'.txCur (hm <| List.mem_append_right _ ·)).trans (h.txCur (hm <| List.mem_append_left _ ·))
  rxCur hm := (h'.rxCur hrx).trans (h.rxCur (hm <| List.mem_append_left _ ·))
  data hm := (h'.data (hm <| List.mem_append_right _ ·)).trans (h.data (hm <| List.mem_append_left _ ·))

theorem Inst.KeptBut.mono {w w' : List BusPart} {x y : Inst} (h : x.KeptBut w y) (hw : w ⊆ w') : x.KeptBut w' y :=
  { h with
    rxBuf j hj := h.rxBuf j fun hm => hj (hw hm)
    mode hm := h.mode (hm <| hw ·)
    lastStatus hm := h.lastStatus (hm <| hw ·)
    txCur hm := h.txCur (hm <| hw ·)
    rxCur hm := h.rxCur (hm <| hw ·)
    data hm := h.data (hm <| hw ·) }

theorem Inst.KeptBut.raise (x : Inst) (f : FaultCode) (w : List BusPart) : x.KeptBut w { x with fault := some f } := {}

theorem Inst.KeptBut.andThen {w w' : List BusPart} {x y : Inst} {f : Inst → Inst} (h : x.KeptBut w y)
    (hf : ∀ z : Inst, z.KeptBut w' (f z)) (hrx : .rx ∉ w') : x.KeptBut (w ++ w') (y.andThen f) := by
  unfold Inst.andThen
  split
  · exact h.trans (hf y) hrx
  · exact h.mono (List.subset_append_left w w')

theorem finish_keptBut (p : Params) (x : Inst) : x.KeptBut [.mode, .lastStatus] (finish p x) := by
  rcases finish_cases p x with ⟨-, e⟩ | ⟨-, e⟩ | ⟨-, e⟩ <;> rw [e]
  · exact .raise x _ _
  · exact { lastStatus := by simp }
  · exact { mode := by simp, lastStatus := by simp }

theorem errorChain_keptBut (st : Byte) (x : Inst) : x.KeptBut [.mode, .lastStatus] (errorChain st x) := by
  rcases errorChain_cases st x with ⟨-, e⟩ | ⟨-, e⟩ | ⟨-, e⟩ <;> rw [e]
  · exact { lastStatus := by simp }
  · exact { lastStatus := by simp }
  · exact { mode := by simp, lastStatus := by simp }

theorem ackDecision_keptBut (p : Params) (x : Inst) : x.KeptBut [.lastStatus] (ackDecision p x) := by
  rcases ackDecision_cases p x with ⟨-, e⟩ | ⟨-, e⟩ | ⟨-, -, op, -, e⟩ <;> rw [e] <;> exact { lastStatus := by simp }

theorem loadOrFinish_keptBut (p : Params) {x : Inst} (hf : x.fault = none) :
    x.KeptBut [.txCur, .data, .mode, .lastStatus] (loadOrFinish p x) := by
  rcases loadOrFinish_cases p hf with ⟨f, e, -⟩ | ⟨-, -, -, -, v, -, e⟩ | ⟨-, -, -, e⟩ <;> rw [e]
  · exact .raise x f _
  · exact { lastStatus := by simp, txCur := by simp, data := by simp }
  · exact (finish_keptBut p x).mono (by simp)

theorem store_keptBut (p : Params) (st : Byte) {x : Inst} (hf : x.fault = none) : x.KeptBut [.rx] (store p st x) := by
  rcases store_cases p st hf with ⟨f, e, -⟩ | ⟨-, -, -, -, e⟩ <;> rw [e]
  · exact .raise x f _
  · exact { rxBuf := fun j hj => Memory.read_write_other _ _ (hj List.mem_cons_self), rxCur := by simp }

theorem rowOf_keptBut (c : StatusClass) (p : Params) (st : Byte) {x : Inst} (hf : x.fault = none) :
    x.KeptBut (eventWrites c) (rowOf c p st x) := by
  cases c with
  | startSent => exact loadOrFinish_keptBut p hf
  | repStartSent => exact { mode := by simp [eventWrites] }
  | mtSlawAck =>
    have h := loadOrFinish_keptBut p (x := x.setMode .masterTransmitter) hf
    exact { h with mode := by simp [eventWrites] }
  | mtSlawNack => exact errorChain_keptBut st x
  | mtDataAck => exact loadOrFinish_keptBut p hf
  | mtDataNack => exact errorChain_keptBut st x
  | arbLost => exact errorChain_keptBut st x
  | mrSlarAck =>
    have h := ackDecision_keptBut p (x.setMode .masterReceiver)
    exact { h.mono (w' := [.mode, .lastStatus]) (by simp) with mode := by simp [eventWrites] }
  | mrSlarNack => exact errorChain_keptBut st x
  | mrDataAck => exact ((store_keptBut p st hf).andThen (ackDecision_keptBut p) (by simp)).mono (by simp [eventWrites])
  | mrDataNack => exact ((store_keptBut p st hf).andThen (finish_keptBut p) (by simp)).mono (by simp [eventWrites])
  | illegalStartStop => exact { mode := by simp [eventWrites], lastStatus := by simp [eventWrites] }
  | noInfoClass => exact {}
  | unhandled => exact .raise x _ _

/-- A delivery writes a data byte only where the class carries one (R181, R184), and such a class may write it. -/
theorem delivery_keptBut (c : StatusClass) (p : Params) (st raw d : Byte) {x : Inst} (hf : x.fault = none) :
    x.KeptBut (eventWrites c)
      (rowOf c p st (x.enterHandler raw (if c = .mrDataAck ∨ c = .mrDataNack then some d else none))) := by
  have h := rowOf_keptBut c p st
    (x := x.enterHandler raw (if c = .mrDataAck ∨ c = .mrDataNack then some d else none)) hf
  refine { h with data := fun hm => (h.data hm).trans ?_ }
  rw [if_neg fun hc => hm (data_mem_eventWrites.mpr (.inr (rx_mem_eventWrites.mpr hc)))]
  rfl

/-- An event leaves the Foreground and its answer, and of its bus all but the parts that its class writes (R200). -/
theorem exec_event_keptBut {s t : State} {k : Nat} {raw d : Byte} {x : Inst} {c : StatusClass}
    (hx : s.insts[k]? = some x) (h : exec (c.event k raw d) s = .next t) :
    t.fg = s.fg ∧ t.reply = s.reply ∧ ∃ y, t.insts[k]? = some y ∧ x.KeptBut (eventWrites c) y := by
  obtain ⟨x', hx', h⟩ := exec_event_cases h
  cases hx.symm.trans hx'
  rcases h with ⟨r, rfl⟩ | ⟨-, he, rfl⟩
  · exact ⟨rfl, rfl, x, hx, {}⟩
  · obtain ⟨hk, -⟩ := List.getElem?_eq_some_iff.mp hx
    exact ⟨rfl, rfl, _, List.getElem?_set_self hk, delivery_keptBut c _ _ raw d (Inst.fault_of_deliveryEnabled he)⟩

/-- Settles O40: `exec_event_keptBut`, with the classes that write each part. -/
theorem eventFrame : Obligations.EventFrame := by
  unfold Obligations.EventFrame
  intro s t k raw d x c hx h
  obtain ⟨hfg, hreply, y, hy, hk⟩ := exec_event_keptBut hx h
  exact ⟨hfg, hreply, y, hy, hk.repStart, hk.txLen, hk.rxLen, hk.initd, hk.en, hk.ie, hk.div, fun j => by rw [hk.txBuf],
    fun j hj => hk.rxBuf j fun hm => hj (rx_mem_eventWrites.mp hm),
    fun h1 h2 h3 => hk.txCur (by simp [txCur_mem_eventWrites, h1, h2, h3]),
    fun h1 h2 => hk.rxCur (by simp [rx_mem_eventWrites, h1, h2]),
    fun hc => hk.lastStatus fun hm => lastStatus_mem_eventWrites.mp hm hc,
    fun hc => hk.mode fun hm => mode_mem_eventWrites.mp hm hc,
    fun h1 h2 h3 h4 h5 => hk.data (by simp [data_mem_eventWrites, txCur_mem_eventWrites, rx_mem_eventWrites, *])⟩

end Sys2Proof.Machine
end

section
/-! PROOFS. No row of the Dispatcher reads `MODE` (R152). -/

namespace Sys2Proof.Machine

/-! ## What does not depend on `MODE` -/

/-- The bus with another `MODE` register, be it written or not. -/
def Inst.withMode (m : Reg Mode) (x : Inst) : Inst := { x with mode := m }

/-- At `x`, what `f` does is the same whatever `MODE` is: either it writes `MODE` over, or it leaves `MODE` as it was. -/
def BlindAt (f : Inst → Inst) (x : Inst) : Prop :=
  (∀ m, f (x.withMode m) = f x) ∨ ∀ m, f (x.withMode m) = (f x).withMode m

/-- `f` never reads `MODE` (R152). -/
def ModeBlind (f : Inst → Inst) : Prop := ∀ x, BlindAt f x

/-- A change that leaves `MODE` where it is. -/
theorem ModeBlind.of_kept {f : Inst → Inst} (h : ∀ (m : Reg Mode) (x : Inst), f (x.withMode m) = (f x).withMode m) :
    ModeBlind f :=
  fun x => .inr fun m => h m x

theorem ModeBlind.comp {f g : Inst → Inst} (hf : ModeBlind f) (hg : ModeBlind g) : ModeBlind fun x => g (f x) := by
  intro x
  rcases hf x with hf | hf
  · exact .inl fun m => congrArg g (hf m)
  · rcases hg (f x) with hg | hg
    · exact .inl fun m => (congrArg g (hf m)).trans (hg m)
    · exact .inr fun m => (congrArg g (hf m)).trans (hg m)

/-- A choice that does not depend on `MODE`. -/
theorem ModeBlind.ite {f g : Inst → Inst} {b : Inst → Prop} [DecidablePred b]
    (hb : ∀ (m : Reg Mode) (x : Inst), b (x.withMode m) ↔ b x) (hf : ModeBlind f) (hg : ModeBlind g) :
    ModeBlind fun x => if b x then f x else g x := by
  intro x
  by_cases h : b x
  · simpa only [BlindAt, hb, if_pos h] using hf x
  · simpa only [BlindAt, hb, if_neg h] using hg x

theorem ModeBlind.raise (c : FaultCode) : ModeBlind (Inst.raise c) := .of_kept fun _ _ => rfl

theorem ModeBlind.andThen {f g : Inst → Inst} (hf : ModeBlind f) (hg : ModeBlind g) :
    ModeBlind fun x => (f x).andThen g := by
  refine hf.comp (g := (·.andThen g)) fun x => ?_
  have hm : ∀ m, (x.withMode m).fault = x.fault := fun _ => rfl
  cases hx : x.fault with
  | none => simpa only [BlindAt, Inst.andThen, hm, hx] using hg x
  | some c => exact .inr fun m => by simp only [Inst.andThen, hm, hx]

/-- A read of another register than `MODE`, on a bus that `g` has changed already. -/
theorem ModeBlind.read {α : Type} {r : Inst → Reg α} {name : RegName} {g : Inst → Inst} {f : α → Inst → Inst}
    (hr : ∀ (m : Reg Mode) (x : Inst), r (x.withMode m) = r x) (hg : ModeBlind g) (hf : ∀ v, ModeBlind (f v)) :
    ModeBlind fun x => (r x).read name (g x) fun v => f v x := by
  intro x
  cases h : (r x).written with
  | true => simpa only [BlindAt, hr, Reg.read_of_written h] using hf (r x).val x
  | false => simpa only [BlindAt, hr, Reg.read_of_unwritten h] using (hg.comp (.raise _)) x

/-- A read of TX_BUF. -/
theorem ModeBlind.load {cap i : Nat} {name : RegName} {f : Byte → Inst → Inst} (hf : ∀ v, ModeBlind (f v)) :
    ModeBlind fun x => Memory.load x.txBuf cap i name x fun v => f v x := by
  intro x
  have hm : ∀ m, (x.withMode m).txBuf = x.txBuf := fun _ => rfl
  by_cases hi : i < cap
  · cases h : Memory.read x.txBuf i with
    | some v => simpa only [BlindAt, hm, Memory.load_of_read hi h] using hf v x
    | none => simpa only [BlindAt, hm, Memory.load_of_unwritten hi h] using ModeBlind.raise _ x
  · simpa only [BlindAt, hm, Memory.load, if_neg hi] using ModeBlind.raise _ x

/-! ## The shared actions (R131-R135) -/

theorem writeData_modeBlind (v : Byte) : ModeBlind (Inst.writeData v) :=
  .ite (fun _ _ => .rfl) (.of_kept fun _ _ => rfl) (.raise _)

theorem continueTx_modeBlind : ModeBlind Inst.continueTx :=
  .read (fun _ _ => rfl) (.of_kept fun _ _ => rfl) fun _ => .of_kept fun _ _ => rfl

theorem storeRx_modeBlind (cap i : Nat) (v : Byte) : ModeBlind (Inst.storeRx cap i v) :=
  .ite (fun _ _ => .rfl) (.of_kept fun _ _ => rfl) (.raise _)

/-- The one end of a phase that writes `MODE` writes it over (R132, R135). -/
theorem stop_modeBlind (st : Byte) : ModeBlind fun x => ((x.setMode .ready).setLastStatus st).issueStop :=
  fun _ => .inl fun _ => rfl

theorem finish_modeBlind (p : Params) : ModeBlind (finish p) :=
  .read (fun _ _ => rfl) (.of_kept fun _ _ => rfl) fun _ =>
    .ite (fun _ _ => .rfl) (.of_kept fun _ _ => rfl) (stop_modeBlind p.success)

theorem errorChain_modeBlind (st : Byte) : ModeBlind (errorChain st) :=
  .read (fun _ _ => rfl) (.of_kept fun _ _ => rfl) fun _ =>
    .ite (fun _ _ => .rfl) (.of_kept fun _ _ => rfl) (stop_modeBlind st)

theorem ackDecision_modeBlind (p : Params) : ModeBlind (ackDecision p) :=
  .read (fun _ _ => rfl) (.of_kept fun _ _ => rfl) fun _ =>
    .read (fun _ _ => rfl) (.of_kept fun _ _ => rfl) fun _ =>
      .ite (fun _ _ => .rfl) (.of_kept fun _ _ => rfl) (.of_kept fun _ _ => rfl)

theorem loadByte_modeBlind (p : Params) (cur v : Byte) : ModeBlind (loadByte p cur v) :=
  (writeData_modeBlind v).andThen (.comp (.of_kept fun _ _ => rfl) continueTx_modeBlind)

theorem loadOrFinish_modeBlind (p : Params) : ModeBlind (loadOrFinish p) :=
  .read (fun _ _ => rfl) (.of_kept fun _ _ => rfl) fun cur =>
    .read (fun _ _ => rfl) (.of_kept fun _ _ => rfl) fun _ =>
      .ite (fun _ _ => .rfl) (.load fun v => loadByte_modeBlind p cur v) (finish_modeBlind p)

theorem store_modeBlind (p : Params) (st : Byte) : ModeBlind (store p st) :=
  .read (fun _ _ => rfl) (.of_kept fun _ _ => rfl) fun cur =>
    .read (fun _ _ => rfl) (.of_kept fun _ _ => rfl) fun _ =>
      .ite (fun _ _ => .rfl) (.raise _) <|
        .read (fun _ _ => rfl) (.of_kept fun _ _ => rfl) fun v =>
          (storeRx_modeBlind p.rxCap cur.toNat v).andThen (.of_kept fun _ _ => rfl)

/-! ## The rows and the delivery (R136-R149, R181) -/

theorem setMode_modeBlind (m : Mode) : ModeBlind (·.setMode m) := fun _ => .inl fun _ => rfl

theorem rowOf_modeBlind (c : StatusClass) (p : Params) (st : Byte) : ModeBlind (rowOf c p st) := by
  cases c with
  | startSent => exact loadOrFinish_modeBlind p
  | repStartSent => exact setMode_modeBlind .repeatedStartSent
  | mtSlawAck => exact (setMode_modeBlind .masterTransmitter).comp (loadOrFinish_modeBlind p)
  | mtSlawNack => exact errorChain_modeBlind st
  | mtDataAck => exact loadOrFinish_modeBlind p
  | mtDataNack => exact errorChain_modeBlind st
  | arbLost => exact errorChain_modeBlind st
  | mrSlarAck => exact (setMode_modeBlind .masterReceiver).comp (ackDecision_modeBlind p)
  | mrSlarNack => exact errorChain_modeBlind st
  | mrDataAck => exact (store_modeBlind p st).andThen (ackDecision_modeBlind p)
  | mrDataNack => exact (store_modeBlind p st).andThen (finish_modeBlind p)
  | illegalStartStop => exact stop_modeBlind st
  | noInfoClass => exact .of_kept fun _ _ => rfl
  | unhandled => exact .raise _

/-- An event's effect on its bus, and the port's answer, are the same function of the bus whatever its `MODE` is. -/
theorem exec_event_modeBlind (c : StatusClass) {k : Nat} (raw d : Byte) {s : State} {x : Inst} (hx : s.insts[k]? = some x) :
    ∃ f r, ModeBlind f ∧ ∀ m, exec (c.event k raw d) { s with insts := s.insts.set k (x.withMode m) } = .next
      { s with insts := s.insts.set k (f (x.withMode m)), evtReply := r } := by
  obtain ⟨hk, -⟩ := List.getElem?_eq_some_iff.mp hx
  have hget (m : Reg Mode) : (s.insts.set k (x.withMode m))[k]? = some (x.withMode m) := List.getElem?_set_self hk
  by_cases hno : c = .noInfoClass
  · subst hno
    exact ⟨id, _, .of_kept fun _ _ => rfl, fun m => exec_event_noInfo raw d (hget m)⟩
  · cases he : x.deliveryEnabled with
    | false =>
      exact ⟨id, _, .of_kept fun _ _ => rfl, fun m => by rw [exec_event hno]; exact event_of_disabled (hget m) he⟩
    | true =>
      refine ⟨fun y => rowOf c s.params (raw &&& s.params.statusMask)
        (y.enterHandler raw (if c = .mrDataAck ∨ c = .mrDataNack then some d else none)), .delivered,
        .comp (.of_kept fun _ _ => rfl) (rowOf_modeBlind c _ _), fun m => ?_⟩
      rw [exec_event hno, event_of_enabled (hget m) (by exact he)]
      simp only [State.setInst, State.answerEvt, List.set_set]

/-- Settles O39: the run on `x` is the one with `x`'s own `MODE`, and a row either writes `MODE` over or leaves it. -/
theorem dispatcherNeverReadsMode : Obligations.DispatcherNeverReadsMode := by
  unfold Obligations.DispatcherNeverReadsMode
  intro s t k raw d x c m hx h
  obtain ⟨f, r, hf, hrun⟩ := exec_event_modeBlind c raw d hx
  obtain ⟨hk, -⟩ := List.getElem?_eq_some_iff.mp hx
  have hown := hrun x.mode
  rw [show x.withMode x.mode = x from rfl, insts_set_self hx] at hown
  cases hown.symm.trans h
  rcases hf x with hover | hkept
  · refine ⟨f x, (f x).mode, List.getElem?_set_self hk, (hrun m).trans ?_, .inl rfl⟩
    rw [hover m, List.set_set]
  · have hmode := congrArg Inst.mode (hkept x.mode)
    refine ⟨f x, m, List.getElem?_set_self hk, (hrun m).trans ?_, .inr ⟨hmode, rfl⟩⟩
    rw [hkept m, List.set_set]
    rfl

end Sys2Proof.Machine
end

section
/-! PROOFS. The hardware-interface operations run on their own (R171-R180), and the events and redispatches that the event port
refuses or takes (R181-R183). -/

namespace Sys2Proof.Machine

/-! ## Where delivery is not enabled (R181, R183) -/

theorem Inst.deliveryEnabled_eq_false {x : Inst} :
    x.deliveryEnabled = false ↔ x.fault ≠ none ∨ x.hw.en = false ∨ x.hw.ie = false ∨ x.hw.busy = false := by
  simp only [Inst.deliveryEnabled, Bool.and_eq_false_iff, Option.isNone_eq_false_iff, Option.isSome_iff_ne_none, or_assoc]

/-- Settles O37: every class but NO_INFO is a delivery, which the port refuses before its row is looked at. -/
theorem noEventWhileNotEnabled : Obligations.NoEventWhileNotEnabled := by
  unfold Obligations.NoEventWhileNotEnabled
  intro s k raw d x c hx hoff hc
  rw [exec_event hc]
  exact event_of_disabled hx (Inst.deliveryEnabled_eq_false.mpr hoff)

/-! ## The redispatch (R182) -/

theorem Inst.redispatchEnabled_of_no_redispatch {p : Params} (h : p.redispatch = false) (x : Inst) :
    x.redispatchEnabled p = false := by
  simp only [Inst.redispatchEnabled, h, Bool.false_and]

theorem Inst.Holds.redispatchEnabled {p : Params} {x : Inst} (hr : p.redispatch = true) (h : x.Holds p) :
    x.redispatchEnabled p = true := by
  simp [Inst.redispatchEnabled, hr, h.noFault, h.en, h.ie, h.pend, h.busy]

theorem redispatch_of_disabled {s : State} {k : Nat} {x : Inst} (hx : s.insts[k]? = some x)
    (he : x.redispatchEnabled s.params = false) : s.redispatch k = s.answerEvt (.refused .notEnabled) := by
  simp [State.redispatch, hx, he]

theorem redispatch_of_enabled {s : State} {k : Nat} {x : Inst} (hx : s.insts[k]? = some x)
    (he : x.redispatchEnabled s.params = true) :
    s.redispatch k = (s.setInst k (dispatch s.params x)).answerEvt .delivered := by
  simp [State.redispatch, hx, he]

/-- Settles O57: a taken redispatch is the Dispatcher on the held status, whose row for REP_START_SENT writes `MODE` alone. -/
theorem redispatchSetsModeOnly : Obligations.RedispatchSetsModeOnly := by
  unfold Obligations.RedispatchSetsModeOnly
  intro s k x hx
  refine ⟨fun hr => ?_, fun hp hr hf hen hie hpend hb hsw hst => ?_⟩
  · exact congrArg _ (redispatch_of_disabled hx (Inst.redispatchEnabled_of_no_redispatch hr x))
  · have hh : x.Holds s.params := ⟨hf, hen, hie, hb, hpend, hsw, hst⟩
    have hrun := redispatch_of_enabled hx (hh.redispatchEnabled hr)
    rw [dispatch_of_holds hp hh] at hrun
    exact congrArg _ hrun

/-! ## Operations without an answer (R171-R176, R179, R180) -/

/-- An operation without an answer that makes `y` of the bus. -/
theorem hwop_noAnswer {k : Nat} {f : Inst → Inst} {s : State} {x y : Inst} (hx : s.insts[k]? = some x)
    (hf : x.fault = none) (hy : f x = y) :
    hwop k f noAnswer s = .next { s with insts := s.insts.set k y, hwReply := .noReply } :=
  hy ▸ hwop_of_run hx hf

/-- Settles O42: ISSUE_STOP halts the bus, each of the other three launches its operation. -/
theorem controlOperationsComplete : Obligations.ControlOperationsComplete := by
  unfold Obligations.ControlOperationsComplete
  intro s k x hx hf i op b hi
  rcases hi with ⟨rfl, rfl, rfl⟩ | ⟨rfl, rfl, rfl⟩ | ⟨rfl, rfl, rfl⟩ | ⟨rfl, rfl, rfl⟩
  · exact hwop_noAnswer (f := Inst.issueStart) hx hf rfl
  · exact hwop_noAnswer (f := Inst.issueStop) hx hf rfl
  · exact hwop_noAnswer (f := Inst.ackNext) hx hf rfl
  · exact hwop_noAnswer (f := Inst.nackNext) hx hf rfl

/-- CONTINUE before any write of the data register: nothing is traced, and the writes that precede the read stay (R173,
R195). -/
theorem Inst.continueTx_of_unwritten {x : Inst} (h : x.hw.data.written = false) :
    x.continueTx = (x.setHw x.hw.release).raise (.unwrittenRead .hwData) :=
  Reg.read_of_unwritten h

/-- Settles O43: the two cases of the read of the data register. -/
theorem continueSendsDataRegister : Obligations.ContinueSendsDataRegister := by
  unfold Obligations.ContinueSendsDataRegister
  intro s k x hx hf
  refine ⟨fun hw => hwop_noAnswer hx hf (Inst.continueTx_of_written hw), fun hw => ?_⟩
  obtain ⟨hk, -⟩ := List.getElem?_eq_some_iff.mp hx
  exact ⟨_, _, hwop_noAnswer hx hf (Inst.continueTx_of_unwritten hw), List.getElem?_set_self hk, rfl, rfl, rfl⟩

/-- Settles O44: the two cases of the wait condition. -/
theorem writeDataNeedsWaitCondition : Obligations.WriteDataNeedsWaitCondition := by
  unfold Obligations.WriteDataNeedsWaitCondition
  intro s k v x hx hf
  exact ⟨fun hpend => hwop_noAnswer hx hf (Inst.writeData_of_pend v hpend),
    fun hpend => hwop_noAnswer hx hf (Inst.writeData_of_no_pend v hpend)⟩

/-- Settles O46: neither operation reads the state. -/
theorem setDivisorAndEnableComplete : Obligations.SetDivisorAndEnableComplete := by
  unfold Obligations.SetDivisorAndEnableComplete
  intro s k v x hx hf
  exact ⟨hwop_noAnswer (f := Inst.setDivisor v) hx hf rfl, hwop_noAnswer (f := Inst.enable) hx hf rfl⟩

/-! ## Reads (R177, R178) -/

/-- A read of a written register answers what is made of it, and leaves every bus as it is. -/
theorem hwop_read_of_written {k : Nat} {s : State} {x : Inst} (r : Inst → Reg Byte) (name : RegName) (answer : Inst → Byte)
    (hx : s.insts[k]? = some x) (hf : x.fault = none) (h : (r x).written = true) :
    hwop k (fun y => (r y).read name y fun _ => y) (fun y => HwReply.of y (answer y)) s =
      .next { s with hwReply := .byte (answer x) } := by
  rw [hwop_of_run hx hf, Reg.read_of_written h]
  simp only [State.setInst, insts_set_self hx, HwReply.of, hf]

/-- A read of an unwritten register faults and answers nothing (R42). -/
theorem hwop_read_of_unwritten {k : Nat} {s : State} {x : Inst} (r : Inst → Reg Byte) (name : RegName)
    (answer : Inst → Byte) (hx : s.insts[k]? = some x) (hf : x.fault = none) (h : (r x).written = false) :
    hwop k (fun y => (r y).read name y fun _ => y) (fun y => HwReply.of y (answer y)) s =
      .next { s with insts := s.insts.set k (x.raise (.unwrittenRead name)), hwReply := .noReply } := by
  rw [hwop_of_run hx hf, Reg.read_of_unwritten h]
  rfl

/-- Settles O45: both operations are reads of their register; READ_STATUS masks its answer. -/
theorem hardwareReadsReturn : Obligations.HardwareReadsReturn := by
  unfold Obligations.HardwareReadsReturn
  intro s k x hx hf
  exact ⟨hwop_read_of_written (·.hw.data) .hwData (·.hw.data.val) hx hf,
    hwop_read_of_written (·.hw.status) .hwStatus (·.hw.status.val &&& s.params.statusMask) hx hf,
    hwop_read_of_unwritten (·.hw.data) .hwData (·.hw.data.val) hx hf,
    hwop_read_of_unwritten (·.hw.status) .hwStatus (·.hw.status.val &&& s.params.statusMask) hx hf⟩

end Sys2Proof.Machine
end

section
/-! PROOFS. The model faults (R194, R195): a faulted bus is left as it is, a command to it holds the Foreground, a command ahead
of INIT faults, and from the invariant the checks that make a wrong reading visible are never met. -/

namespace Sys2Proof.Machine

/-! ## A faulted bus (R195) -/

/-- The one bus that an operation may change has not faulted. -/
theorem OneChange.getElem?_faulted {K : Nat → Prop} {p : Params} {l l' : List Inst} {k : Nat} {x : Inst}
    (h : OneChange K p l l') (hx : l[k]? = some x) (hf : x.fault ≠ Option.none) : l'[k]? = some x := by
  cases h with
  | none => exact hx
  | @one j x' y _ hx' hf' _ =>
    have hne : j ≠ k := by
      rintro rfl
      cases hx'.symm.trans hx
      exact hf hf'
    rw [List.getElem?_set_ne hne, hx]

/-- Settles O50: the frame of a step has no room for a faulted bus. -/
theorem faultedInstanceIsFrozen : Obligations.FaultedInstanceIsFrozen := by
  unfold Obligations.FaultedInstanceIsFrozen
  intro s t k x hx hf h
  obtain ⟨-, hO⟩ := step_frame h
  exact hO.getElem?_faulted hx hf

/-- A command that is not refused holds the Foreground at a faulted bus (R113). -/
theorem command_of_fault {i : Instr} {k : Nat} {refusal : Inst → Option RefuseReason} {body : Inst → State} {s : State}
    {x : Inst} (hfg : s.fg = .idle) (hx : s.insts[k]? = some x) (hr : refusal x = none) (hf : x.fault ≠ none) :
    command i k refusal body s = .next (s.hold i) := by
  obtain ⟨c, hc⟩ := Option.ne_none_iff_exists'.mp hf
  simp [command, hfg, hx, hr, hc]

/-- Settles O24: the frame of each command, past its own refusal. -/
theorem commandToFaultedInstanceIsHeld : Obligations.CommandToFaultedInstanceIsHeld := by
  unfold Obligations.CommandToFaultedInstanceIsHeld
  intro s i k x hfg hx hf hi
  rcases hi with rfl | rfl | ⟨rs, len, data, rfl, hd⟩ | ⟨rs, addr, count, rfl⟩ | rfl | ⟨index, rfl, hlt⟩
  · rw [exec, execInit, command_of_fault hfg hx rfl hf, State.hold]
  · rw [exec, execIsReady, command_of_fault hfg hx rfl hf, State.hold]
  · rw [exec, execTransmit, command_of_fault hfg hx (if_pos hd) hf, State.hold]
  · rw [exec, execRead, command_of_fault hfg hx rfl hf, State.hold]
  · rw [exec, execGetStatus, command_of_fault hfg hx rfl hf, State.hold]
  · rw [exec, execGetRxByte, command_of_fault hfg hx (if_pos hlt) hf, State.hold]

/-! ## A command ahead of INIT (R194 code 1) -/

/-- Settles O9: past its refusal each of the five commands tests INITD first. -/
theorem notInitialisedFaults : Obligations.NotInitialisedFaults := by
  unfold Obligations.NotInitialisedFaults
  intro s k x hfg hx hf hi i c hic
  have hn : ¬ x.initd = true := by simp [hi]
  rcases hic with ⟨rfl, rfl⟩ | ⟨rs, len, data, rfl, hd, rfl⟩ | ⟨rs, addr, count, rfl, rfl⟩ | ⟨rfl, rfl⟩ |
    ⟨index, rfl, hlt, rfl⟩
  · rw [exec, execIsReady, command_of_run hfg hx rfl hf, if_neg hn, complete_raise]
  · rw [exec, execTransmit, command_of_run hfg hx (if_pos hd) hf, if_neg hn, complete_raise]
  · rw [exec, execRead, command_of_run hfg hx rfl hf, if_neg hn, complete_raise]
  · rw [exec, execGetStatus, command_of_run hfg hx rfl hf, if_neg hn, complete_raise]
  · rw [exec, execGetRxByte, command_of_run hfg hx (if_pos hlt) hf, if_neg hn, complete_raise]

/-! ## The faults that the rules can reach (R194) -/

/-- A fault of code 1 to 5, or an UNWRITTEN_READ that R143 or R110 names. -/
def FaultCode.Reachable (f : FaultCode) : Prop :=
  f.number ≤ 5 ∨ f = .unwrittenRead .rxLen ∨ f = .unwrittenRead .rxCur ∨ ∃ j, f = .unwrittenRead (.rxBuf j)

/-- The bus has no fault that the rules cannot reach. -/
def Inst.FaultReachable (x : Inst) : Prop := ∀ f, x.fault = some f → f.Reachable

theorem Inst.FaultReachable.of_none {x : Inst} (h : x.fault = none) : x.FaultReachable :=
  fun _ hf => nomatch h.symm.trans hf

theorem Inst.FaultReachable.of_some {x : Inst} {f : FaultCode} (h : x.fault = some f) (hr : f.Reachable) :
    x.FaultReachable := by
  intro g hg
  cases h.symm.trans hg
  exact hr

theorem Inst.FaultReachable.raise (x : Inst) {f : FaultCode} (hr : f.Reachable) : (x.raise f).FaultReachable :=
  .of_some rfl hr

/-! ### The Dispatcher (R131-R149) -/

/-- REP_START is written once INIT has run (R100). -/
theorem finish_fault {p : Params} {x : Inst} (h : x.Handling p) : (finish p x).fault = none := by
  rcases finish_cases p x with ⟨hw, -⟩ | ⟨-, e⟩ | ⟨-, e⟩
  · exact nomatch hw.symm.trans h.repStart
  · rw [e]; exact h.noFault
  · rw [e]; exact h.noFault

theorem errorChain_fault {p : Params} {x : Inst} (st : Byte) (h : x.Handling p) : (errorChain st x).fault = none := by
  rcases errorChain_cases st x with ⟨hw, -⟩ | ⟨-, e⟩ | ⟨-, e⟩
  · exact nomatch hw.symm.trans h.repStart
  · rw [e]; exact h.noFault
  · rw [e]; exact h.noFault

/-- A transfer has TX_LEN and TX_CUR written, every byte below TX_LEN is written and inside TX_CAP, and `pend` is on at a
delivery (R33, R45, R181). -/
theorem loadOrFinish_fault {p : Params} {x : Inst} (h : x.Handling p) : (loadOrFinish p x).fault = none := by
  obtain ⟨hsame, hbound⟩ := h.tx
  obtain ⟨-, hcap, hread⟩ := hbound h.txLen
  rcases loadOrFinish_cases p h.noFault with ⟨f, -, hf⟩ | ⟨-, -, -, -, v, -, e⟩ | ⟨-, -, -, e⟩
  · exfalso
    rcases hf with ⟨-, hc⟩ | ⟨-, hl⟩ | ⟨-, hlt, -, hn⟩ | ⟨-, hlt, -, hge⟩ | ⟨v, -, hp⟩
    · exact nomatch (hsame.trans hc).symm.trans h.txLen
    · exact nomatch hl.symm.trans h.txLen
    · simpa [hn] using hread _ hlt
    · omega
    · exact nomatch hp.symm.trans h.pend
  · rw [e]; exact h.noFault
  · rw [e]; exact finish_fault h

/-- Before any READ the ACK decision faults as R143 describes. -/
theorem ackDecision_faultReachable (p : Params) {x : Inst} (hf : x.fault = none) : (ackDecision p x).FaultReachable := by
  rcases ackDecision_cases p x with ⟨-, e⟩ | ⟨-, e⟩ | ⟨-, -, op, -, e⟩ <;> rw [e]
  · exact .of_some rfl (.inr (.inl rfl))
  · exact .of_some rfl (.inr (.inr (.inl rfl)))
  · exact .of_none hf

/-- RX_CUR below RX_LEN lies inside RX_CAP (R33), and a receive event has written the data register (R184). -/
theorem store_faultReachable {p : Params} {x : Inst} (st : Byte) (h : x.Handling p) (hd : x.hw.data.written = true) :
    (store p st x).FaultReachable := by
  rcases store_cases p st h.noFault with ⟨f, e, hf⟩ | ⟨-, -, -, -, e⟩ <;> rw [e]
  · refine .of_some rfl ?_
    rcases hf with ⟨rfl, -⟩ | ⟨rfl, -⟩ | ⟨rfl, -⟩ | ⟨-, hn⟩ | ⟨-, hlt, hl, hge⟩
    · exact .inr (.inr (.inl rfl))
    · exact .inr (.inl rfl)
    · exact .inl (by simp [FaultCode.number])
    · exact nomatch hn.symm.trans hd
    · obtain ⟨-, hcap, -⟩ := h.rx.2 hl
      omega
  · exact .of_none h.noFault

theorem store_andThen_faultReachable {p : Params} {x : Inst} {f : Inst → Inst} (st : Byte) (h : x.Handling p)
    (hd : x.hw.data.written = true) (hf : ∀ y : Inst, y.Handling p → (f y).FaultReachable) :
    ((store p st x).andThen f).FaultReachable := by
  rcases store_handling st h with ⟨c, hc⟩ | hy
  · rw [Inst.andThen_of_fault hc]; exact store_faultReachable st h hd
  · rw [Inst.andThen_of_no_fault hy.noFault]; exact hf _ hy

/-- Every row, the two receive rows on a delivery that carried a data byte. -/
theorem rowOf_faultReachable {c : StatusClass} {p : Params} (st : Byte) {x : Inst} (h : x.Handling p)
    (hd : c = .mrDataAck ∨ c = .mrDataNack → x.hw.data.written = true) : (rowOf c p st x).FaultReachable := by
  cases c with
  | startSent => exact .of_none (loadOrFinish_fault h)
  | repStartSent => exact .of_none h.noFault
  | mtSlawAck => exact .of_none (loadOrFinish_fault (h.setMode (.inr (.inl rfl))))
  | mtSlawNack => exact .of_none (errorChain_fault st h)
  | mtDataAck => exact .of_none (loadOrFinish_fault h)
  | mtDataNack => exact .of_none (errorChain_fault st h)
  | arbLost => exact .of_none (errorChain_fault st h)
  | mrSlarAck => exact ackDecision_faultReachable p (x := x.setMode .masterReceiver) h.noFault
  | mrSlarNack => exact .of_none (errorChain_fault st h)
  | mrDataAck =>
    exact store_andThen_faultReachable st h (hd (.inl rfl)) fun _ hy => ackDecision_faultReachable p hy.noFault
  | mrDataNack => exact store_andThen_faultReachable st h (hd (.inr rfl)) fun _ hy => .of_none (finish_fault hy)
  | illegalStartStop => exact .of_none h.noFault
  | noInfoClass => exact .of_none h.noFault
  | unhandled => exact .raise x (.inl (by simp [FaultCode.number]))

/-! ### The commands (R100-R110) -/

/-- A command that tests INITD, and goes on with `y` where INIT has run. -/
theorem initd_faultReachable {x y : Inst} (c : CmdName) (h : x.initd = true → y.FaultReachable) :
    (if x.initd then y else x.raise (.notInitialised c)).FaultReachable := by
  split
  · rename_i hi
    exact h hi
  · exact .raise x (.inl (by simp [FaultCode.number]))

/-- INIT of a live bus finds `MODE` written. -/
theorem initInst_faultReachable {p : Params} {x : Inst} (h : x.Inv p) (hf : x.fault = none) :
    (initInst p x).FaultReachable := by
  unfold initInst
  split
  · rename_i hi
    obtain ⟨hm, -⟩ := h.live hf hi
    rw [Reg.read_of_written hm]
    split
    · exact .raise x (.inl (by simp [FaultCode.number]))
    · exact .of_none hf
  · exact .of_none hf

/-- The acceptance of a TRANSMIT that has passed its checks faults TX_EMPTY_AFTER_RS or not at all (R103). -/
theorem acceptTransmit_faultReachable {p : Params} {rs : Bool} {len : Byte} {data : List Byte} {x : Inst}
    (hf : x.fault = none) (h : x.Live p) (hr : x.ready = true) (hd : data.length = len.toNat) (hl : len.toNat ≤ p.txCap) :
    (acceptTransmit p rs len data x).FaultReachable := by
  have hcap : data.length ≤ p.txCap := by omega
  rcases h.ready_cases hr with hm | ⟨hm, hp⟩
  · rw [acceptTransmit_ready hf hcap hm]
    exact .of_none hf
  · cases data with
    | nil =>
      have hlen : len = 0#8 := BitVec.eq_of_toNat_eq (by simpa using hd.symm)
      rw [hlen, acceptTransmit_empty hf hm]
      exact .of_some rfl (.inl (by simp [FaultCode.number]))
    | cons v vs =>
      rw [acceptTransmit_repeatedStart hf hcap (ne_zero_of_cons_length hd) hm hp]
      exact .of_none hf

/-- READ's own writes keep a live bus live (R106 step Q3). -/
theorem Inst.Live.startRead {p : Params} {x : Inst} (h : x.Live p) {count : Byte} (hl : count.toNat < p.rxCap) :
    Inst.Live p { x with rxCur := Reg.of 0, rxLen := Reg.of count } := by
  obtain ⟨hm, hls, hrs, hen, hie, hmode, htx, -⟩ := h
  exact ⟨hm, hls, hrs, hen, hie, hmode, htx, rfl, fun _ => ⟨Nat.zero_le _, hl, fun i hi => absurd hi (Nat.not_lt_zero i)⟩⟩

theorem acceptRead_faultReachable {p : Params} {rs : Bool} {addr count : Byte} {x : Inst} (hf : x.fault = none)
    (h : x.Live p) (hr : x.ready = true) (hl : count.toNat < p.rxCap) (hc : 1 ≤ p.txCap) :
    (acceptRead p rs addr count x).FaultReachable := by
  rw [acceptRead_eq hf]
  exact acceptTransmit_faultReachable (x := { x with rxCur := Reg.of 0, rxLen := Reg.of count }) hf (h.startRead hl) hr rfl hc

/-! ### The system -/

/-- Every bus that had not faulted has no fault that the rules cannot reach. -/
def NewFaultsReachable (s t : State) : Prop :=
  ∀ (k : Nat) (x y : Inst), s.insts[k]? = some x → x.fault = none → t.insts[k]? = some y → y.FaultReachable

theorem NewFaultsReachable.of_insts {s t : State} (h : t.insts = s.insts) : NewFaultsReachable s t := by
  intro k x y hx hf hy
  rw [h] at hy
  cases hx.symm.trans hy
  exact .of_none hf

theorem NewFaultsReachable.of_set {s t : State} {k : Nat} {y : Inst} (h : t.insts = s.insts.set k y)
    (hy : y.FaultReachable) : NewFaultsReachable s t := by
  intro j x z hx hf hz
  obtain ⟨hlt, -⟩ := List.getElem?_eq_some_iff.mp hx
  rw [h] at hz
  by_cases hj : k = j
  · subst hj
    cases (List.getElem?_set_self hlt).symm.trans hz
    exact hy
  · rw [List.getElem?_set_ne hj] at hz
    cases hx.symm.trans hz
    exact .of_none hf

theorem command_newFaults {i : Instr} {k : Nat} {refusal : Inst → Option RefuseReason} {body : Inst → State} {s t : State}
    (hs : s.Inv) (h : command i k refusal body s = .next t)
    (hb : ∀ x, x.Inv s.params → refusal x = none → x.fault = none → NewFaultsReachable s (body x)) :
    NewFaultsReachable s t := by
  obtain ⟨-, ⟨-, rfl⟩ | ⟨x, hx, ⟨why, -, rfl⟩ | ⟨-, -, rfl⟩ | ⟨hr, hf, rfl⟩⟩⟩ := command_next h
  · exact .of_insts rfl
  · exact .of_insts rfl
  · exact .of_insts rfl
  · exact hb x (Inv.get hs hx) hr hf

/-- An acceptance entered past the wait, as one step or as the steps that remain (R112). -/
theorem accept_newFaults {s : State} {i : Instr} {k : Nat} {y : Inst} (f : ApiFn) (todo : List AcceptStep)
    (hy : y.FaultReachable) : NewFaultsReachable s (s.accept i k f todo y) := by
  unfold State.accept
  split
  · exact .of_insts rfl
  · exact .of_set rfl hy


theorem Params.one_le_txCap {p : Params} (h : p.wf = true) : 1 ≤ p.txCap := by
  simp only [Params.wf, Bool.and_eq_true, decide_eq_true_eq] at h
  omega

theorem execInit_newFaults {k : InstField} {s t : State} (hs : s.Inv) (h : execInit k s = .next t) :
    NewFaultsReachable s t :=
  command_newFaults hs h fun _ hx _ hf => .of_set rfl (initInst_faultReachable hx hf)

theorem execIsReady_newFaults {k : InstField} {s t : State} (hs : s.Inv) (h : execIsReady k s = .next t) :
    NewFaultsReachable s t := by
  refine command_newFaults hs h fun x hx _ hf => .of_set rfl (initd_faultReachable .isReady fun hi => ?_)
  obtain ⟨hm, -⟩ := hx.live hf hi
  rw [Reg.read_of_written hm]
  exact .of_none hf

theorem execGetStatus_newFaults {k : InstField} {s t : State} (hs : s.Inv) (h : execGetStatus k s = .next t) :
    NewFaultsReachable s t := by
  refine command_newFaults hs h fun x hx _ hf => .of_set rfl (initd_faultReachable .getStatus fun hi => ?_)
  obtain ⟨-, hls, -⟩ := hx.live hf hi
  rw [Reg.read_of_written hls]
  exact .of_none hf

/-- An index past RX_CAP is refused, and an unwritten element faults as R110 describes. -/
theorem execGetRxByte_newFaults {k : InstField} {index : Byte} {s t : State} (hs : s.Inv)
    (h : execGetRxByte k index s = .next t) : NewFaultsReachable s t := by
  refine command_newFaults hs h fun x _ hr hf => .of_set rfl (initd_faultReachable .getRxByte fun _ => ?_)
  have hlt : index.toNat < s.params.rxCap := by
    by_contra hge
    simp [hge] at hr
  cases hread : Memory.read x.rxBuf index.toNat with
  | none => rw [Memory.load_of_unwritten hlt hread]; exact .raise x (.inr (.inr (.inr ⟨_, rfl⟩)))
  | some v => rw [Memory.load_of_read hlt hread]; exact .of_none hf

theorem execTransmit_newFaults {k : InstField} {rs : Bool} {len : Byte} {data : List Byte} {s t : State} (hs : s.Inv)
    (h : execTransmit k rs len data s = .next t) : NewFaultsReachable s t := by
  refine command_newFaults hs h fun x hx hr hf => ?_
  have hd : data.length = len.toNat := by
    by_contra hd
    simp [hd] at hr
  split
  · rename_i hi
    have hlive := hx.live hf hi
    obtain ⟨hm, -⟩ := id hlive
    rw [if_pos hm]
    split
    · exact .of_set rfl (.of_none hf)
    · rename_i hl
      split
      · rename_i hready
        exact accept_newFaults _ _ (acceptTransmit_faultReachable hf hlive hready hd (Nat.not_lt.mp hl))
      · exact .of_insts rfl
  · exact .of_set rfl (.raise x (.inl (by simp [FaultCode.number])))

theorem execRead_newFaults {k : InstField} {rs : Bool} {addr count : Byte} {s t : State} (hs : s.Inv)
    (h : execRead k rs addr count s = .next t) : NewFaultsReachable s t := by
  obtain ⟨hwf, -⟩ := id hs
  refine command_newFaults hs h fun x hx _ hf => ?_
  split
  · rename_i hi
    have hlive := hx.live hf hi
    obtain ⟨hm, -⟩ := id hlive
    rw [if_pos hm]
    split
    · exact .of_set rfl (.of_none hf)
    · rename_i hl
      split
      · rename_i hready
        exact accept_newFaults _ _
          (acceptRead_faultReachable hf hlive hready (Nat.not_le.mp hl) (Params.one_le_txCap hwf))
      · exact .of_insts rfl
  · exact .of_set rfl (.raise x (.inl (by simp [FaultCode.number])))

/-- Whatever a word spells. -/
theorem exec_command_newFaults {w : CmdWord} {payload : List Byte} {s t : State} (hs : s.Inv)
    (h : exec (w.command payload) s = .next t) : NewFaultsReachable s t := by
  unfold CmdWord.command at h
  (repeat' split at h)
  · exact execInit_newFaults hs h
  · exact execIsReady_newFaults hs h
  · exact execTransmit_newFaults hs h
  · exact execRead_newFaults hs h
  · exact execGetStatus_newFaults hs h
  · exact execGetRxByte_newFaults hs h
  · exact .of_insts ((execReservedOp6_next (rest := w.rest) h).insts_of_no_target rfl)
  · exact .of_insts ((execReservedOp7_next (rest := w.rest) h).insts_of_no_target rfl)

/-- A held command has passed its checks, so its acceptance is as sound as one entered at once (R101). -/
theorem turn_newFaults {s : State} (hs : s.Inv) : NewFaultsReachable s s.turn := by
  obtain ⟨hwf, hnr, -, -, hok⟩ := id hs
  rcases turn_cases s with h | ⟨i, k, f, x, hi, hc, hx, hf, hw, h⟩ <;> rw [h]
  · exact .of_insts rfl
  · have hlive := (Inv.get hs hx).live hf
    unfold State.advance
    split
    · exact .of_insts rfl
    · rename_i j hfg
      rw [hfg] at hi hw
      cases hi
      have hready : x.ready = true := hw rfl
      have hold := (heldOk_held_iff hfg).mp hok k (target_of_callOf hc) x hx
      unfold State.resume
      split
      · obtain ⟨hinit, hd, hl⟩ := hold.resolve_left (absurd hf)
        exact accept_newFaults _ _ (acceptTransmit_faultReachable hf (hlive hinit) hready hd hl)
      · obtain ⟨hinit, hl⟩ := hold.resolve_left (absurd hf)
        exact accept_newFaults _ _ (acceptRead_faultReachable hf (hlive hinit) hready hl (Params.one_le_txCap hwf))
      · exact .of_insts rfl
    all_goals
      rename_i hfg
      simp [State.heldOk, hfg, hnr] at hok

theorem exec_event_newFaults {c : StatusClass} {k : Nat} {raw d : Byte} {s t : State} (hs : s.Inv)
    (h : exec (c.event k raw d) s = .next t) : NewFaultsReachable s t := by
  obtain ⟨x, hx, ⟨r, rfl⟩ | ⟨-, he, rfl⟩⟩ := exec_event_cases h
  · exact .of_insts rfl
  · refine .of_set rfl (rowOf_faultReachable _ (enterHandler_handling (Inv.get hs hx) he raw _) fun hc => ?_)
    rw [if_pos hc]
    rfl

theorem runMsg_newFaults {m : Msg} {s t : State} (hs : s.Inv) (h : runMsg m s = .next t) : NewFaultsReachable s t := by
  cases m with
  | cmd w payload =>
    simp only [runMsg] at h
    split at h
    · injection h with h
      exact h ▸ .of_insts rfl
    · rename_i i hi
      rw [decodeCmd_ok hi] at h
      exact exec_command_newFaults hs h
  | evt k raw d =>
    rcases runMsg_evt k raw d s with ⟨why, h'⟩ | h' <;> rw [h'] at h
    · injection h with h
      exact h ▸ .of_insts rfl
    · exact exec_event_newFaults hs h
  | redispatch k =>
    obtain ⟨-, hr, -⟩ := id hs
    obtain ⟨why, he⟩ := redispatch_refused hr k
    simp only [runMsg, he] at h
    injection h with h
    exact h ▸ .of_insts rfl
  | turn =>
    simp only [runMsg] at h
    injection h with h
    exact h ▸ turn_newFaults hs

/-- Settles O56: the message that a step takes raises reachable faults only, and the environment's draw none. -/
theorem unreachableFaultsAreNotRaised : Obligations.UnreachableFaultsAreNotRaised := by
  unfold Obligations.UnreachableFaultsAreNotRaised
  intro s t k x y f hs hx hf h hy hfault
  have hnew : NewFaultsReachable s t := by
    rcases step_cases s with ⟨m, rest, -, h'⟩ | ⟨-, h'⟩ <;> rw [h'] at h
    · exact runMsg_newFaults (s := { s with inbox := rest }) (Inv.congr hs rfl rfl rfl) h
    · injection h with h
      exact h ▸ .of_insts rfl
  exact hnew k x y hx hf hy f hfault

end Sys2Proof.Machine
end

section
/-! PROOFS. INIT run twice (R222). -/

namespace Sys2Proof.Machine

/-- R100 on a bus in which INIT does not fault, in terms of `initialise`. -/
theorem exec_init_of_resets {s : State} {k : InstField} {x : Inst} (hfg : s.fg = .idle)
    (hx : s.insts[k.toNat]? = some x) (hf : x.fault = none)
    (h : x.initd = false ∨ (x.mode = Reg.of .ready ∧ x.hw.busy = false ∧ x.hw.pend = false)) :
    exec (.init k) s = .next { s with insts := s.insts.set k.toNat (initialise s.params x), reply := .done } := by
  rw [initialise_eq]
  obtain ⟨hreset, -⟩ := initResetsOrFaults s k x hfg hx hf
  exact hreset h

/-- INIT's body writes constants, so that a second run of it adds its pair to the trace and nothing else (R222). -/
theorem initialise_initialise (p : Params) (x : Inst) :
    initialise p (initialise p x) =
      { initialise p x with
        hw :=
          { (initialise p x).hw with
            trace := (initialise p x).hw.trace ++ [.setDivisor p.clockDivisor, .enable] } } :=
  initialise_eq p (initialise p x)

/-- Settles O7: INIT leaves its bus `Ready` with nothing outstanding, so the second INIT runs the body once more. -/
theorem initTwiceIsInitOnce : Obligations.InitTwiceIsInitOnce := by
  unfold Obligations.InitTwiceIsInitOnce
  intro s k x hfg hx hf hinit hb hp
  obtain ⟨hk, -⟩ := List.getElem?_eq_some_iff.mp hx
  have hy := List.getElem?_set_self (a := initialise s.params x) hk
  have hfirst := exec_init_of_resets hfg hx hf (hinit.imp_right fun hm => ⟨hm, hb, hp⟩)
  have hsecond := exec_init_of_resets
    (s := { s with insts := s.insts.set k.toNat (initialise s.params x), reply := .done }) hfg hy hf
    (.inr ⟨rfl, hb, hp⟩)
  refine ⟨_, _, initialise s.params x, hfirst, hsecond, hy, by rw [initialise_eq], ?_⟩
  rw [← initialise_initialise]
  exact List.getElem?_set_self (by rw [List.length_set]; exact hk)

end Sys2Proof.Machine
end
